-- ==== Sys2Proof/Word.lean ====
section
/-! DEFINITION. The word types of the TCS (00_scope.md R14: bits numbered from 0 at the least significant end, all values
unsigned). -/

namespace Sys2Proof

/-- A byte, R14. -/
abbrev Byte := BitVec 8

/-- A command word, R11 and R80: 16 bits, presented whole. -/
abbrev CmdWord := BitVec 16

/-- The status word, R11 and R36. -/
abbrev StatusWord := BitVec 16

end Sys2Proof
end

