-- ==== Sys2Proof/Config.lean ====
section
/-! DEFINITION. What is fixed for the life of one TCS: the sizes the spec gives (R8), the parameters it leaves open (R9, R10)
and the free values. Every open parameter and every free value is an `opaque` constant with no body: no proof can see its
value, so a statement about the machine holds for every choice (log 16). -/

namespace Sys2Proof

/-- BLOB_LEN, R8. -/
abbrev blobLen : Nat := 48
/-- N_CH, R8: the channel ordinals are 0 to 16. -/
abbrev nCh : Nat := 17
/-- N_PWR, R8: the power ordinals are 0 to 10. -/
abbrev nPwr : Nat := 11

/-- The parameters of one TCS (R9, R10) and its free values, gathered so that the machine can also be run on other
parameters (the test fixture TP of 95_test_vectors.md section 2). -/
structure Hardware where
  blob       : Vector Byte blobLen
  chTable    : Vector Byte nCh
  pwrTable   : Vector Byte nPwr
  rxPower    : Byte
  stopCode   : Byte
  rxCode     : Byte
  txCode     : Byte
  powerReg   : Byte
  channelReg : Byte
  spiMode    : BitVec 2
  /-- SETTLE_CYCLES less one (R10: at least 1). -/
  settleExtra : Nat
  /-- T_CSS less one (R10: at least 1). -/
  tCssExtra : Nat
  /-- T_CSH less one (R10: at least 1). -/
  tCshExtra : Nat
  /-- T_CSD less one (R10: at least 1). -/
  tCsdExtra : Nat
  /-- Block cycles of the half of an SCLK period at CPOL, less one (R152: a period has at least 2 cycles; log 6). -/
  leadExtra : Nat
  /-- Block cycles of the half of an SCLK period away from CPOL, less one (R152; log 6). -/
  trailExtra : Nat
  /-- MOSI where the spec leaves it open: R153, I-7 (log 7). -/
  freeMosi : Nat → Bool
  /-- SHIFT after reset: R39, I-8 (log 3). -/
  freeShift : Nat → Byte
  /-- The gap after a byte, in SCLK periods: R150, I-14 (log 8). -/
  freeGap : Nat → Nat
  /-- Whether a reset counts the bit it interrupts as driven: R201, I-6 (log 11). -/
  freeCut : Nat → Bool

/-- CPOL = SPI_MODE[1], R10. -/
def Hardware.cpol (hw : Hardware) : Bool := hw.spiMode.getLsbD 1
/-- CPHA = SPI_MODE[0], R10. -/
def Hardware.cpha (hw : Hardware) : Bool := hw.spiMode.getLsbD 0
/-- SETTLE_CYCLES >= 1, R10. -/
def Hardware.settleCycles (hw : Hardware) : Nat := hw.settleExtra + 1
/-- T_CSS >= 1, R10. -/
def Hardware.tCss (hw : Hardware) : Nat := hw.tCssExtra + 1
/-- T_CSH >= 1, R10. -/
def Hardware.tCsh (hw : Hardware) : Nat := hw.tCshExtra + 1
/-- T_CSD >= 1, R10. -/
def Hardware.tCsd (hw : Hardware) : Nat := hw.tCsdExtra + 1
/-- The idle half of an SCLK period (SCLK = CPOL), in block cycles. DESIGN CHOICE (log 6). -/
def Hardware.leadCycles (hw : Hardware) : Nat := hw.leadExtra + 1
/-- The active half of an SCLK period (SCLK away from CPOL), in block cycles. DESIGN CHOICE (log 6). -/
def Hardware.trailCycles (hw : Hardware) : Nat := hw.trailExtra + 1
/-- P_SCLK, the SCLK period in block cycles, at least 2: R152. It stands for F_SCLK of R10. -/
def Hardware.pSclk (hw : Hardware) : Nat := hw.leadCycles + hw.trailCycles

namespace Config

/-- BLOB[0..47], OPEN (R9). -/
opaque blob : Vector Byte blobLen
/-- CH_TABLE[0..16], OPEN (R9). -/
opaque chTable : Vector Byte nCh
/-- PWR_TABLE[0..10], OPEN (R9). -/
opaque pwrTable : Vector Byte nPwr
/-- RX_POWER, OPEN (R9). -/
opaque rxPower : Byte
/-- STOP_CODE, OPEN (R9). -/
opaque stopCode : Byte
/-- RX_CODE, OPEN (R9). -/
opaque rxCode : Byte
/-- TX_CODE, OPEN (R9). -/
opaque txCode : Byte
/-- POWER_REG, OPEN (R9). -/
opaque powerReg : Byte
/-- CHANNEL_REG, OPEN (R9). -/
opaque channelReg : Byte
/-- SPI_MODE, OPEN in 0 to 3 (R10). -/
opaque spiMode : BitVec 2
/-- SETTLE_CYCLES - 1, OPEN (R10). -/
opaque settleExtra : Nat
/-- T_CSS - 1, OPEN (R10). -/
opaque tCssExtra : Nat
/-- T_CSH - 1, OPEN (R10). -/
opaque tCshExtra : Nat
/-- T_CSD - 1, OPEN (R10). -/
opaque tCsdExtra : Nat
/-- Idle half of the SCLK period - 1, OPEN (R152). -/
opaque leadExtra : Nat
/-- Active half of the SCLK period - 1, OPEN (R152). -/
opaque trailExtra : Nat
/-- FREE VALUE: MOSI where it is unspecified (R153). -/
opaque freeMosi : Nat → Bool
/-- FREE VALUE: SHIFT after reset (R39). -/
opaque freeShift : Nat → Byte
/-- FREE VALUE: the gap after a byte of a frame, in SCLK periods (R150). -/
opaque freeGap : Nat → Nat
/-- FREE VALUE: whether a frame's cut counts the bit in progress (R201). -/
opaque freeCut : Nat → Bool

/-- KA_PERIOD_MAX in milliseconds: default 500 (R10, R206, I-12). -/
def kaPeriodMaxMs : Nat := 500
/-- DEVICE_MODE_TIMEOUT in milliseconds, OPEN (R10, R206, I-3); no relation to KA_PERIOD_MAX is assumed (N20). -/
opaque deviceModeTimeoutMs : Nat

/-- The TCS the machine is: every parameter open. -/
def hardware : Hardware where
  blob := blob
  chTable := chTable
  pwrTable := pwrTable
  rxPower := rxPower
  stopCode := stopCode
  rxCode := rxCode
  txCode := txCode
  powerReg := powerReg
  channelReg := channelReg
  spiMode := spiMode
  settleExtra := settleExtra
  tCssExtra := tCssExtra
  tCshExtra := tCshExtra
  tCsdExtra := tCsdExtra
  leadExtra := leadExtra
  trailExtra := trailExtra
  freeMosi := freeMosi
  freeShift := freeShift
  freeGap := freeGap
  freeCut := freeCut

end Config

end Sys2Proof
end

