-- ==== Sys2Proof/Syntax.lean ====
section
/-! DEFINITION. The syntax of the TCS: the command words (30_encoding.md R80 to R85, one constructor per row of the opcode
table), the micro-operations and sequences of its sequence ROM (R86), and the assembly lines of R89 and R90. -/

namespace Sys2Proof

/-- The handle's direction, R22: 0 = Receive, 1 = Transmit. -/
inductive Direction where
  | receive
  | transmit
  deriving DecidableEq, Repr

/-- A command word, as the opcode table's rows divide the 16-bit words (R80 to R84).
An ignored field (R83) is kept, so that no bit of a word is lost. -/
inductive Instr where
  /-- Row START, `0000ppppcccccd01`: channel CH, direction D, power PW. -/
  | start (ch : BitVec 5) (dir : Direction) (pw : BitVec 4)
  /-- Row CHCH, `0000xxxxcccccx10`: channel CH; the D and PW bits are ignored. -/
  | chch (ch : BitVec 5) (ignoredD : BitVec 1) (ignoredPw : BitVec 4)
  /-- Row KA, `0000xxxxxxxxxx11`: bits 11 to 2 are ignored. -/
  | ka (ignored : BitVec 10)
  /-- Row illegal OP = 00, `xxxxxxxxxxxxxx00`: `hi` is bits 15 to 2. -/
  | illegalOp00 (hi : BitVec 14)
  /-- Row illegal RSV bit 12 set, `xxx1xxxxxxxxxxxx`: `hi` is bits 15 to 13, `lo` bits 11 to 0. -/
  | illegalRsv12 (hi : BitVec 3) (lo : BitVec 12)
  /-- Row illegal RSV bit 13 set, `xx1xxxxxxxxxxxxx`: `hi` is bits 15 to 14, `lo` bits 12 to 0. -/
  | illegalRsv13 (hi : BitVec 2) (lo : BitVec 13)
  /-- Row illegal RSV bit 14 set, `x1xxxxxxxxxxxxxx`: `hi` is bit 15, `lo` bits 13 to 0. -/
  | illegalRsv14 (hi : BitVec 1) (lo : BitVec 14)
  /-- Row illegal RSV bit 15 set, `1xxxxxxxxxxxxxxx`: `lo` is bits 14 to 0. -/
  | illegalRsv15 (lo : BitVec 15)
  deriving DecidableEq, Repr

/-- A micro-operation of the sequence ROM, R86. Code 6 is no micro-operation. -/
inductive MicroOp where
  | settle
  | fStop
  | fBlob
  | fPower
  | fChannel
  | fMode
  /-- END. -/
  | finish
  deriving DecidableEq, Repr

/-- The SEQ field of the step pointer, R27: NONE, S_START, S_CHCH, S_KA. -/
inductive SeqId where
  | none
  | start
  | chch
  | ka
  deriving DecidableEq, Repr

/-- The result code of a presentation, R170. Codes 6 and 7 are never produced and have no constructor. -/
inductive ErrCode where
  | ok
  | invalidChannel
  | invalidPower
  | busUnavailable
  | notStarted
  | badCommand
  deriving DecidableEq, Repr

/-- One line of assembly, R89 and R90. `start ch dir none` is the form with the power omitted. -/
inductive AsmLine where
  | start (ch : Nat) (dir : Direction) (pw : Option Nat)
  | chch (ch : Nat)
  | ka
  /-- `.word v` -/
  | word (v : Nat)
  deriving DecidableEq, Repr

/-- Why the assembler refuses a line (R89, R90). -/
inductive AsmError where
  /-- ch > 31: it does not fit its field (R89). -/
  | channelTooWide
  /-- pw > 15: it does not fit its field (R89). -/
  | powerTooWide
  /-- The power may be omitted for RX only (R90). -/
  | powerMissing
  /-- The raw word of `.word` has more than 16 bits. -/
  | wordTooWide
  /-- The text is no line of R89. -/
  | notALine
  deriving DecidableEq, Repr

end Sys2Proof
end

