-- ==== Sys2Proof/Machine/State.lean ====
section
/-! DEFINITION. The state of the TCS (10_state.md R20 to R39), as plain data. `Arch` is what the transaction level has (R13,
R20); `State` extends it by the bit-level internals, the pins and the input levels to come. -/

namespace Sys2Proof.Machine

/-- An event of the bus history, R33. -/
inductive Event where
  /-- A settle delay completed (R142). -/
  | settle
  /-- A complete frame carrying the bytes (R140). -/
  | frame (bytes : List Byte)
  /-- A frame cut short by reset after the complete bytes and `bits` further bits (R201). -/
  | truncated (bytes : List Byte) (bits : Fin 8)
  /-- A reset by RST (R200). -/
  | reset
  deriving DecidableEq, Repr

/-- The stage of the frame waveform of R150 the bit-level engine is in. The model's own state (log 5). -/
inductive Phase where
  /-- Between micro-steps, or idle: CS_N = 1 and SP names the micro-step about to execute (R27). -/
  | boundary
  /-- CS_N = 0, waiting T_CSS: R150 (2). -/
  | select
  /-- In the half of a bit's SCLK period before the leading edge: R150 (3), R151. -/
  | lead
  /-- In the half of a bit's SCLK period after the leading edge: R150 (3), R151. -/
  | trail
  /-- In a gap between two bytes, CS_N = 0: R150. -/
  | gap
  /-- After the last SCLK edge, waiting T_CSH: R150 (4). -/
  | hold
  /-- CS_N = 1 again, waiting T_CSD: R150 (6). -/
  | deselect
  deriving DecidableEq, Repr

/-- The levels of the input pins and of the command port in one cycle, R32. -/
structure Inputs where
  rst      : Bool
  busOk    : Bool
  cmdValid : Bool
  /-- CMD_WORD; it is the command register CMD of R35, which holds nothing after acceptance. -/
  cmdWord  : CmdWord
  miso     : Bool
  deriving DecidableEq, Repr

/-- The transaction-level state: handle, operating state, step pointer, flags, error code and history (R20). -/
structure Arch where
  /-- DIR, R22. -/
  dir     : Direction
  /-- CHAN, R23. -/
  chan    : BitVec 5
  /-- PWR, R24. -/
  pwr     : BitVec 4
  /-- STARTED, R26. -/
  started : Bool
  /-- SEQ, R27. -/
  seq     : SeqId
  /-- STEP, R27. -/
  stepIdx : BitVec 3
  /-- BUSY, R28. -/
  busy    : Bool
  /-- ERR, R29. -/
  err     : ErrCode
  /-- HIST, R33, oldest event first. -/
  hist    : List Event
  deriving DecidableEq, Repr

/-- The state of the TCS in one block clock cycle. -/
structure State extends Arch where
  /-- BYTE_IDX, R30. -/
  byteIdx   : BitVec 6
  /-- BIT_IDX, R30. -/
  bitIdx    : BitVec 3
  /-- SHIFT, R30. -/
  shift     : Byte
  /-- SETTLE_CNT, R30, "wide enough": a natural number (log 17). -/
  settleCnt : Nat
  /-- TCNT, R30, "wide enough": a natural number (log 17). It counts the cycles spent in the current phase. -/
  tcnt      : Nat
  /-- CS_N, R31. -/
  csN       : Bool
  /-- SCLK, R31. -/
  sclk      : Bool
  /-- MOSI, R31. -/
  mosi      : Bool
  /-- The stage of the frame waveform. The model's own (log 5). -/
  phase     : Phase
  /-- The length in block cycles of the running gap between two bytes (R150). The model's own (log 5, log 8). -/
  gap       : Nat
  /-- The input levels of this cycle, R32. -/
  port      : Inputs
  /-- The input levels of the cycles to come, the next one first. The model's own (log 1). -/
  upcoming  : List Inputs
  /-- The number of free values drawn so far. The model's own (log 5). -/
  draws     : Nat
  deriving DecidableEq, Repr

/-- Why the machine stops with a fault. Each is raised in states that no run reaches (log 15), and each is safe: the spec
calls these accesses unreachable and gives them no effect. -/
inductive Fault where
  /-- Raised by F_POWER and F_CHANNEL: a table read at or beyond the table's length, "undefined memory access" in the
  reference, unreachable in the TCS (R51, I-2). Safe. -/
  | tableIndexOutOfRange
  /-- Raised by the sequencer: SP names a slot of the sequence ROM that holds no micro-operation (R86, R149, I-10). Safe. -/
  | emptySequenceSlot
  /-- Raised by the sequencer: the bit-level engine is inside a frame where the micro-operation emits none, or past the
  frame's last byte (R154). Safe. -/
  | engineAstray
  deriving DecidableEq, Repr

/-- Why the machine has no meaning for an instruction. -/
inductive Refusal where
  /-- Raised by an arm of `exec` whose instruction has no meaning in the model; no arm does. Safe. -/
  | notModelled (mnemonic : String)
  deriving DecidableEq, Repr

/-- What a step of the machine answers. -/
abbrev Result := Host.Outcome State Fault Refusal

/-- The input levels held at power-on, until the host drives others: no reset, no command, the bus available.
DESIGN CHOICE, unsafe: the inputs are the platform's, and the spec gives them no reset value (log 2). -/
def Inputs.quiet : Inputs where
  rst := false
  busOk := true
  cmdValid := false
  cmdWord := 0
  miso := false

/-- The transaction-level state after reset, R39. -/
def Arch.reset : Arch where
  dir := .receive
  chan := 0
  pwr := 0
  started := false
  seq := .none
  stepIdx := 0
  busy := false
  err := .ok
  hist := []

/-- The state after power-on, R39 and R200. SHIFT and MOSI are free values (log 3). -/
def State.resetWith (hw : Hardware) : State where
  toArch := Arch.reset
  byteIdx := 0
  bitIdx := 0
  shift := hw.freeShift 0
  settleCnt := 0
  tcnt := 0
  csN := true
  sclk := hw.cpol
  mosi := hw.freeMosi 0
  phase := .boundary
  gap := 0
  port := Inputs.quiet
  upcoming := []
  draws := 1

/-- The machine right after power-on reset, R39. -/
def State.reset : State := State.resetWith Config.hardware

end Sys2Proof.Machine
end

