-- ==== Sys2Proof/Machine/Operands.lean ====
section
/-! DEFINITION. Operands: the range checks on the command fields, the choice by direction, the read-only tables and the
sequence ROM. -/

namespace Sys2Proof.Machine

/-- The channel ordinal is in range: c > 16 is refused (R173, R154: an unsigned comparison). -/
def channelInRange (c : BitVec 5) : Bool := decide (c.toNat < nCh)

/-- The power ordinal is in range: p > 10 is refused (R174, R154). -/
def powerInRange (p : BitVec 4) : Bool := decide (p.toNat < nPwr)

/-- The power operand is acceptable in the direction: it is checked for Transmit only (R174). -/
def powerAcceptable (d : Direction) (p : BitVec 4) : Bool :=
  match d with
  | .receive => true
  | .transmit => powerInRange p

/-- sel(DIR, a, b): a for Transmit, b for Receive (R18). -/
def sel {α : Type} (d : Direction) (a b : α) : α :=
  match d with
  | .transmit => a
  | .receive => b

/-- The byte tables of the table ROM, R50. -/
inductive Table where
  | blob
  | chTable
  | pwrTable
  deriving DecidableEq, Repr

/-- A read of a byte vector below its length. -/
def readVector {n : Nat} (v : Vector Byte n) (i : Nat) : Except Fault Byte :=
  if h : i < n then .ok v[i] else .error .tableIndexOutOfRange

/-- MemRead(T, i, 1), R16: defined for an index below the table's length only (R51). -/
def memRead (hw : Hardware) : Table → Nat → Except Fault Byte
  | .blob, i => readVector hw.blob i
  | .chTable, i => readVector hw.chTable i
  | .pwrTable, i => readVector hw.pwrTable i

/-- The sequence ROM, R86: the micro-operations of a sequence, STEP counting from 0. -/
def seqRom : SeqId → List MicroOp
  | .none => []
  | .start => [.settle, .fStop, .fBlob, .fPower, .fChannel, .fMode, .finish]
  | .chch => [.fStop, .fPower, .fChannel, .fMode, .finish]
  | .ka => [.fMode, .finish]

/-- SEQROM[SEQ][STEP], R141; `none` where the ROM has no such slot. -/
def microOpAt (a : Arch) : Option MicroOp := (seqRom a.seq)[a.stepIdx.toNat]?

end Sys2Proof.Machine
end

