-- ==== Sys2Proof/Machine/Ops.lean ====
section
/-! DEFINITION. The shared operations of a presentation and of a reset: the ordered checks (R176), the rejection (R17, R177:
the machine's only exception, with no return from it, R178), the acceptance (R110), and RST (R200 to R202). -/

namespace Sys2Proof.Machine

/-- Apply a function to the next state, leaving a fault or a refusal as it is. -/
def mapNext (f : State → State) : Result → Result
  | .next s => .next (f s)
  | .fault r => .fault r
  | .refused r => .refused r

/-- The error codes whose check fails, in order, R176: each row is a check that must hold and the code raised if not. -/
def firstError : List (Bool × ErrCode) → Option ErrCode
  | [] => none
  | (holds, code) :: rest => if holds then firstError rest else some code

/-- raise E, R17 and R177: ERR takes the code and nothing else changes. -/
def reject (code : ErrCode) (a : Arch) : Arch := { a with err := code }

/-- The part of an acceptance every command shares, R110: ERR <- OK, SP <- (SEQ, 0), BUSY <- 1. -/
def beginSequence (q : SeqId) (a : Arch) : Arch :=
  { a with err := .ok, seq := q, stepIdx := 0, busy := true }

/-- A presentation, R110: the first check that fails is raised, and otherwise the command is accepted.
While BUSY = 1 no command is presented and the word is held (R111, log 14). -/
def present (checks : List (Bool × ErrCode)) (accept : Arch → Arch) (s : State) : Result :=
  if s.busy then .next s
  else
    match firstError checks with
    | some code => .next { s with toArch := reject code s.toArch }
    | none => .next { s with toArch := accept s.toArch }

/-- A draw for MOSI where the spec leaves it open, R153 and I-7 (log 7). -/
def floatMosi (hw : Hardware) (s : State) : State :=
  { s with mosi := hw.freeMosi s.draws, draws := s.draws + 1 }

/-- The events of a reset, R200 to R202, given the bytes of the frame that is cut and the number of its bits driven so far. -/
def truncation (bytes : List Byte) (bits : Nat) : Event :=
  .truncated (bytes.take (bits / 8)) (Fin.ofNat 8 bits)

/-- RST, R200: every element takes its value of R39, and HIST keeps its events and gains those of the cut, if any, and then
Reset. The inputs are not state that a reset writes. SHIFT and MOSI are free values (log 3). Where RST is held for several
cycles, each of them appends its Reset (DESIGN CHOICE, log 25). -/
def resetByRst (hw : Hardware) (cut : List Event) (s : State) : State :=
  { State.resetWith hw with
    hist := s.hist ++ cut ++ [.reset]
    shift := hw.freeShift s.draws
    mosi := hw.freeMosi s.draws
    port := s.port
    upcoming := s.upcoming
    draws := s.draws + 1 }

end Sys2Proof.Machine
end

