-- ==== Sys2Proof/Machine/Commands.lean ====
section
/-! DEFINITION. The meanings of START, CHCH and KA: their checks in the order of R176 and what their acceptance writes
(40_commands.md). That RSV = 0 holds of a word the decoder reads as one of the three. -/

namespace Sys2Proof.Machine

/-- What an accepted START writes, R114. -/
def acceptStart (ch : BitVec 5) (d : Direction) (pw : BitVec 4) (a : Arch) : Arch :=
  beginSequence .start { a with dir := d, chan := ch, pwr := pw, started := true }

/-- What an accepted CHCH writes, R120. -/
def acceptChch (ch : BitVec 5) (a : Arch) : Arch :=
  beginSequence .chch { a with chan := ch }

/-- What an accepted KA writes, R125. -/
def acceptKa (a : Arch) : Arch := beginSequence .ka a

/-- START, R114 and R116. -/
def execStart (ch : BitVec 5) (d : Direction) (pw : BitVec 4) (s : State) : Result :=
  present
    [(s.port.busOk, .busUnavailable), (channelInRange ch, .invalidChannel), (powerAcceptable d pw, .invalidPower)]
    (acceptStart ch d pw) s

/-- CHCH, R120 and R121. The D and PW bits of the word are ignored (R83). -/
def execChch (ch : BitVec 5) (s : State) : Result :=
  present
    [(s.port.busOk, .busUnavailable), (s.started, .notStarted), (channelInRange ch, .invalidChannel)]
    (acceptChch ch) s

/-- KA, R125 and R126. All operand bits of the word are ignored (R83). -/
def execKa (s : State) : Result :=
  present [(s.port.busOk, .busUnavailable), (s.started, .notStarted)] acceptKa s

end Sys2Proof.Machine
end

