-- ==== Sys2Proof/Machine/Illegal.lean ====
section
/-! DEFINITION. The meanings of the illegal words, R84 (a) and (b), R129, R175: each raises BAD_COMMAND before every other
check (R176). -/

namespace Sys2Proof.Machine

/-- A word that spells no command raises BAD_COMMAND, R175. -/
def badWord (s : State) : Result := present [(false, .badCommand)] id s

/-- A word with OP = 0b00, R129. -/
def execIllegalOp00 (s : State) : Result := badWord s
/-- A word with RSV bit 12 set, R129. -/
def execIllegalRsv12 (s : State) : Result := badWord s
/-- A word with RSV bit 13 set, R129. -/
def execIllegalRsv13 (s : State) : Result := badWord s
/-- A word with RSV bit 14 set, R129. -/
def execIllegalRsv14 (s : State) : Result := badWord s
/-- A word with RSV bit 15 set, R129. -/
def execIllegalRsv15 (s : State) : Result := badWord s

end Sys2Proof.Machine
end

