-- ==== Sys2Proof/Machine/Dispatch.lean ====
section
/-! DEFINITION. One arm per constructor of `Instr`: the presentation of a command word to the TCS (R110, R112). -/

namespace Sys2Proof.Machine

def exec (i : Instr) (s : State) : Host.Outcome State Fault Refusal :=
  match i with
  | .start ch d pw => Sys2Proof.Machine.execStart ch d pw s
  | .chch ch _ _ => Sys2Proof.Machine.execChch ch s
  | .ka _ => Sys2Proof.Machine.execKa s
  | .illegalOp00 _ => Sys2Proof.Machine.execIllegalOp00 s
  | .illegalRsv12 _ _ => Sys2Proof.Machine.execIllegalRsv12 s
  | .illegalRsv13 _ _ => Sys2Proof.Machine.execIllegalRsv13 s
  | .illegalRsv14 _ _ => Sys2Proof.Machine.execIllegalRsv14 s
  | .illegalRsv15 _ => Sys2Proof.Machine.execIllegalRsv15 s

end Sys2Proof.Machine
end

