-- ==== Sys2Proof/Machine/Frames.lean ====
section
/-! DEFINITION. The bytes of each frame (30_encoding.md R87, 41_frames.md R143 to R147), shared by the transaction level and
the bit level. -/

namespace Sys2Proof.Machine

/-- The reads of a list of indices of a table, in order. -/
def memReadAll (hw : Hardware) (t : Table) : List Nat → Except Fault (List Byte)
  | [] => .ok []
  | i :: rest =>
    match memRead hw t i, memReadAll hw t rest with
    | .ok b, .ok bs => .ok (b :: bs)
    | .error f, _ => .error f
    | .ok _, .error f => .error f

/-- A register frame: the register code first and the value second, R55 and R87. -/
def registerFrame (code : Byte) : Except Fault Byte → Except Fault (List Byte)
  | .ok v => .ok [code, v]
  | .error f => .error f

/-- F_STOP, R143. -/
def stopBytes (hw : Hardware) : List Byte := [hw.stopCode]

/-- F_BLOB, R144: BLOB[0] to BLOB[47] in index order. -/
def blobBytes (hw : Hardware) : Except Fault (List Byte) := memReadAll hw .blob (List.range blobLen)

/-- The value byte of F_POWER, R145: PWR_TABLE is read for Transmit only. -/
def powerValue (hw : Hardware) (a : Arch) : Except Fault Byte :=
  sel a.dir (memRead hw .pwrTable a.pwr.toNat) (.ok hw.rxPower)

/-- F_POWER, R145. -/
def powerBytes (hw : Hardware) (a : Arch) : Except Fault (List Byte) :=
  registerFrame hw.powerReg (powerValue hw a)

/-- F_CHANNEL, R146. -/
def channelBytes (hw : Hardware) (a : Arch) : Except Fault (List Byte) :=
  registerFrame hw.channelReg (memRead hw .chTable a.chan.toNat)

/-- F_MODE, R147. -/
def modeBytes (hw : Hardware) (a : Arch) : List Byte := [sel a.dir hw.txCode hw.rxCode]

/-- The byte list of a frame micro-operation, R87; SETTLE and END emit no frame. -/
def frameBytes (hw : Hardware) (a : Arch) : MicroOp → Except Fault (List Byte)
  | .settle => .error .engineAstray
  | .fStop => .ok (stopBytes hw)
  | .fBlob => blobBytes hw
  | .fPower => powerBytes hw a
  | .fChannel => channelBytes hw a
  | .fMode => .ok (modeBytes hw a)
  | .finish => .error .engineAstray

end Sys2Proof.Machine
end

