-- ==== Sys2Proof/Machine/Transaction.lean ====
section
/-! DEFINITION. The transaction level (R13, 41_frames.md R140 to R149): one step per micro-operation, over `Arch`. The bit
level of Machine/Engine.lean refines it. -/

namespace Sys2Proof.Machine

/-- An event joins the history, R33. -/
def appendEvent (e : Event) (a : Arch) : Arch := { a with hist := a.hist ++ [e] }

/-- STEP <- STEP + 1, R141. -/
def advanceStep (a : Arch) : Arch := { a with stepIdx := a.stepIdx + 1 }

/-- BusFrame(l) as one indivisible step and the advance after it, R140 and R141. -/
def busFrame (l : List Byte) (a : Arch) : Arch := advanceStep (appendEvent (.frame l) a)

/-- SETTLE as one step, R142. -/
def settleStep (a : Arch) : Arch := advanceStep (appendEvent .settle a)

/-- END, R148: SP <- (NONE, 0), BUSY <- 0. -/
def endStep (a : Arch) : Arch := { a with seq := .none, stepIdx := 0, busy := false }

/-- The step of one micro-operation, R142 to R148. -/
def microOpStep (hw : Hardware) (op : MicroOp) (a : Arch) : Except Fault Arch :=
  match op with
  | .settle => .ok (settleStep a)
  | .finish => .ok (endStep a)
  | .fStop => (frameBytes hw a .fStop).map (busFrame · a)
  | .fBlob => (frameBytes hw a .fBlob).map (busFrame · a)
  | .fPower => (frameBytes hw a .fPower).map (busFrame · a)
  | .fChannel => (frameBytes hw a .fChannel).map (busFrame · a)
  | .fMode => (frameBytes hw a .fMode).map (busFrame · a)

/-- The sequencer's step, R141: the micro-operation that SP names. -/
def microStep (hw : Hardware) (a : Arch) : Except Fault Arch :=
  match microOpAt a with
  | none => .error .emptySequenceSlot
  | some op => microOpStep hw op a

/-- What may be in a truncated frame's event, R201: any prefix of the frame's bytes, with k = 0 if it is the whole list. -/
def truncationAllowed (frame : List Byte) : Event → Bool
  | .truncated l k => l.isPrefixOf frame && (k == 0 || decide (l.length < frame.length))
  | .settle => false
  | .frame _ => false
  | .reset => false

end Sys2Proof.Machine
end

