-- ==== Sys2Proof/Machine/Engine.lean ====
section
/-! DEFINITION. The bit level (41_frames.md R150 to R153): one block clock cycle of the sequencer.

A bit's SCLK period is its idle half (phase `lead`, SCLK = CPOL), the leading edge, its active half (phase `trail`, SCLK away
from CPOL) and the trailing edge, for both clock phases (log 6). A phase of n cycles is the n states with TCNT = 0 to n - 1;
the last cycle of T_CSD is the boundary cycle in which the next micro-step starts (log 13). -/

namespace Sys2Proof.Machine

/-- One more cycle in the current phase. -/
def countCycle (s : State) : State := { s with tcnt := s.tcnt + 1 }

/-- MOSI outside a bit period while the device is selected: with CPHA = 1 it changes on leading edges only, so it is held;
with CPHA = 0 it is open (R151, log 7). -/
def releaseMosi (hw : Hardware) (s : State) : State := if hw.cpha then s else floatMosi hw s

/-- MOSI takes the bit SHIFT[BIT_IDX], R150 (3). -/
def driveBit (s : State) : State := { s with mosi := s.shift.getLsbD s.bitIdx.toNat }

/-- MOSI at the start of a bit period: with CPHA = 0 it takes the bit before the leading edge, R151. -/
def driveEarly (hw : Hardware) (s : State) : State := if hw.cpha then s else driveBit s

/-- MOSI at the leading edge: with CPHA = 1 it takes the bit there, R151. -/
def driveAtEdge (hw : Hardware) (s : State) : State := if hw.cpha then driveBit s else s

/-- R150 (1): CS_N <- 0, with SCLK at its idle level. BYTE_IDX names the first byte and BIT_IDX its bit 7 already in the wait
T_CSS, in which no byte is being shifted (DESIGN CHOICE, log 27). -/
def selectDevice (hw : Hardware) (s : State) : State :=
  floatMosi hw { s with csN := false, sclk := hw.cpol, phase := .select, tcnt := 0, byteIdx := 0, bitIdx := 7 }

/-- R150 (3): load SHIFT with the byte BYTE_IDX names and begin with bit 7. -/
def beginByte (hw : Hardware) (l : List Byte) (s : State) : Result :=
  match l[s.byteIdx.toNat]? with
  | none => .fault .engineAstray
  | some b => .next (driveEarly hw { s with shift := b, bitIdx := 7, phase := .lead, tcnt := 0 })

/-- The leading edge of a bit, R151. -/
def leadingEdge (hw : Hardware) (s : State) : State :=
  driveAtEdge hw { s with sclk := !hw.cpol, phase := .trail, tcnt := 0 }

/-- The next bit of the same byte, R150 (3): BIT_IDX counts down. -/
def nextBit (hw : Hardware) (s : State) : State :=
  driveEarly hw { s with bitIdx := s.bitIdx - 1, phase := .lead, tcnt := 0 }

/-- The next byte of the frame, at once or after a gap of whole SCLK periods, R150: a free value (log 8). In the gap, in which
no byte is being shifted, BYTE_IDX and BIT_IDX name the next bit to leave while SHIFT keeps the byte that has left (DESIGN
CHOICE, log 27). -/
def nextByte (hw : Hardware) (l : List Byte) (s : State) : Result :=
  let s' := { s with
    byteIdx := s.byteIdx + 1
    bitIdx := 7
    tcnt := 0
    gap := hw.freeGap s.draws * hw.pSclk
    draws := s.draws + 1 }
  if s'.gap = 0 then beginByte hw l s' else .next (releaseMosi hw { s' with phase := .gap })

/-- The trailing edge of a bit, R151: the next bit, the next byte, or the hold time after the last one, in which BYTE_IDX and
BIT_IDX keep their last values (DESIGN CHOICE, log 27). -/
def trailingEdge (hw : Hardware) (l : List Byte) (s : State) : Result :=
  if s.bitIdx ≠ 0 then .next (nextBit hw { s with sclk := hw.cpol })
  else if s.byteIdx.toNat + 1 < l.length then nextByte hw l { s with sclk := hw.cpol }
  else .next (releaseMosi hw { s with sclk := hw.cpol, phase := .hold, tcnt := 0 })

/-- A cycle of the deselect time T_CSD, R150 (6); with its last cycle the micro-step completes and STEP advances (R141). -/
def deselectCycle (hw : Hardware) (s : State) : State :=
  floatMosi hw
    (if s.tcnt + 1 < hw.tCsd then countCycle s
     else { s with toArch := advanceStep s.toArch, phase := .boundary, tcnt := 0 })

/-- R150 (5): CS_N <- 1. The frame is complete and joins the history (R33, log 9); BYTE_IDX and BIT_IDX return to 0 (log 24). -/
def deselectDevice (hw : Hardware) (l : List Byte) (s : State) : State :=
  deselectCycle hw
    { s with
      toArch := appendEvent (.frame l) s.toArch
      csN := true
      phase := .deselect
      tcnt := 0
      byteIdx := 0
      bitIdx := 0
      gap := 0 }

/-- One cycle of a frame micro-operation with byte list l, R150. -/
def frameCycle (hw : Hardware) (l : List Byte) (s : State) : Result :=
  match s.phase with
  | .boundary => .next (selectDevice hw s)
  | .select => if s.tcnt + 1 < hw.tCss then .next (floatMosi hw (countCycle s)) else beginByte hw l s
  | .lead => if s.tcnt + 1 < hw.leadCycles then .next (countCycle s) else .next (leadingEdge hw s)
  | .trail => if s.tcnt + 1 < hw.trailCycles then .next (countCycle s) else trailingEdge hw l s
  | .gap => if s.tcnt + 1 < s.gap then .next (releaseMosi hw (countCycle s)) else beginByte hw l s
  | .hold => if s.tcnt + 1 < hw.tCsh then .next (releaseMosi hw (countCycle s)) else .next (deselectDevice hw l s)
  | .deselect => .next (deselectCycle hw s)

/-- One cycle of SETTLE, R142: SETTLE_CNT counts SETTLE_CYCLES cycles and is back at 0 when the delay completes (log 10). -/
def settleCycle (hw : Hardware) (s : State) : State :=
  floatMosi hw
    (if s.settleCnt + 1 < hw.settleCycles then { s with settleCnt := s.settleCnt + 1 }
     else { s with toArch := settleStep s.toArch, settleCnt := 0 })

/-- The cycle of END, R148. -/
def endCycle (hw : Hardware) (s : State) : State := floatMosi hw { s with toArch := endStep s.toArch }

/-- One cycle of a frame micro-operation whose bytes are given, or the fault of their read. -/
def frameOpCycle (hw : Hardware) (bytes : Except Fault (List Byte)) (s : State) : Result :=
  match bytes with
  | .error f => .fault f
  | .ok l => frameCycle hw l s

/-- One cycle of the micro-operation SP names, R141 to R148. SETTLE and END hold CS_N = 1, so they run between frames only. -/
def sequencerCycle (hw : Hardware) (s : State) : Result :=
  match microOpAt s.toArch with
  | none => .fault .emptySequenceSlot
  | some .settle => if s.phase = .boundary then .next (settleCycle hw s) else .fault .engineAstray
  | some .finish => if s.phase = .boundary then .next (endCycle hw s) else .fault .engineAstray
  | some .fStop => frameOpCycle hw (frameBytes hw s.toArch .fStop) s
  | some .fBlob => frameOpCycle hw (frameBytes hw s.toArch .fBlob) s
  | some .fPower => frameOpCycle hw (frameBytes hw s.toArch .fPower) s
  | some .fChannel => frameOpCycle hw (frameBytes hw s.toArch .fChannel) s
  | some .fMode => frameOpCycle hw (frameBytes hw s.toArch .fMode) s

/-- The bytes of the frame in progress, R201; empty where SP names none. -/
def runningFrame (hw : Hardware) (a : Arch) : List Byte :=
  match microOpAt a with
  | none => []
  | some op =>
    match frameBytes hw a op with
    | .ok l => l
    | .error _ => []

/-- Whether the reset counts the bit in progress as driven: only a bit that is on MOSI can be, and the spec leaves open
whether a bit whose period is not over counts (R201, log 11). -/
def cutBit (hw : Hardware) (s : State) : Nat :=
  if hw.freeCut s.draws && (s.phase == .trail || !hw.cpha) then 1 else 0

/-- The bits of the running frame driven before a reset in this cycle, R201. -/
def bitsDriven (hw : Hardware) (l : List Byte) (s : State) : Nat :=
  match s.phase with
  | .boundary => 0
  | .select => 0
  | .lead => 8 * s.byteIdx.toNat + (7 - s.bitIdx.toNat) + cutBit hw s
  | .trail => 8 * s.byteIdx.toNat + (7 - s.bitIdx.toNat) + cutBit hw s
  | .gap => 8 * s.byteIdx.toNat
  | .hold => 8 * l.length
  | .deselect => 0

/-- What a reset in this cycle cuts short, R201 and R202: a frame if CS_N = 0, nothing otherwise. -/
def cutEvents (hw : Hardware) (s : State) : List Event :=
  if s.csN then []
  else [truncation (runningFrame hw s.toArch) (bitsDriven hw (runningFrame hw s.toArch) s)]

/-- A cycle of RST, R200 to R202 (log 25). -/
def resetCycle (hw : Hardware) (s : State) : State := resetByRst hw (cutEvents hw s) s

end Sys2Proof.Machine
end

