-- ==== Sys2Proof/WellFormed.lean ====
section
/-! DEFINITION. Which terms of `Instr` stand for a word under exactly one constructor. The illegal rows of the opcode table
overlap ("a word may match several illegal rows, all of which give BAD_COMMAND", 30_encoding.md): a word with several RSV
bits set is written by the row of its lowest set RSV bit, and the row OP = 00 takes words with RSV = 0 only. DESIGN CHOICE,
without effect on the machine (log 12). -/

namespace Sys2Proof

/-- The term is the one constructor that stands for its word. -/
def Instr.wf : Instr → Bool
  | .start _ _ _ => true
  | .chch _ _ _ => true
  | .ka _ => true
  | .illegalOp00 hi => hi.extractLsb' 10 4 == 0
  | .illegalRsv12 _ _ => true
  | .illegalRsv13 _ lo => lo.extractLsb' 12 1 == 0
  | .illegalRsv14 _ lo => lo.extractLsb' 12 2 == 0
  | .illegalRsv15 lo => lo.extractLsb' 12 3 == 0

/-- The word spells no command, R84 (a) and (b). -/
def Instr.illegal : Instr → Bool
  | .start _ _ _ => false
  | .chch _ _ _ => false
  | .ka _ => false
  | .illegalOp00 _ => true
  | .illegalRsv12 _ _ => true
  | .illegalRsv13 _ _ => true
  | .illegalRsv14 _ _ => true
  | .illegalRsv15 _ => true

end Sys2Proof
end

