-- ==== Sys2Proof/Decode.lean ====
section
/-! DEFINITION. Decoding and encoding of command words (30_encoding.md R80 to R85, 40_commands.md R112). A command word is
moved whole (R57, R58), so no byte order arises, and every one of the 65536 words has a meaning (R84). The decoder tests the
RSV bits along with OP, which R112 leaves to each command's checks: the outcome is the same, since BAD_COMMAND is first in
priority (R176; log 12). -/

namespace Sys2Proof

/-- The 1-bit code of a direction, R22. -/
def Direction.bit : Direction → BitVec 1
  | .receive => 0
  | .transmit => 1

/-- The direction of a 1-bit field, R22. -/
def Direction.ofBit (b : BitVec 1) : Direction :=
  if b = 0 then .receive else .transmit

/-- OP = w[1:0], R80. -/
def opField (w : CmdWord) : BitVec 2 := w.extractLsb' 0 2
/-- D = w[2], R80. -/
def dField (w : CmdWord) : BitVec 1 := w.extractLsb' 2 1
/-- CH = w[7:3], R80. -/
def chField (w : CmdWord) : BitVec 5 := w.extractLsb' 3 5
/-- PW = w[11:8], R80. -/
def pwField (w : CmdWord) : BitVec 4 := w.extractLsb' 8 4
/-- RSV = w[15:12], R80. -/
def rsvField (w : CmdWord) : BitVec 4 := w.extractLsb' 12 4

/-- The reading of a word by its OP field, R81 and R112. -/
def decodeOp (w : CmdWord) : Instr :=
  if opField w = 0b01 then .start (chField w) (.ofBit (dField w)) (pwField w)
  else if opField w = 0b10 then .chch (chField w) (dField w) (pwField w)
  else if opField w = 0b11 then .ka (w.extractLsb' 2 10)
  else .illegalOp00 (w.extractLsb' 2 14)

/-- The decoder: total on 16-bit words (R84). -/
def decodeWord (w : CmdWord) : Instr :=
  if w.getLsbD 12 then .illegalRsv12 (w.extractLsb' 13 3) (w.extractLsb' 0 12)
  else if w.getLsbD 13 then .illegalRsv13 (w.extractLsb' 14 2) (w.extractLsb' 0 13)
  else if w.getLsbD 14 then .illegalRsv14 (w.extractLsb' 15 1) (w.extractLsb' 0 14)
  else if w.getLsbD 15 then .illegalRsv15 (w.extractLsb' 0 15)
  else decodeOp w

/-- Why bits are no command word. -/
inductive DecodeError where
  /-- More than 16 bits (R85: "every command word is exactly 16 bits"). -/
  | wordTooLong
  deriving DecidableEq, Repr

/-- The 16-bit word whose low `nbits` bits are those of `w`, the bits above being 0. -/
def tableWord (nbits w : Nat) : CmdWord := BitVec.ofNat 16 (w % 2 ^ nbits)

/-- The decoder on a number of bits: it rejects more than 16 of them by name. -/
def decode (nbits w : Nat) : Except DecodeError Instr :=
  if 16 < nbits then .error .wordTooLong else .ok (decodeWord (tableWord nbits w))

/-- What the decoder reads from an opcode-table word, bit 0 the least significant bit (R80). -/
def decodeTableWord (nbits w : Nat) : Option Instr :=
  match decode nbits w with
  | .ok i => some i
  | .error _ => none

/-- The word of an instruction: w = RSV, PW, CH, D, OP from the most significant end (R80, R81). -/
def encode : Instr → CmdWord
  | .start ch dir pw => 0#4 ++ pw ++ ch ++ dir.bit ++ 0b01#2
  | .chch ch d pw => 0#4 ++ pw ++ ch ++ d ++ 0b10#2
  | .ka ignored => 0#4 ++ ignored ++ 0b11#2
  | .illegalOp00 hi => hi ++ 0b00#2
  | .illegalRsv12 hi lo => hi ++ 1#1 ++ lo
  | .illegalRsv13 hi lo => hi ++ 1#1 ++ lo
  | .illegalRsv14 hi lo => hi ++ 1#1 ++ lo
  | .illegalRsv15 lo => 1#1 ++ lo

/-- A row's `mask` column of the opcode table. -/
def rowMask : Instr → CmdWord
  | .start _ _ _ => 0xF003
  | .chch _ _ _ => 0xF003
  | .ka _ => 0xF003
  | .illegalOp00 _ => 0x0003
  | .illegalRsv12 _ _ => 0x1000
  | .illegalRsv13 _ _ => 0x2000
  | .illegalRsv14 _ _ => 0x4000
  | .illegalRsv15 _ => 0x8000

/-- A row's `match` column of the opcode table. -/
def rowMatch : Instr → CmdWord
  | .start _ _ _ => 0x0001
  | .chch _ _ _ => 0x0002
  | .ka _ => 0x0003
  | .illegalOp00 _ => 0x0000
  | .illegalRsv12 _ _ => 0x1000
  | .illegalRsv13 _ _ => 0x2000
  | .illegalRsv14 _ _ => 0x4000
  | .illegalRsv15 _ => 0x8000

end Sys2Proof
end

