-- ==== Sys2Proof/Machine/Flags.lean ====
section
/-! DEFINITION. Flags and the status word: CMD_READY (R32), the error codes (R170) and STATUS (R36). -/

namespace Sys2Proof.Machine

/-- CMD_READY = not BUSY, R28 and R32. -/
def Arch.cmdReady (a : Arch) : Bool := !a.busy

/-- The 3-bit code of a result, R170. -/
def errBits : ErrCode → BitVec 3
  | .ok => 0
  | .invalidChannel => 1
  | .invalidPower => 2
  | .busUnavailable => 3
  | .notStarted => 4
  | .badCommand => 5

/-- STATUS = 0, PWR, CHAN, DIR, ERR, STARTED, BUSY from the most significant end, R36. -/
def Arch.status (a : Arch) : StatusWord :=
  0#1 ++ a.pwr ++ a.chan ++ a.dir.bit ++ errBits a.err ++ BitVec.ofBool a.started ++ BitVec.ofBool a.busy

end Sys2Proof.Machine
end

