-- ==== Sys2Proof/Machine/HostPort.lean ====
section
/-! DEFINITION. The host's side: its steps (R12), the register-mapped wrapper of the host port (R56), and the passing of the
input levels from one cycle to the next (log 1). -/

namespace Sys2Proof.Machine

/-- The command port takes the word of this cycle: CMD_VALID = 1, CMD_READY = 1 and no reset (R110, R200). -/
def presented (s : State) : Bool := !s.port.rst && s.cmdReady && s.port.cmdValid

/-- The host's step: present a command word (R12, R110). It is held until it is taken (R111, log 19). A word that already waits
at the port is overwritten and lost, which a host that holds its word (R111) never does (DESIGN CHOICE, log 26). -/
def presentWord (w : CmdWord) (s : State) : State :=
  { s with port := { s.port with cmdValid := true, cmdWord := w } }

/-- The host's step: read STATUS (R12, R130). The read returns the snapshot of this cycle and changes nothing. -/
def readStatus (s : State) : StatusWord × State := (s.status, s)

/-- The host's step: assert RST in this cycle (R12, R200). -/
def assertReset (s : State) : State := { s with port := { s.port with rst := true } }

/-- The platform drives BUS_OK (R12, R32). -/
def driveBusOk (b : Bool) (s : State) : State := { s with port := { s.port with busOk := b } }

/-- A read through the register-mapped wrapper, R56: CMD at word offset 0 reads 0, STATUS is at 1, the others read 0. -/
def wrapperRead (offset : Nat) (s : State) : StatusWord × State :=
  if offset = 1 then readStatus s else (0, s)

/-- A write through the register-mapped wrapper, R56: offset 0 presents the word, the others ignore it. R56 gives no handshake:
the word is put on the port even while BUSY = 1 (log 19), and there it replaces one that still waits (DESIGN CHOICE, log 26). -/
def wrapperWrite (offset : Nat) (w : CmdWord) (s : State) : State :=
  if offset = 0 then presentWord w s else s

/-- The input levels after this cycle where the host has planned none: RST falls, a word that was taken is withdrawn and one
that was not is held (R111), and the other levels stay. DESIGN CHOICE (log 1). -/
def heldInputs (s : State) : Inputs :=
  { s.port with rst := false, cmdValid := s.port.cmdValid && !presented s }

/-- The input levels of the next cycle. -/
def nextPort (s : State) : Inputs :=
  match s.upcoming with
  | [] => heldInputs s
  | p :: _ => p

/-- The state `t` that a cycle from `s` leaves, with the inputs of the next cycle at its pins. -/
def passInputs (s t : State) : State := { t with port := nextPort s, upcoming := s.upcoming.tail }

/-- The TCS put to rest, ready to take a word: no sequence runs and the device is deselected. It is the identity on a state
that is ready. -/
def atRest (s : State) : State :=
  if s.busy then { s with seq := .none, stepIdx := 0, busy := false, csN := true, phase := .boundary, tcnt := 0, settleCnt := 0 }
  else s

/-- A ready TCS in a cycle in which the host presents the word. -/
def withPresented (w : CmdWord) (s : State) : State :=
  let r := atRest s
  presentWord w { r with port := { r.port with rst := false } }

end Sys2Proof.Machine
end

