-- ==== Sys2Proof/Machine/Cycle.lean ====
section
/-! DEFINITION. One block clock cycle of the TCS: RST before everything (R200), else the running sequence (R141), else a
presented word (R110), else nothing (R204, R185). -/

namespace Sys2Proof.Machine

/-- MOSI after a presentation: a rejection does not move it (R177), and in the cycle of an acceptance it is open (R153,
log 18). -/
def linesAfterPresentation (hw : Hardware) (t : State) : State := if t.busy then floatMosi hw t else t

/-- A cycle in which a word is presented: it is decoded and executed (R110, R112). -/
def presentationCycle (hw : Hardware) (s : State) : Result :=
  mapNext (linesAfterPresentation hw) (exec (decodeWord s.port.cmdWord) s)

/-- A cycle, before the inputs pass on: RST comes before every other step (R200), and each cycle with RST = 1 is a reset of its
own (log 25). -/
def cycleCore (hw : Hardware) (s : State) : Result :=
  if s.port.rst then .next (resetCycle hw s)
  else if s.busy then sequencerCycle hw s
  else if s.port.cmdValid then presentationCycle hw s
  else .next (floatMosi hw s)

/-- One block clock cycle. -/
def cycle (hw : Hardware) (s : State) : Result := mapNext (passInputs s) (cycleCore hw s)

/-- `n` cycles. -/
def runWith (hw : Hardware) : Nat → State → Result
  | 0, s => .next s
  | n + 1, s =>
    match cycle hw s with
    | .next t => runWith hw n t
    | .fault r => .fault r
    | .refused r => .refused r

end Sys2Proof.Machine
end

