-- ==== Sys2Proof/Machine/Step.lean ====
section
/-! DEFINITION. The step of the machine: one block clock cycle (log 1), and the placing of a command word where the next step
takes it. -/

namespace Sys2Proof.Machine

/-- One block clock cycle of the TCS with every parameter open. -/
def step (s : State) : Host.Outcome State Fault Refusal := cycle Config.hardware s

/-- `s`, ready, in a cycle in which the host presents the word of an opcode-table row: the next step runs it (log 4). -/
def State.withFetchWord (s : State) (nbits w : Nat) : State := withPresented (tableWord nbits w) s

end Sys2Proof.Machine
end

