-- ==== Sys2Proof/Machine/Assembler.lean ====
section
/-! DEFINITION. The assembly form of 30_encoding.md R89 and R90: lines to words, words to lines, and their text. Lines are lists
of characters; words of a line are separated by blanks and commas (log 22). -/

namespace Sys2Proof.Machine

/-- The assembler, R89 and R90: it refuses operands that do not fit their fields and accepts the others, in range or not. -/
def assemble : AsmLine → Except AsmError CmdWord
  | .start ch d (some pw) =>
    if 31 < ch then .error .channelTooWide
    else if 15 < pw then .error .powerTooWide
    else .ok (encode (.start (BitVec.ofNat 5 ch) d (BitVec.ofNat 4 pw)))
  | .start ch .receive none =>
    if 31 < ch then .error .channelTooWide else .ok (encode (.start (BitVec.ofNat 5 ch) .receive 0))
  | .start _ .transmit none => .error .powerMissing
  | .chch ch => if 31 < ch then .error .channelTooWide else .ok (encode (.chch (BitVec.ofNat 5 ch) 0 0))
  | .ka => .ok (encode (.ka 0))
  | .word v => if v < 65536 then .ok (BitVec.ofNat 16 v) else .error .wordTooWide

/-- The disassembler, R89: an illegal word is `.word v`, and ignored fields are not shown. -/
def disassemble (w : CmdWord) : AsmLine :=
  match decodeWord w with
  | .start ch d pw => .start ch.toNat d (some pw.toNat)
  | .chch ch _ _ => .chch ch.toNat
  | .ka _ => .ka
  | .illegalOp00 _ => .word w.toNat
  | .illegalRsv12 _ _ => .word w.toNat
  | .illegalRsv13 _ _ => .word w.toNat
  | .illegalRsv14 _ _ => .word w.toNat
  | .illegalRsv15 _ => .word w.toNat

/-- The value of a digit in a base up to 16. -/
def digitValue (base : Nat) (c : Char) : Option Nat :=
  let n := c.toNat
  let v := if 48 ≤ n ∧ n ≤ 57 then n - 48 else if 97 ≤ n ∧ n ≤ 102 then n - 87 else if 65 ≤ n ∧ n ≤ 70 then n - 55 else 16
  if v < base then some v else none

/-- A non-empty digit string in a base, most significant digit first. -/
def readDigits (base : Nat) : List Char → Nat → Option Nat
  | [], acc => some acc
  | c :: rest, acc =>
    match digitValue base c with
    | none => none
    | some v => readDigits base rest (acc * base + v)

/-- An operand, decimal or 0x hexadecimal (R89). -/
def readOperand : List Char → Option Nat
  | [] => none
  | ['0', 'x'] => none
  | '0' :: 'x' :: rest => readDigits 16 rest 0
  | l => readDigits 10 l 0

/-- The words of a line, separated by blanks and commas. -/
def lineWords : List Char → List Char → List (List Char)
  | [], cur => if cur.isEmpty then [] else [cur.reverse]
  | c :: rest, cur =>
    if c = ' ' ∨ c = ',' then (if cur.isEmpty then lineWords rest [] else cur.reverse :: lineWords rest [])
    else lineWords rest (c :: cur)

/-- The direction word of a START line, R89. -/
def readDirection : List Char → Option Direction
  | ['R', 'X'] => some .receive
  | ['T', 'X'] => some .transmit
  | _ => none

/-- The START line with its channel and direction read. -/
def startLine (ch : Option Nat) (d : Option Direction) (pw : Option Nat) : Except AsmError AsmLine :=
  match ch, d with
  | some c, some d => .ok (.start c d pw)
  | _, _ => .error .notALine

/-- A line of text, R89 and R90. -/
def parseLine (text : List Char) : Except AsmError AsmLine :=
  match lineWords text [] with
  | [['S', 'T', 'A', 'R', 'T'], ch, d, pw] =>
    match readOperand pw with
    | some p => startLine (readOperand ch) (readDirection d) (some p)
    | none => .error .notALine
  | [['S', 'T', 'A', 'R', 'T'], ch, d] => startLine (readOperand ch) (readDirection d) none
  | [['C', 'H', 'C', 'H'], ch] =>
    match readOperand ch with
    | some c => .ok (.chch c)
    | none => .error .notALine
  | [['K', 'A']] => .ok .ka
  | [['.', 'w', 'o', 'r', 'd'], v] =>
    match readOperand v with
    | some n => .ok (.word n)
    | none => .error .notALine
  | _ => .error .notALine

/-- A number in decimal, by fuel. -/
def decimal : Nat → Nat → List Char
  | 0, _ => []
  | fuel + 1, n =>
    let d := Char.ofNat (48 + n % 10)
    if n < 10 then [d] else decimal fuel (n / 10) ++ [d]

/-- An operand of at most 16 bits in decimal. -/
def showOperand (n : Nat) : List Char := decimal 5 n

/-- The word of a direction, R89. -/
def showDirection : Direction → List Char
  | .receive => ['R', 'X']
  | .transmit => ['T', 'X']

/-- The text of a line, R89. -/
def showLine : AsmLine → List Char
  | .start ch d (some pw) =>
    ['S', 'T', 'A', 'R', 'T', ' '] ++ showOperand ch ++ [',', ' '] ++ showDirection d ++ [',', ' '] ++ showOperand pw
  | .start ch d none => ['S', 'T', 'A', 'R', 'T', ' '] ++ showOperand ch ++ [',', ' '] ++ showDirection d
  | .chch ch => ['C', 'H', 'C', 'H', ' '] ++ showOperand ch
  | .ka => ['K', 'A']
  | .word v => ['.', 'w', 'o', 'r', 'd', ' '] ++ showOperand v

/-- Text to word: the assembler's two stages. -/
def assembleText (text : List Char) : Except AsmError CmdWord :=
  match parseLine text with
  | .ok l => assemble l
  | .error e => .error e

end Sys2Proof.Machine
end

