-- ==== Sys2Proof/Safety.lean ====
section
/-! DEFINITION. The terms statements use: the invariant of the machine, quiet inputs, the causes of an error read off a word,
the bits a device samples from the wire, the frame times, the end of a run and the host's keepalive duty. -/

namespace Sys2Proof.Safety

open Sys2Proof.Machine

/-- No reset arrives in this cycle or in a planned one. -/
def quiet (s : State) : Bool := !s.port.rst && s.upcoming.all (fun p => !p.rst)

/-- CS_N = 0 in the phase, R150. -/
def selected : Phase → Bool
  | .boundary => false
  | .select => true
  | .lead => true
  | .trail => true
  | .gap => true
  | .hold => true
  | .deselect => false

/-- The number of cycles of a phase, R150; a boundary cycle is one. -/
def phaseCycles (hw : Hardware) (s : State) : Nat :=
  match s.phase with
  | .boundary => 1
  | .select => hw.tCss
  | .lead => hw.leadCycles
  | .trail => hw.trailCycles
  | .gap => s.gap
  | .hold => hw.tCsh
  | .deselect => hw.tCsd

/-- The value byte of the power frame, R87: sel(DIR, PWR_TABLE[PWR], RX_POWER). -/
def powerByte (hw : Hardware) (d : Direction) (p : BitVec 4) : Byte :=
  sel d (hw.pwrTable.toList.getD p.toNat 0) hw.rxPower

/-- The value byte of the channel frame, R87: CH_TABLE[CHAN]. -/
def channelByte (hw : Hardware) (c : BitVec 5) : Byte := hw.chTable.toList.getD c.toNat 0

/-- The byte lists a frame can carry, R87. -/
def frameLegal (hw : Hardware) (l : List Byte) : Prop :=
  l = [hw.stopCode] ∨ l = hw.blob.toList ∨ l = [hw.powerReg, hw.rxPower] ∨
  (∃ p : BitVec 4, p.toNat < nPwr ∧ l = [hw.powerReg, powerByte hw .transmit p]) ∨
  (∃ c : BitVec 5, c.toNat < nCh ∧ l = [hw.channelReg, channelByte hw c]) ∨
  l = [hw.txCode] ∨ l = [hw.rxCode]

/-- What HIST may hold, R33: a truncated frame is a cut of a frame that could have been sent (R201). -/
def eventLegal (hw : Hardware) : Event → Prop
  | .settle => True
  | .reset => True
  | .frame l => frameLegal hw l
  | .truncated l k => ∃ f, frameLegal hw f ∧ truncationAllowed f (.truncated l k) = true

/-- The invariant of the machine: the handle invariant of R25, BUSY and SP (R27, R28), ERR while a sequence runs (R179), the
pins (R31, R151, R153), the counters' ranges (R154), the engine's place in its frame (R150), and the history (R33). The model's
own in it: `phase` and `gap` (log 5), SETTLE_CNT below SETTLE_CYCLES (log 10), TCNT counting from 0 in each stage (log 17),
BYTE_IDX = BIT_IDX = 0 outside a frame (log 24), and their values in T_CSS, in a gap and in the hold time (log 27). -/
structure Inv (hw : Hardware) (s : State) : Prop where
  busy_iff : s.busy = true ↔ s.seq ≠ .none
  idle_step : s.seq = .none → s.stepIdx = 0
  slot_exists : s.busy = true → (microOpAt s.toArch).isSome = true
  busy_started : s.busy = true → s.started = true
  busy_ok : s.busy = true → s.err = .ok
  chan_in_range : s.started = true → s.chan.toNat < nCh
  pwr_in_range : s.started = true → s.dir = .transmit → s.pwr.toNat < nPwr
  chip_select : s.csN = !selected s.phase
  clock : s.sclk = if s.phase = .trail then !hw.cpol else hw.cpol
  engaged : s.phase ≠ .boundary → s.busy = true ∧ s.byteIdx.toNat < (runningFrame hw s.toArch).length
  settling : s.settleCnt ≠ 0 → s.phase = .boundary ∧ microOpAt s.toArch = some .settle
  settle_count : s.settleCnt < hw.settleCycles
  phase_count : s.tcnt < phaseCycles hw s
  byte_loaded : s.phase = .lead ∨ s.phase = .trail → (runningFrame hw s.toArch)[s.byteIdx.toNat]? = some s.shift
  bit_before_edge : s.phase = .lead → hw.cpha = false → s.mosi = s.shift.getLsbD s.bitIdx.toNat
  bit_after_edge : s.phase = .trail → s.mosi = s.shift.getLsbD s.bitIdx.toNat
  at_select : s.phase = .select → s.byteIdx = 0 ∧ s.bitIdx = 7
  at_gap : s.phase = .gap → s.bitIdx = 7
  at_hold : s.phase = .hold → s.byteIdx.toNat + 1 = (runningFrame hw s.toArch).length ∧ s.bitIdx = 0
  at_rest : selected s.phase = false → s.byteIdx = 0 ∧ s.bitIdx = 0
  history : ∀ e ∈ s.hist, eventLegal hw e

/-- The causes of an error that a presented word may have in a state, with their codes, in the order of R176, read off the
fields of the word (R171 to R175). -/
def causes (w : CmdWord) (s : State) : List (Bool × ErrCode) :=
  [(opField w == 0 || rsvField w != 0, .badCommand),
   (!s.port.busOk, .busUnavailable),
   ((opField w == 2 || opField w == 3) && !s.started, .notStarted),
   ((opField w == 1 || opField w == 2) && decide (16 < (chField w).toNat), .invalidChannel),
   (opField w == 1 && dField w == 1 && decide (10 < (pwField w).toNat), .invalidPower)]

/-- The first cause that applies. -/
def firstCause (w : CmdWord) (s : State) : Option ErrCode := ((causes w s).find? (·.1)).map (·.2)

/-- Block cycles of a frame of `n` bytes without gaps, R156. -/
def frameCycles (hw : Hardware) (n : Nat) : Nat := hw.tCss + 8 * n * hw.pSclk + hw.tCsh + hw.tCsd

/-- The bits of a byte in the order they leave, most significant first, R54. -/
def msbFirst (b : Byte) : List Bool := (List.range 8).map (fun i => b.getLsbD (7 - i))

/-- The bits of a frame in the order they leave, R54 and R55. -/
def wireBits (l : List Byte) : List Bool := l.flatMap msbFirst

/-- Between the two cycles the selected device samples MOSI, R151: at the leading edge with CPHA = 0, at the trailing edge with
CPHA = 1. -/
def samplingEdge (hw : Hardware) (s t : State) : Bool :=
  !s.csN && !t.csN && (s.sclk != t.sclk) && (if hw.cpha then t.sclk == hw.cpol else t.sclk != hw.cpol)

/-- The bits a device on the wire samples in the next `n` cycles, R151: MOSI as it stands before the sampling edge. -/
def sampledBits (hw : Hardware) : Nat → State → List Bool
  | 0, _ => []
  | n + 1, s =>
    match cycle hw s with
    | .next t => (if samplingEdge hw s t then [s.mosi] else []) ++ sampledBits hw n t
    | .fault _ => []
    | .refused _ => []

/-- The machine reaches `t` from `s` in `n` cycles. -/
def Reaches (n : Nat) (s t : State) : Prop := Host.Core.run Sys2Proof.core n s = .next t

/-- In this cycle the host presents the word, no reset comes, and the TCS is ready: the word is taken (R110). -/
def takes (w : CmdWord) (s : State) : Prop := presented s = true ∧ s.port.cmdWord = w

/-- The next cycle rejects the presented word: ERR takes the code and nothing else of the transaction level changes (R17). -/
def Rejects (s : State) (code : ErrCode) : Prop := ∃ t, step s = .next t ∧ t.toArch = { s.toArch with err := code }

/-- The next cycle accepts the presented word, leaving the transaction-level state `accepted`, and some cycles later the
sequence is over, having appended exactly the events to HIST, with the device deselected and nothing else of the transaction
level changed (R110, R148). -/
def RunsCommand (s : State) (accepted : Arch) (events : List Event) : Prop :=
  ∃ t, step s = .next t ∧ t.toArch = accepted ∧ ∃ n u, Reaches n t u ∧ u.csN = true ∧
    u.toArch = { accepted with seq := .none, stepIdx := 0, busy := false, hist := accepted.hist ++ events }

/-- A state some run from power-on reaches, whatever the inputs. -/
def Reachable (s : State) : Prop :=
  ∃ n p ps, Reaches n { State.reset with port := p, upcoming := ps } s

/-- A run is at its end: no sequence runs and the host takes no further step, R214. -/
def atEnd (s : State) : Bool := !s.busy && !s.port.cmdValid && !s.port.rst && s.upcoming.isEmpty

/-- The observation of a run at its end, R214: HIST and STATUS. -/
def observation (s : State) : List Event × StatusWord := (s.hist, s.status)

/-- What the keepalive duty counts from and to, R206. -/
inductive LinkEvent where
  /-- A command was accepted. -/
  | accepted (seq : SeqId)
  /-- A command's sequence reached END. -/
  | ended (seq : SeqId)
  deriving DecidableEq, Repr

/-- The link event of a cycle from `s` to `t`, if any, R110 and R148. -/
def linkEvent (s t : State) : Option LinkEvent :=
  if s.port.rst then none
  else if !s.busy && t.busy then some (.accepted t.seq)
  else if s.busy && !t.busy then some (.ended s.seq)
  else none

/-- Whether a deadline that runs since `last` is met at `now`. -/
def inTime (period : Nat) (last : Option Nat) (now : Nat) : Bool :=
  match last with
  | none => true
  | some t => decide (now ≤ t + period)

/-- The host's keepalive duty over time-stamped link events, R206: from the END of a START or CHCH, or from the acceptance of a
KA, at most `period` passes until the next acceptance. `last` is when the running deadline began (log 23). A deadline that still
runs where the list ends is not judged, and a reset neither ends nor starts one (DESIGN CHOICE, log 28). -/
def keepsAlive (period : Nat) (last : Option Nat) : List (Nat × LinkEvent) → Bool
  | [] => true
  | (now, .accepted .ka) :: rest => inTime period last now && keepsAlive period (some now) rest
  | (now, .accepted .start) :: rest => inTime period last now && keepsAlive period none rest
  | (now, .accepted .chch) :: rest => inTime period last now && keepsAlive period none rest
  | (now, .ended .start) :: rest => keepsAlive period (some now) rest
  | (now, .ended .chch) :: rest => keepsAlive period (some now) rest
  | (_, .ended .ka) :: rest => keepsAlive period last rest
  | (_, .accepted .none) :: rest => keepsAlive period last rest
  | (_, .ended .none) :: rest => keepsAlive period last rest

/-- The link event of cycle `k` of the run from `s`, if any; none where the run has stopped. -/
def eventAt (s : State) (k : Nat) : Option LinkEvent :=
  match Host.Core.run Sys2Proof.core k s with
  | .next u =>
    match step u with
    | .next t => linkEvent u t
    | .fault _ => none
    | .refused _ => none
  | .fault _ => none
  | .refused _ => none

/-- The link events of the first `n` cycles of the run from `s`, each with the time `clock` gives its cycle (log 23). -/
def linkTrace (clock : Nat → Nat) (n : Nat) (s : State) : List (Nat × LinkEvent) :=
  (List.range n).filterMap (fun k => (eventAt s k).map (fun e => (clock k, e)))

/-- The duty with the spec's period, which it requires to be at most the device's mode timeout (R206). -/
def keepaliveDuty (events : List (Nat × LinkEvent)) : Prop :=
  Config.kaPeriodMaxMs ≤ Config.deviceModeTimeoutMs ∧ keepsAlive Config.kaPeriodMaxMs none events = true

end Sys2Proof.Safety
end

