-- ==== Sys2Proof/Certificates/Slice0/Obligations.lean ====
section
/-! DEFINITION. The statements about the model, each a proposition to be proved. `Config.hardware` is the TCS with every
parameter open, so each statement holds for every choice of tables, codes, clock modes and times. -/

open Sys2Proof Sys2Proof.Machine Sys2Proof.Safety

/-! ## Encoding -/

/-- R91: the encoding examples, and how the hardware takes them. -/
def Obligations.EncodingExamplesAsListed : Prop :=
  assemble (.start 6 .receive (some 0)) = .ok 0x0031 ∧ assemble (.start 16 .transmit (some 10)) = .ok 0x0A85 ∧
  assemble (.start 0 .transmit (some 0)) = .ok 0x0005 ∧ assemble (.chch 0) = .ok 0x0002 ∧
  assemble (.chch 12) = .ok 0x0062 ∧ assemble .ka = .ok 0x0003 ∧
  assemble (.start 17 .receive (some 0)) = .ok 0x0089 ∧ assemble (.start 3 .transmit (some 11)) = .ok 0x0B1D ∧
  assemble (.word 0x0000) = .ok 0x0000 ∧ assemble (.word 0x1003) = .ok 0x1003 ∧ assemble (.word 0x0FFF) = .ok 0x0FFF ∧
  ∀ s : State, s.busy = false → s.port.busOk = true →
    exec (decodeWord 0x0089) s = .next { s with err := .invalidChannel } ∧
    exec (decodeWord 0x0B1D) s = .next { s with err := .invalidPower } ∧
    exec (decodeWord 0x0000) s = .next { s with err := .badCommand } ∧
    exec (decodeWord 0x1003) s = .next { s with err := .badCommand } ∧
    (s.started = true →
      exec (decodeWord 0x0FFF) s = .next { s with err := .ok, seq := .ka, stepIdx := 0, busy := true })

/-- The words of the decode table of 95_test_vectors.md section 3.1, read off R80 bit by bit. -/
def Obligations.WordsDecodeToTheirInstructions : Prop :=
  decodeWord 0b0000_1010_10000_1_01 = .start 16 .transmit 10 ∧
  decodeWord 0b0000_1111_00101_0_01 = .start 5 .receive 15 ∧
  decodeWord 0b0000_0011_00010_1_01 = .start 2 .transmit 3 ∧
  decodeWord 0b0000_0000_01001_0_10 = .chch 9 0 0 ∧
  decodeWord 0b0000_1111_10000_1_10 = .chch 16 1 15 ∧
  decodeWord 0b0000_0000_00000_0_11 = .ka 0 ∧
  decodeWord 0b0000_1111_11111_1_11 = .ka 0b1111111111 ∧
  decodeWord 0b0000_1111_11111_1_00 = .illegalOp00 0b00001111111111 ∧
  decodeWord 0b0001_0000_00000_0_11 = .illegalRsv12 0 3 ∧
  decodeWord 0b0010_0000_00000_0_01 = .illegalRsv13 0 1 ∧
  decodeWord 0b0100_0000_00000_0_10 = .illegalRsv14 0 2 ∧
  decodeWord 0b1000_0000_00000_0_01 = .illegalRsv15 1

/-- Decoding an encoded well-formed instruction gives it back, with every operand at every value (R80 to R85). -/
def Obligations.DecodeOfEncodeIsTheInstruction : Prop := ∀ i : Instr, i.wf = true → decodeWord (encode i) = i

/-- Every word decodes to a well-formed instruction that encodes to it: no bit is dropped (R80 to R85). -/
def Obligations.EncodeOfDecodeIsTheWord : Prop := ∀ w : CmdWord, (decodeWord w).wf = true ∧ encode (decodeWord w) = w

/-- The opcode map: every word matches exactly one legal row and no illegal row, or no legal row and at least one illegal row,
and the decoder reads it accordingly. -/
def Obligations.EveryWordIsLegalOrIllegalNeverBoth : Prop :=
  ∀ w : CmdWord,
    let legal := [decide (w &&& 0xF003 = 0x0001), decide (w &&& 0xF003 = 0x0002), decide (w &&& 0xF003 = 0x0003)]
    let illegal := [decide (w &&& 0x0003 = 0x0000), decide (w &&& 0x1000 = 0x1000), decide (w &&& 0x2000 = 0x2000),
      decide (w &&& 0x4000 = 0x4000), decide (w &&& 0x8000 = 0x8000)]
    (legal.count true = 1 ∧ illegal.count true = 0 ∧ (decodeWord w).illegal = false) ∨
    (legal.count true = 0 ∧ 1 ≤ illegal.count true ∧ (decodeWord w).illegal = true)

/-- R81 and the field layout of R80: the OP field selects the command and the operands are the CH, D and PW fields. -/
def Obligations.OpFieldSelectsTheCommand : Prop :=
  ∀ w : CmdWord, rsvField w = 0 →
    (opField w = 0b01 → decodeWord w = .start (chField w) (.ofBit (dField w)) (pwField w)) ∧
    (opField w = 0b10 → decodeWord w = .chch (chField w) (dField w) (pwField w)) ∧
    (opField w = 0b11 → ∃ x, decodeWord w = .ka x) ∧
    (opField w = 0b00 → (decodeWord w).illegal = true)

/-- Any word's disassembly assembles to a word the hardware takes in the same way (R89: ignored fields are not shown). -/
def Obligations.DisassemblyAssemblesToTheSameCommand : Prop :=
  ∀ w : CmdWord, ∃ w', assemble (disassemble w) = .ok w' ∧ ∀ s, exec (decodeWord w') s = exec (decodeWord w) s

/-- R89: the assembler refuses a channel above 31 or a power above 15 and accepts the rest, in range or not; R90: the power may
be omitted for RX. -/
def Obligations.AssemblerRefusesWhatDoesNotFit : Prop :=
  (∀ ch d pw, (∃ w, assemble (.start ch d (some pw)) = .ok w) ↔ ch ≤ 31 ∧ pw ≤ 15) ∧
  (∀ ch, (∃ w, assemble (.chch ch) = .ok w) ↔ ch ≤ 31) ∧
  (∀ ch, assemble (.start ch .receive none) = assemble (.start ch .receive (some 0)))

/-! ## Presentation -/

/-- An accepted START commits its operands (R114): the next state, with everything else unchanged. -/
def Obligations.AcceptedStartCommitsItsOperands : Prop :=
  ∀ (ch : BitVec 5) (d : Direction) (pw : BitVec 4) (s : State),
    s.busy = false → s.port.busOk = true → ch.toNat ≤ 16 → (d = .transmit → pw.toNat ≤ 10) →
    exec (.start ch d pw) s = .next
      { s with dir := d, chan := ch, pwr := pw, started := true, err := .ok, seq := .start, stepIdx := 0, busy := true }

/-- An accepted CHCH commits its channel only (R120), whatever its ignored fields. -/
def Obligations.AcceptedChchCommitsItsChannel : Prop :=
  ∀ (ch : BitVec 5) (d : BitVec 1) (pw : BitVec 4) (s : State),
    s.busy = false → s.port.busOk = true → s.started = true → ch.toNat ≤ 16 →
    exec (.chch ch d pw) s = .next { s with chan := ch, err := .ok, seq := .chch, stepIdx := 0, busy := true }

/-- An accepted KA commits no handle register (R125), whatever its ignored fields. -/
def Obligations.AcceptedKaCommitsNoHandleRegister : Prop :=
  ∀ (x : BitVec 10) (s : State), s.busy = false → s.port.busOk = true → s.started = true →
    exec (.ka x) s = .next { s with err := .ok, seq := .ka, stepIdx := 0, busy := true }

/-- Each illegal row raises BAD_COMMAND and changes nothing else, whatever BUS_OK and STARTED are (R129, R175). -/
def Obligations.IllegalRowsRaiseBadCommand : Prop :=
  ∀ s : State, s.busy = false →
    (∀ hi, exec (.illegalOp00 hi) s = .next { s with err := .badCommand }) ∧
    (∀ hi lo, exec (.illegalRsv12 hi lo) s = .next { s with err := .badCommand }) ∧
    (∀ hi lo, exec (.illegalRsv13 hi lo) s = .next { s with err := .badCommand }) ∧
    (∀ hi lo, exec (.illegalRsv14 hi lo) s = .next { s with err := .badCommand }) ∧
    (∀ lo, exec (.illegalRsv15 lo) s = .next { s with err := .badCommand })

/-- R129, over words: OP = 0b00 or RSV != 0 raises BAD_COMMAND (code 5), with no other effect, before every other error; and
its example from reset. -/
def Obligations.IllegalWordsRaiseBadCommand : Prop :=
  (∀ (w : CmdWord) (s : State), s.busy = false → opField w = 0b00 ∨ rsvField w ≠ 0 →
    exec (decodeWord w) s = .next { s with err := .badCommand }) ∧
  errBits .badCommand = 5 ∧
  (∀ s : State, s.busy = false → s.port.busOk = false →
    exec (decodeWord 0x1001) s = .next { s with err := .badCommand }) ∧
  ∃ t, exec (decodeWord 0x0000) State.reset = .next t ∧ t.status = 0x0014

/-- A rejected START reports its first error in the order of R176 and changes nothing but ERR (R116). -/
def Obligations.StartRejections : Prop :=
  ∀ (ch : BitVec 5) (d : Direction) (pw : BitVec 4) (s : State), s.busy = false →
    (s.port.busOk = false → exec (.start ch d pw) s = .next { s with err := .busUnavailable }) ∧
    (s.port.busOk = true → 16 < ch.toNat → exec (.start ch d pw) s = .next { s with err := .invalidChannel }) ∧
    (s.port.busOk = true → ch.toNat ≤ 16 → d = .transmit → 10 < pw.toNat →
      exec (.start ch d pw) s = .next { s with err := .invalidPower })

/-- A rejected CHCH reports its first error in the order of R176 and changes nothing but ERR (R121). -/
def Obligations.ChchRejections : Prop :=
  ∀ (ch : BitVec 5) (d : BitVec 1) (pw : BitVec 4) (s : State), s.busy = false →
    (s.port.busOk = false → exec (.chch ch d pw) s = .next { s with err := .busUnavailable }) ∧
    (s.port.busOk = true → s.started = false → exec (.chch ch d pw) s = .next { s with err := .notStarted }) ∧
    (s.port.busOk = true → s.started = true → 16 < ch.toNat →
      exec (.chch ch d pw) s = .next { s with err := .invalidChannel })

/-- A rejected KA reports its first error in the order of R176 and changes nothing but ERR (R126). -/
def Obligations.KaRejections : Prop :=
  ∀ (x : BitVec 10) (s : State), s.busy = false →
    (s.port.busOk = false → exec (.ka x) s = .next { s with err := .busUnavailable }) ∧
    (s.port.busOk = true → s.started = false → exec (.ka x) s = .next { s with err := .notStarted })

/-- R176: of the causes that apply to a presented word (read off its fields, R171 to R175) exactly the first in the order is
reported, with no other effect; where none applies the command is accepted with ERR = OK. -/
def Obligations.FirstCauseInPriorityOrderIsReported : Prop :=
  ∀ (w : CmdWord) (s : State), s.busy = false →
    match firstCause w s with
    | some code => exec (decodeWord w) s = .next { s with err := code }
    | none => ∃ t, exec (decodeWord w) s = .next t ∧ t.err = .ok ∧ t.busy = true

/-- What a presentation leaves unchanged: the pins, the bit-level internals and the inputs for every instruction; HIST for
every instruction; DIR, PWR and STARTED but for START; CHAN but for START and CHCH; SEQ, STEP and BUSY for illegal words. -/
def Obligations.PresentationFrame : Prop :=
  ∀ (i : Instr) (s t : State), exec i s = .next t →
    t = { s with toArch := t.toArch } ∧ t.hist = s.hist ∧
    ((∀ ch d pw, i ≠ .start ch d pw) → t.dir = s.dir ∧ t.pwr = s.pwr ∧ t.started = s.started) ∧
    ((∀ ch d pw, i ≠ .start ch d pw) → (∀ ch d pw, i ≠ .chch ch d pw) → t.chan = s.chan) ∧
    (i.illegal = true → t.seq = s.seq ∧ t.stepIdx = s.stepIdx ∧ t.busy = s.busy)

/-- R111: while BUSY = 1 no command is presented: executing any instruction changes nothing (the model's choice, log 14), the
handle, STARTED and ERR stay, and a word is held at the port. That the port keeps its levels where the host has planned no
others is the model's choice of inputs (log 1). -/
def Obligations.BusyMachineHoldsTheWord : Prop :=
  (∀ (i : Instr) (s : State), s.busy = true → exec i s = .next s) ∧
  ∀ s t : State, s.busy = true → s.port.rst = false → step s = .next t →
    t.dir = s.dir ∧ t.chan = s.chan ∧ t.pwr = s.pwr ∧ t.started = s.started ∧ t.err = s.err ∧
    (s.upcoming = [] → t.port.cmdValid = s.port.cmdValid ∧ t.port.cmdWord = s.port.cmdWord)

/-- R177: a cycle in which a word is rejected writes ERR and nothing else; the pins do not move, and the next word can be
presented in the next cycle. The inputs of the next cycle come to the pins (log 1). -/
def Obligations.RejectionWritesErrOnly : Prop :=
  ∀ (s : State) (code : ErrCode), presented s = true → firstCause s.port.cmdWord s = some code →
    ∃ t, step s = .next t ∧ t = { s with err := code, port := t.port, upcoming := t.upcoming } ∧ t.cmdReady = true

/-! ## Status and the host port -/

/-- R36: the fields of STATUS, its reserved bit, that reading it has no side effect, that writing it through the wrapper is
ignored, that an acceptance puts the committed values in the handle fields, and that these stay there while the command runs. -/
def Obligations.StatusWordFields : Prop :=
  (∀ a : Arch,
    a.status.extractLsb' 0 1 = BitVec.ofBool a.busy ∧ a.status.extractLsb' 1 1 = BitVec.ofBool a.started ∧
    a.status.extractLsb' 2 3 = errBits a.err ∧ a.status.extractLsb' 5 1 = a.dir.bit ∧
    a.status.extractLsb' 6 5 = a.chan ∧ a.status.extractLsb' 11 4 = a.pwr ∧ a.status.extractLsb' 15 1 = 0) ∧
  (∀ s : State, readStatus s = (s.status, s)) ∧ (∀ w (s : State), wrapperWrite 1 w s = s) ∧
  (∀ ch d pw (s t : State), s.busy = false → exec (.start ch d pw) s = .next t → t.busy = true →
    t.status.extractLsb' 5 1 = d.bit ∧ t.status.extractLsb' 6 5 = ch ∧ t.status.extractLsb' 11 4 = pw) ∧
  (∀ ch d pw (s t : State), s.busy = false → exec (.chch ch d pw) s = .next t → t.busy = true →
    t.status.extractLsb' 6 5 = ch) ∧
  ∀ (s t : State), s.busy = true → s.port.rst = false → step s = .next t →
    t.status.extractLsb' 5 10 = s.status.extractLsb' 5 10

/-- R56: the register-mapped wrapper: CMD at word offset 0, STATUS at word offset 1, the others reserved. That a write of offset
0 puts the word on the command port with CMD_VALID = 1 in every state, BUSY = 1 among them, is the model's (log 19), and so is
that it replaces a word that still waits there (log 26). -/
def Obligations.WrapperAddressMap : Prop :=
  ∀ s : State,
    (∀ w, wrapperWrite 0 w s = { s with port := { s.port with cmdValid := true, cmdWord := w } }) ∧
    wrapperRead 0 s = (0, s) ∧ wrapperRead 1 s = (s.status, s) ∧ (∀ w, wrapperWrite 1 w s = s) ∧
    ∀ n, 2 ≤ n → wrapperRead n s = (0, s) ∧ ∀ w, wrapperWrite n w s = s

/-- R16 and R51: a table read answers the byte at an index below the table's length, and has no answer beyond it. -/
def Obligations.TableReadsInsideTheTables : Prop :=
  (∀ i, (h : i < 48) → memRead Config.hardware .blob i = .ok Config.hardware.blob[i]) ∧
  (∀ i, (h : i < 17) → memRead Config.hardware .chTable i = .ok Config.hardware.chTable[i]) ∧
  (∀ i, (h : i < 11) → memRead Config.hardware .pwrTable i = .ok Config.hardware.pwrTable[i]) ∧
  (∀ i, 48 ≤ i → memRead Config.hardware .blob i = .error .tableIndexOutOfRange) ∧
  (∀ i, 17 ≤ i → memRead Config.hardware .chTable i = .error .tableIndexOutOfRange) ∧
  (∀ i, 11 ≤ i → memRead Config.hardware .pwrTable i = .error .tableIndexOutOfRange)

/-! ## Steps -/

/-- A step runs the presented instruction: the word at the command port is decoded and executed, an accepted command draws MOSI
anew (R153, the model's choice, log 18), and the inputs of the next cycle come to the pins (log 1). -/
def Obligations.StepRunsThePresentedInstruction : Prop :=
  ∀ (w : CmdWord) (s t : State), takes w s → exec (decodeWord w) s = .next t →
    step s = .next (passInputs s (if t.busy then floatMosi Config.hardware t else t))

/-- R185 and R204: a ready machine to which nothing is presented holds its state: only MOSI, which is unspecified, is drawn
anew. -/
def Obligations.IdleCycleHoldsTheState : Prop :=
  ∀ s : State, s.port.rst = false → s.busy = false → s.port.cmdValid = false →
    ∃ t, step s = .next t ∧
      t = { s with mosi := t.mosi, draws := t.draws, port := t.port, upcoming := t.upcoming }

/-- R39 and R200: power-on and RST give every element its reset value in one step, whatever the state before; SHIFT and MOSI
have any value; RST keeps HIST and appends Reset, after at most one other event. That every cycle with RST = 1 appends its own
Reset, where the spec has one per assertion, is the model's choice (log 25). -/
def Obligations.ResetGivesTheResetValues : Prop :=
  let atReset : State → Prop := fun t =>
    t.started = false ∧ t.busy = false ∧ t.seq = .none ∧ t.stepIdx = 0 ∧ t.dir = .receive ∧ t.chan = 0 ∧ t.pwr = 0 ∧
    t.err = .ok ∧ t.byteIdx = 0 ∧ t.bitIdx = 0 ∧ t.settleCnt = 0 ∧ t.tcnt = 0 ∧ t.csN = true ∧
    t.sclk = Config.hardware.cpol ∧ t.status = 0x0000
  atReset State.reset ∧ State.reset.hist = [] ∧
  ∀ s : State, s.port.rst = true → ∃ t, step s = .next t ∧ atReset t ∧
    ∃ cut : List Event, t.hist = s.hist ++ cut ++ [.reset] ∧ (cut = [] ∨ ∃ l k, cut = [.truncated l k])

/-- R202: a reset with CS_N = 1 truncates no frame, and the rest of the sequence is not run. That every cycle with RST = 1
appends its own Reset is the model's choice (log 25). -/
def Obligations.ResetOutsideAFrameTruncatesNothing : Prop :=
  ∀ s : State, s.port.rst = true → s.csN = true →
    ∃ t, step s = .next t ∧ t.hist = s.hist ++ [.reset] ∧ t.busy = false ∧ t.seq = .none

/-- R201: a reset with CS_N = 0 cuts the running frame short: HIST gains Truncated(l, k) with l a prefix of the frame's bytes
and k = 0 if l is all of them. The bits recorded are those of the bytes before BYTE_IDX (which in a gap names the next byte, log
27) and, while a byte is shifted, those of it above BIT_IDX, with the bit in progress or without it (the model's choice, log
11); it can count only where it is on MOSI, with CPHA = 1 from its leading edge on. In the hold time l is the whole frame. -/
def Obligations.ResetInsideAFrameTruncatesIt : Prop :=
  ∀ s : State, Inv Config.hardware s → s.port.rst = true → s.csN = false →
    ∃ t op frame l k, step s = .next t ∧ t.csN = true ∧ microOpAt s.toArch = some op ∧
      frameBytes Config.hardware s.toArch op = .ok frame ∧ t.hist = s.hist ++ [.truncated l k, .reset] ∧
      l <+: frame ∧ (l = frame → k = 0) ∧
      (s.phase = .select ∨ s.phase = .gap → 8 * l.length + k.val = 8 * s.byteIdx.toNat) ∧
      (s.phase = .lead ∨ s.phase = .trail →
        8 * l.length + k.val = 8 * s.byteIdx.toNat + (7 - s.bitIdx.toNat) ∨
        (8 * l.length + k.val = 8 * s.byteIdx.toNat + (8 - s.bitIdx.toNat) ∧
          (s.phase = .trail ∨ Config.hardware.cpha = false))) ∧
      (s.phase = .hold → l = frame)

/-! ## Invariants -/

/-- The invariant holds after power-on, whatever the inputs. Conjuncts of it that are the model's own are named at
`Safety.Inv` (logs 5, 10, 17, 24, 27). -/
def Obligations.ResetMeetsTheInvariant : Prop :=
  ∀ p ps, Inv Config.hardware { State.reset with port := p, upcoming := ps }

/-- Every step keeps the invariant (R25, R27, R28, R31, R33, R150, R151, R154, R179). The model's own in it: SETTLE_CNT below
SETTLE_CYCLES (log 10), BYTE_IDX = BIT_IDX = 0 outside a frame (log 24), their values in T_CSS, in a gap and in the hold time
(log 27), and the fields and counts of the stage of a frame (logs 5 and 17). -/
def Obligations.StepKeepsTheInvariant : Prop :=
  ∀ s t : State, Inv Config.hardware s → step s = .next t → Inv Config.hardware t

/-- From a state that meets the invariant the machine never stops: every word, every input and every micro-step has its
effect, and no table is read out of range (R51, R84, R179). -/
def Obligations.InvariantStatesNeverStop : Prop :=
  ∀ s : State, Inv Config.hardware s → ∃ t, step s = .next t

/-- R25, in every state a run from power-on reaches: the channel index is valid once started, the power index is valid where
it is read, BUSY says whether a sequence runs, and no error code stands while one does (R179). -/
def Obligations.HandleIsValidInReachableStates : Prop :=
  ∀ s : State, Reachable s →
    (s.started = true → s.chan.toNat ≤ 16) ∧ (s.started = true → s.dir = .transmit → s.pwr.toNat ≤ 10) ∧
    (s.busy = true ↔ s.seq ≠ .none) ∧ (s.busy = true → s.started = true ∧ s.err = .ok)

/-- R27: in every state that meets the invariant STEP does not exceed the index of its sequence's END, so it never wraps. -/
def Obligations.StepPointerStaysInItsSequence : Prop :=
  ∀ s : State, Inv Config.hardware s →
    (s.seq = .none → s.stepIdx = 0) ∧ (s.seq = .start → s.stepIdx.toNat ≤ 6) ∧ (s.seq = .chch → s.stepIdx.toNat ≤ 4) ∧
    (s.seq = .ka → s.stepIdx.toNat ≤ 1)

/-- R33: HIST is only ever appended to: a step adds at most one event, which is no reset and no cut frame; a step with RST adds
a reset, after the frame it cuts if the device was selected. That every cycle with RST = 1 adds one, where the spec has one per
assertion, is the model's choice (log 25). -/
def Obligations.HistoryIsOnlyAppendedTo : Prop :=
  ∀ s t : State, step s = .next t →
    (s.port.rst = false → t.hist = s.hist ∨ t.hist = s.hist ++ [.settle] ∨ ∃ l, t.hist = s.hist ++ [.frame l]) ∧
    (s.port.rst = true → s.csN = true → t.hist = s.hist ++ [.reset]) ∧
    (s.port.rst = true → s.csN = false → ∃ l k, t.hist = s.hist ++ [.truncated l k, .reset])

/-- R31: in every state that meets the invariant CS_N = 0 only inside a frame of the running sequence, and
SCLK is away from its idle level only then (R153). -/
def Obligations.DeviceIsSelectedOnlyInsideAFrame : Prop :=
  ∀ s : State, Inv Config.hardware s →
    (s.csN = false → s.busy = true ∧ ∃ op l, microOpAt s.toArch = some op ∧
      frameBytes Config.hardware s.toArch op = .ok l ∧ l ≠ []) ∧
    (s.csN = true → s.sclk = Config.hardware.cpol) ∧ (s.busy = false → s.csN = true)

/-! ## Whole-machine rules -/

/-- R22, R23, R24 and R26: without a reset, DIR, PWR and STARTED change only with a START, and CHAN only with a START or a
CHCH, and each then takes its operand's value; STARTED is never cleared. -/
def Obligations.HandleChangesOnlyByStartAndChch : Prop :=
  ∀ s t : State, s.port.rst = false → step s = .next t →
    (t.dir ≠ s.dir ∨ t.pwr ≠ s.pwr ∨ t.started ≠ s.started →
      presented s = true ∧ ∃ ch d pw, decodeWord s.port.cmdWord = .start ch d pw ∧ t.dir = d ∧ t.chan = ch ∧ t.pwr = pw ∧
        t.started = true) ∧
    (t.chan ≠ s.chan →
      presented s = true ∧ ∃ ch, t.chan = ch ∧
        ((∃ d pw, decodeWord s.port.cmdWord = .start ch d pw) ∨ ∃ d pw, decodeWord s.port.cmdWord = .chch ch d pw)) ∧
    (s.started = true → t.started = true)

/-- R29 and R178: without a reset, ERR is written at every presentation, with that presentation's result, and at no other
time. -/
def Obligations.ErrIsWrittenAtPresentationsOnly : Prop :=
  ∀ s t : State, s.port.rst = false → step s = .next t →
    (presented s = true → t.err = (firstCause s.port.cmdWord s).getD .ok) ∧ (presented s = false → t.err = s.err)

/-- R28: without a reset, BUSY rises only with an acceptance and falls only with END. -/
def Obligations.BusyRisesAtAcceptanceAndFallsAtEnd : Prop :=
  ∀ s t : State, s.port.rst = false → step s = .next t →
    (s.busy = false → t.busy = true → presented s = true ∧ firstCause s.port.cmdWord s = none ∧ t.stepIdx = 0) ∧
    (s.busy = true → t.busy = false → microOpAt s.toArch = some .finish ∧ t.seq = .none ∧ t.stepIdx = 0 ∧ t.hist = s.hist)

/-- R141, R171 and R179: while a sequence runs, no input but RST has an effect: BUS_OK, MISO and the command port are
ignored. -/
def Obligations.RunningSequenceIgnoresTheInputs : Prop :=
  ∀ (s t : State) (p : Inputs), s.busy = true → p.rst = s.port.rst → step s = .next t →
    ∃ t', step { s with port := p } = .next t' ∧ { t' with port := t.port } = t

/-- R131 and R153: MISO is never sampled: in no state does the step depend on it. -/
def Obligations.MisoIsNeverSampled : Prop :=
  ∀ (s t : State) (b : Bool), step s = .next t →
    ∃ t', step { s with port := { s.port with miso := b } } = .next t' ∧ { t' with port := t.port } = t

/-! ## Micro-steps and frames -/

/-- R86, R87 and R142 to R148: the sequences, and what each micro-operation does at the transaction level, where the handle's
indices are in range. -/
def Obligations.MicroStepsDoWhatTheRulesSay : Prop :=
  (seqRom .start = [.settle, .fStop, .fBlob, .fPower, .fChannel, .fMode, .finish] ∧
    seqRom .chch = [.fStop, .fPower, .fChannel, .fMode, .finish] ∧ seqRom .ka = [.fMode, .finish] ∧ seqRom .none = []) ∧
  ∀ (a : Arch) (op : MicroOp), a.chan.toNat ≤ 16 → (a.dir = .transmit → a.pwr.toNat ≤ 10) → microOpAt a = some op →
    microStep Config.hardware a = .ok
      (match op with
      | .settle => { a with hist := a.hist ++ [.settle], stepIdx := a.stepIdx + 1 }
      | .fStop => { a with hist := a.hist ++ [.frame [Config.stopCode]], stepIdx := a.stepIdx + 1 }
      | .fBlob => { a with hist := a.hist ++ [.frame Config.blob.toList], stepIdx := a.stepIdx + 1 }
      | .fPower =>
        { a with
          hist := a.hist ++ [.frame [Config.powerReg,
            sel a.dir (Config.pwrTable.toList.getD a.pwr.toNat 0) Config.rxPower]]
          stepIdx := a.stepIdx + 1 }
      | .fChannel =>
        { a with
          hist := a.hist ++ [.frame [Config.channelReg, Config.chTable.toList.getD a.chan.toNat 0]]
          stepIdx := a.stepIdx + 1 }
      | .fMode => { a with hist := a.hist ++ [.frame [sel a.dir Config.txCode Config.rxCode]], stepIdx := a.stepIdx + 1 }
      | .finish => { a with seq := .none, stepIdx := 0, busy := false })

/-- R13, R140 and R141: the bit level refines the transaction level: from where a micro-step starts, with no reset to come, some
cycles later the machine is where the next one starts, and the transaction level has made exactly the step of the
micro-operation. -/
def Obligations.CyclesRefineMicroSteps : Prop :=
  ∀ s : State, Inv Config.hardware s → s.busy = true → quiet s = true → s.phase = .boundary → s.settleCnt = 0 →
    ∃ n t, 0 < n ∧ Reaches n s t ∧ microStep Config.hardware s.toArch = .ok t.toArch ∧ t.phase = .boundary ∧
      t.settleCnt = 0 ∧ t.csN = true ∧ quiet t = true

/-- R54, R55, R150 and R151: a device that samples MOSI at the clock edges of the SPI mode receives the frame's bytes in order,
each most significant bit first; and the frame takes the cycles of R156 where there is no gap between bytes (log 8). -/
def Obligations.WireCarriesTheFrame : Prop :=
  ∀ (s : State) (op : MicroOp) (l : List Byte), Inv Config.hardware s → s.busy = true → quiet s = true →
    s.phase = .boundary → microOpAt s.toArch = some op → frameBytes Config.hardware s.toArch op = .ok l →
    ∃ n t, Reaches n s t ∧ sampledBits Config.hardware n s = wireBits l ∧
      t.toArch = { s.toArch with hist := s.hist ++ [.frame l], stepIdx := s.stepIdx + 1 } ∧ t.phase = .boundary ∧
      ((∀ k, Config.freeGap k = 0) → n = Config.hardware.tCss + 8 * l.length * Config.hardware.pSclk +
        Config.hardware.tCsh + Config.hardware.tCsd)

/-- R142 and R156: SETTLE takes SETTLE_CYCLES cycles, with CS_N = 1 and SCLK idle throughout, and appends its event at the
end. The values of SETTLE_CNT in these cycles, and that there is no further one, are the model's reading (log 10). -/
def Obligations.SettleHoldsTheBusIdle : Prop :=
  ∀ s : State, Inv Config.hardware s → s.busy = true → quiet s = true → microOpAt s.toArch = some .settle →
    s.settleCnt = 0 →
    (∀ m, m < Config.hardware.settleCycles → ∃ t, Reaches m s t ∧ t.toArch = s.toArch ∧ t.csN = true ∧
      t.sclk = Config.hardware.cpol ∧ t.settleCnt = m) ∧
    ∃ t, Reaches Config.hardware.settleCycles s t ∧ t.csN = true ∧ t.settleCnt = 0 ∧
      t.toArch = { s.toArch with hist := s.hist ++ [.settle], stepIdx := s.stepIdx + 1 }

/-- R211: CS_N stays 1 for T_CSD cycles after it rises, stays 0 with SCLK idle for T_CSS cycles after it falls, and stays 0 for
T_CSH cycles after every trailing edge of SCLK. -/
def Obligations.ChipSelectSpacing : Prop :=
  ∀ s t : State, Inv Config.hardware s → quiet s = true → step s = .next t →
    (s.csN = false → t.csN = true → ∀ m, m < Config.hardware.tCsd → ∃ u, Reaches m t u ∧ u.csN = true) ∧
    (s.csN = true → t.csN = false → ∀ m, m < Config.hardware.tCss →
      ∃ u, Reaches m t u ∧ u.csN = false ∧ u.sclk = Config.hardware.cpol) ∧
    (s.csN = false → s.sclk ≠ Config.hardware.cpol → t.sclk = Config.hardware.cpol → ∀ m, m < Config.hardware.tCsh →
      ∃ u, Reaches m t u ∧ u.csN = false)

/-! ## Commands -/

/-- R114: START, over words: its errors in order and their effect, what its acceptance writes, and the events of its
sequence. -/
def Obligations.StartRunsAsItsRuleSays : Prop :=
  ∀ (w : CmdWord) (s : State), Inv Config.hardware s → quiet s = true → takes w s → opField w = 0b01 →
    let c := chField w
    let d := Direction.ofBit (dField w)
    let p := pwField w
    if rsvField w ≠ 0 then Rejects s .badCommand
    else if s.port.busOk = false then Rejects s .busUnavailable
    else if 16 < c.toNat then Rejects s .invalidChannel
    else if d = .transmit ∧ 10 < p.toNat then Rejects s .invalidPower
    else RunsCommand s
      { s.toArch with
        dir := d, chan := c, pwr := p, started := true, err := .ok, seq := .start, stepIdx := 0, busy := true }
      [.settle, .frame [Config.stopCode], .frame Config.blob.toList,
       .frame [Config.powerReg, sel d (Config.pwrTable.toList.getD p.toNat 0) Config.rxPower],
       .frame [Config.channelReg, Config.chTable.toList.getD c.toNat 0],
       .frame [sel d Config.txCode Config.rxCode]]

/-- R120: CHCH, over words: its errors in order and their effect, what its acceptance writes, and the events of its sequence,
with the stored direction and power and without the blob. -/
def Obligations.ChchRunsAsItsRuleSays : Prop :=
  ∀ (w : CmdWord) (s : State), Inv Config.hardware s → quiet s = true → takes w s → opField w = 0b10 →
    let c := chField w
    if rsvField w ≠ 0 then Rejects s .badCommand
    else if s.port.busOk = false then Rejects s .busUnavailable
    else if s.started = false then Rejects s .notStarted
    else if 16 < c.toNat then Rejects s .invalidChannel
    else RunsCommand s { s.toArch with chan := c, err := .ok, seq := .chch, stepIdx := 0, busy := true }
      [.frame [Config.stopCode],
       .frame [Config.powerReg, sel s.dir (Config.pwrTable.toList.getD s.pwr.toNat 0) Config.rxPower],
       .frame [Config.channelReg, Config.chTable.toList.getD c.toNat 0],
       .frame [sel s.dir Config.txCode Config.rxCode]]

/-- R125: KA, over words: its errors in order and their effect, what its acceptance writes, and the one mode frame of the stored
direction. -/
def Obligations.KaRunsAsItsRuleSays : Prop :=
  ∀ (w : CmdWord) (s : State), Inv Config.hardware s → quiet s = true → takes w s → opField w = 0b11 →
    if rsvField w ≠ 0 then Rejects s .badCommand
    else if s.port.busOk = false then Rejects s .busUnavailable
    else if s.started = false then Rejects s .notStarted
    else RunsCommand s { s.toArch with err := .ok, seq := .ka, stepIdx := 0, busy := true }
      [.frame [sel s.dir Config.txCode Config.rxCode]]

/-- R60 and R127 (a): two KAs with no START or CHCH between them emit byte-identical frames: the second runs from the state
the first leaves, with any inputs that present a KA. -/
def Obligations.RepeatedKaFramesAreIdentical : Prop :=
  ∀ (x y : BitVec 10) (s : State) (p : Inputs) (ps : List Inputs), Inv Config.hardware s → quiet s = true →
    takes (encode (.ka x)) s → s.port.busOk = true → s.started = true →
    ∃ f : List Byte, ∃ n t, Reaches n s t ∧ t.busy = false ∧ t.hist = s.hist ++ [.frame f] ∧
      (let t' := { t with port := p, upcoming := ps }
       quiet t' = true → takes (encode (.ka y)) t' → p.busOk = true →
        ∃ m u, Reaches m t' u ∧ u.busy = false ∧ u.hist = s.hist ++ [.frame f, .frame f])

/-- R111 and R156: nothing can block the sequencer: from every state of a running sequence, with no reset to come, BUSY falls,
with ERR still OK and every event appended in order after what was there. -/
def Obligations.EverySequenceReachesItsEnd : Prop :=
  ∀ s : State, Inv Config.hardware s → s.busy = true → quiet s = true →
    ∃ n t es, Reaches n s t ∧ t.busy = false ∧ t.seq = .none ∧ t.err = .ok ∧ t.csN = true ∧ t.hist = s.hist ++ es ∧
      (∀ e ∈ es, e ≠ .reset ∧ ∀ l k, e ≠ .truncated l k)

/-! ## The host's duty -/

/-- R206: from the acceptance of a KA, or the END of a START or CHCH, to the next acceptance at most the period passes. In a
list of events: also where the END of the KA stands between. In every run, with any schedule of inputs and any clock: the duty
holds of the events of its first `n` cycles exactly if every such interval of the run is short enough. The list and its times
are the model's (log 23); an interval that no acceptance ends is not judged, and a reset does not end one (log 28). -/
def Obligations.KeepaliveDutyBoundsTheInterval : Prop :=
  (∀ (period t x u : Nat) (q : SeqId) (rest : List (Nat × LinkEvent)) (last : Option Nat), q ≠ .none →
    (∀ e : LinkEvent, e = .accepted .ka ∨ e = .ended .start ∨ e = .ended .chch →
      keepsAlive period last ((t, e) :: (u, .accepted q) :: rest) = true → u ≤ t + period) ∧
    (keepsAlive period last ((t, .accepted .ka) :: (x, .ended .ka) :: (u, .accepted q) :: rest) = true → u ≤ t + period)) ∧
  ∀ (period : Nat) (clock : Nat → Nat) (n : Nat) (s : State),
    keepsAlive period none (linkTrace clock n s) = true ↔
      ∀ (i j : Nat) (e : LinkEvent) (q : SeqId), i < j → j < n →
        eventAt s i = some e → e = .accepted .ka ∨ e = .ended .start ∨ e = .ended .chch →
        eventAt s j = some (.accepted q) → (∀ k, i < k → k < j → ∀ q', eventAt s k ≠ some (.accepted q')) →
        clock j ≤ clock i + period

/-- R110, R148 and R206: the events the duty counts are the machine's: a cycle is an acceptance exactly if it takes a word that
no cause rejects, and its sequence is the one the word's OP field selects; a cycle is an END exactly if the running sequence's
micro-operation is END; a cycle of reset is neither (log 28). -/
def Obligations.LinkEventsAreAcceptancesAndEnds : Prop :=
  ∀ s t : State, step s = .next t →
    (s.port.rst = true → linkEvent s t = none) ∧
    (s.port.rst = false → ∀ q : SeqId,
      (linkEvent s t = some (.accepted q) ↔
        presented s = true ∧ firstCause s.port.cmdWord s = none ∧
          (opField s.port.cmdWord = 0b01 ∧ q = .start ∨ opField s.port.cmdWord = 0b10 ∧ q = .chch ∨
            opField s.port.cmdWord = 0b11 ∧ q = .ka)) ∧
      (linkEvent s t = some (.ended q) ↔ s.busy = true ∧ microOpAt s.toArch = some .finish ∧ s.seq = q))
end

