-- ==== Sys2Proof/Laws/State.lean ====
section
/-! SUPPORT. What each named update of the state does to each field. -/

namespace Sys2Proof.Laws

open Sys2Proof.Machine

@[simp] theorem floatMosi_toArch (hw : Hardware) (s : State) : (floatMosi hw s).toArch = s.toArch := rfl
@[simp] theorem floatMosi_byteIdx (hw : Hardware) (s : State) : (floatMosi hw s).byteIdx = s.byteIdx := rfl
@[simp] theorem floatMosi_bitIdx (hw : Hardware) (s : State) : (floatMosi hw s).bitIdx = s.bitIdx := rfl
@[simp] theorem floatMosi_shift (hw : Hardware) (s : State) : (floatMosi hw s).shift = s.shift := rfl
@[simp] theorem floatMosi_settleCnt (hw : Hardware) (s : State) : (floatMosi hw s).settleCnt = s.settleCnt := rfl
@[simp] theorem floatMosi_tcnt (hw : Hardware) (s : State) : (floatMosi hw s).tcnt = s.tcnt := rfl
@[simp] theorem floatMosi_csN (hw : Hardware) (s : State) : (floatMosi hw s).csN = s.csN := rfl
@[simp] theorem floatMosi_sclk (hw : Hardware) (s : State) : (floatMosi hw s).sclk = s.sclk := rfl
@[simp] theorem floatMosi_mosi (hw : Hardware) (s : State) : (floatMosi hw s).mosi = hw.freeMosi s.draws := rfl
@[simp] theorem floatMosi_phase (hw : Hardware) (s : State) : (floatMosi hw s).phase = s.phase := rfl
@[simp] theorem floatMosi_gap (hw : Hardware) (s : State) : (floatMosi hw s).gap = s.gap := rfl
@[simp] theorem floatMosi_port (hw : Hardware) (s : State) : (floatMosi hw s).port = s.port := rfl
@[simp] theorem floatMosi_upcoming (hw : Hardware) (s : State) : (floatMosi hw s).upcoming = s.upcoming := rfl
@[simp] theorem floatMosi_draws (hw : Hardware) (s : State) : (floatMosi hw s).draws = s.draws + 1 := rfl

@[simp] theorem countCycle_toArch (s : State) : (countCycle s).toArch = s.toArch := rfl
@[simp] theorem countCycle_byteIdx (s : State) : (countCycle s).byteIdx = s.byteIdx := rfl
@[simp] theorem countCycle_bitIdx (s : State) : (countCycle s).bitIdx = s.bitIdx := rfl
@[simp] theorem countCycle_shift (s : State) : (countCycle s).shift = s.shift := rfl
@[simp] theorem countCycle_settleCnt (s : State) : (countCycle s).settleCnt = s.settleCnt := rfl
@[simp] theorem countCycle_tcnt (s : State) : (countCycle s).tcnt = s.tcnt + 1 := rfl
@[simp] theorem countCycle_csN (s : State) : (countCycle s).csN = s.csN := rfl
@[simp] theorem countCycle_sclk (s : State) : (countCycle s).sclk = s.sclk := rfl
@[simp] theorem countCycle_mosi (s : State) : (countCycle s).mosi = s.mosi := rfl
@[simp] theorem countCycle_phase (s : State) : (countCycle s).phase = s.phase := rfl
@[simp] theorem countCycle_gap (s : State) : (countCycle s).gap = s.gap := rfl
@[simp] theorem countCycle_port (s : State) : (countCycle s).port = s.port := rfl
@[simp] theorem countCycle_upcoming (s : State) : (countCycle s).upcoming = s.upcoming := rfl
@[simp] theorem countCycle_draws (s : State) : (countCycle s).draws = s.draws := rfl

@[simp] theorem driveBit_toArch (s : State) : (driveBit s).toArch = s.toArch := rfl
@[simp] theorem driveBit_byteIdx (s : State) : (driveBit s).byteIdx = s.byteIdx := rfl
@[simp] theorem driveBit_bitIdx (s : State) : (driveBit s).bitIdx = s.bitIdx := rfl
@[simp] theorem driveBit_shift (s : State) : (driveBit s).shift = s.shift := rfl
@[simp] theorem driveBit_settleCnt (s : State) : (driveBit s).settleCnt = s.settleCnt := rfl
@[simp] theorem driveBit_tcnt (s : State) : (driveBit s).tcnt = s.tcnt := rfl
@[simp] theorem driveBit_csN (s : State) : (driveBit s).csN = s.csN := rfl
@[simp] theorem driveBit_sclk (s : State) : (driveBit s).sclk = s.sclk := rfl
@[simp] theorem driveBit_mosi (s : State) : (driveBit s).mosi = s.shift.getLsbD s.bitIdx.toNat := rfl
@[simp] theorem driveBit_phase (s : State) : (driveBit s).phase = s.phase := rfl
@[simp] theorem driveBit_gap (s : State) : (driveBit s).gap = s.gap := rfl
@[simp] theorem driveBit_port (s : State) : (driveBit s).port = s.port := rfl
@[simp] theorem driveBit_upcoming (s : State) : (driveBit s).upcoming = s.upcoming := rfl
@[simp] theorem driveBit_draws (s : State) : (driveBit s).draws = s.draws := rfl

@[simp] theorem passInputs_toArch (u s : State) : (passInputs u s).toArch = s.toArch := rfl
@[simp] theorem passInputs_byteIdx (u s : State) : (passInputs u s).byteIdx = s.byteIdx := rfl
@[simp] theorem passInputs_bitIdx (u s : State) : (passInputs u s).bitIdx = s.bitIdx := rfl
@[simp] theorem passInputs_shift (u s : State) : (passInputs u s).shift = s.shift := rfl
@[simp] theorem passInputs_settleCnt (u s : State) : (passInputs u s).settleCnt = s.settleCnt := rfl
@[simp] theorem passInputs_tcnt (u s : State) : (passInputs u s).tcnt = s.tcnt := rfl
@[simp] theorem passInputs_csN (u s : State) : (passInputs u s).csN = s.csN := rfl
@[simp] theorem passInputs_sclk (u s : State) : (passInputs u s).sclk = s.sclk := rfl
@[simp] theorem passInputs_mosi (u s : State) : (passInputs u s).mosi = s.mosi := rfl
@[simp] theorem passInputs_phase (u s : State) : (passInputs u s).phase = s.phase := rfl
@[simp] theorem passInputs_gap (u s : State) : (passInputs u s).gap = s.gap := rfl
@[simp] theorem passInputs_port (u s : State) : (passInputs u s).port = nextPort u := rfl
@[simp] theorem passInputs_upcoming (u s : State) : (passInputs u s).upcoming = u.upcoming.tail := rfl
@[simp] theorem passInputs_draws (u s : State) : (passInputs u s).draws = s.draws := rfl

@[simp] theorem presentWord_toArch (w : CmdWord) (s : State) : (presentWord w s).toArch = s.toArch := rfl
@[simp] theorem presentWord_byteIdx (w : CmdWord) (s : State) : (presentWord w s).byteIdx = s.byteIdx := rfl
@[simp] theorem presentWord_bitIdx (w : CmdWord) (s : State) : (presentWord w s).bitIdx = s.bitIdx := rfl
@[simp] theorem presentWord_shift (w : CmdWord) (s : State) : (presentWord w s).shift = s.shift := rfl
@[simp] theorem presentWord_settleCnt (w : CmdWord) (s : State) : (presentWord w s).settleCnt = s.settleCnt := rfl
@[simp] theorem presentWord_tcnt (w : CmdWord) (s : State) : (presentWord w s).tcnt = s.tcnt := rfl
@[simp] theorem presentWord_csN (w : CmdWord) (s : State) : (presentWord w s).csN = s.csN := rfl
@[simp] theorem presentWord_sclk (w : CmdWord) (s : State) : (presentWord w s).sclk = s.sclk := rfl
@[simp] theorem presentWord_mosi (w : CmdWord) (s : State) : (presentWord w s).mosi = s.mosi := rfl
@[simp] theorem presentWord_phase (w : CmdWord) (s : State) : (presentWord w s).phase = s.phase := rfl
@[simp] theorem presentWord_gap (w : CmdWord) (s : State) : (presentWord w s).gap = s.gap := rfl
@[simp] theorem presentWord_port (w : CmdWord) (s : State) : (presentWord w s).port = { s.port with cmdValid := true, cmdWord := w } := rfl
@[simp] theorem presentWord_upcoming (w : CmdWord) (s : State) : (presentWord w s).upcoming = s.upcoming := rfl
@[simp] theorem presentWord_draws (w : CmdWord) (s : State) : (presentWord w s).draws = s.draws := rfl

@[simp] theorem driveBusOk_toArch (b : Bool) (s : State) : (driveBusOk b s).toArch = s.toArch := rfl
@[simp] theorem driveBusOk_byteIdx (b : Bool) (s : State) : (driveBusOk b s).byteIdx = s.byteIdx := rfl
@[simp] theorem driveBusOk_bitIdx (b : Bool) (s : State) : (driveBusOk b s).bitIdx = s.bitIdx := rfl
@[simp] theorem driveBusOk_shift (b : Bool) (s : State) : (driveBusOk b s).shift = s.shift := rfl
@[simp] theorem driveBusOk_settleCnt (b : Bool) (s : State) : (driveBusOk b s).settleCnt = s.settleCnt := rfl
@[simp] theorem driveBusOk_tcnt (b : Bool) (s : State) : (driveBusOk b s).tcnt = s.tcnt := rfl
@[simp] theorem driveBusOk_csN (b : Bool) (s : State) : (driveBusOk b s).csN = s.csN := rfl
@[simp] theorem driveBusOk_sclk (b : Bool) (s : State) : (driveBusOk b s).sclk = s.sclk := rfl
@[simp] theorem driveBusOk_mosi (b : Bool) (s : State) : (driveBusOk b s).mosi = s.mosi := rfl
@[simp] theorem driveBusOk_phase (b : Bool) (s : State) : (driveBusOk b s).phase = s.phase := rfl
@[simp] theorem driveBusOk_gap (b : Bool) (s : State) : (driveBusOk b s).gap = s.gap := rfl
@[simp] theorem driveBusOk_port (b : Bool) (s : State) : (driveBusOk b s).port = { s.port with busOk := b } := rfl
@[simp] theorem driveBusOk_upcoming (b : Bool) (s : State) : (driveBusOk b s).upcoming = s.upcoming := rfl
@[simp] theorem driveBusOk_draws (b : Bool) (s : State) : (driveBusOk b s).draws = s.draws := rfl

@[simp] theorem assertReset_toArch (s : State) : (assertReset s).toArch = s.toArch := rfl
@[simp] theorem assertReset_byteIdx (s : State) : (assertReset s).byteIdx = s.byteIdx := rfl
@[simp] theorem assertReset_bitIdx (s : State) : (assertReset s).bitIdx = s.bitIdx := rfl
@[simp] theorem assertReset_shift (s : State) : (assertReset s).shift = s.shift := rfl
@[simp] theorem assertReset_settleCnt (s : State) : (assertReset s).settleCnt = s.settleCnt := rfl
@[simp] theorem assertReset_tcnt (s : State) : (assertReset s).tcnt = s.tcnt := rfl
@[simp] theorem assertReset_csN (s : State) : (assertReset s).csN = s.csN := rfl
@[simp] theorem assertReset_sclk (s : State) : (assertReset s).sclk = s.sclk := rfl
@[simp] theorem assertReset_mosi (s : State) : (assertReset s).mosi = s.mosi := rfl
@[simp] theorem assertReset_phase (s : State) : (assertReset s).phase = s.phase := rfl
@[simp] theorem assertReset_gap (s : State) : (assertReset s).gap = s.gap := rfl
@[simp] theorem assertReset_port (s : State) : (assertReset s).port = { s.port with rst := true } := rfl
@[simp] theorem assertReset_upcoming (s : State) : (assertReset s).upcoming = s.upcoming := rfl
@[simp] theorem assertReset_draws (s : State) : (assertReset s).draws = s.draws := rfl

@[simp] theorem releaseMosi_toArch (hw : Hardware) (s : State) : (releaseMosi hw s).toArch = s.toArch := by unfold releaseMosi; split <;> rfl
@[simp] theorem releaseMosi_byteIdx (hw : Hardware) (s : State) : (releaseMosi hw s).byteIdx = s.byteIdx := by unfold releaseMosi; split <;> rfl
@[simp] theorem releaseMosi_bitIdx (hw : Hardware) (s : State) : (releaseMosi hw s).bitIdx = s.bitIdx := by unfold releaseMosi; split <;> rfl
@[simp] theorem releaseMosi_shift (hw : Hardware) (s : State) : (releaseMosi hw s).shift = s.shift := by unfold releaseMosi; split <;> rfl
@[simp] theorem releaseMosi_settleCnt (hw : Hardware) (s : State) : (releaseMosi hw s).settleCnt = s.settleCnt := by unfold releaseMosi; split <;> rfl
@[simp] theorem releaseMosi_tcnt (hw : Hardware) (s : State) : (releaseMosi hw s).tcnt = s.tcnt := by unfold releaseMosi; split <;> rfl
@[simp] theorem releaseMosi_csN (hw : Hardware) (s : State) : (releaseMosi hw s).csN = s.csN := by unfold releaseMosi; split <;> rfl
@[simp] theorem releaseMosi_sclk (hw : Hardware) (s : State) : (releaseMosi hw s).sclk = s.sclk := by unfold releaseMosi; split <;> rfl
@[simp] theorem releaseMosi_phase (hw : Hardware) (s : State) : (releaseMosi hw s).phase = s.phase := by unfold releaseMosi; split <;> rfl
@[simp] theorem releaseMosi_gap (hw : Hardware) (s : State) : (releaseMosi hw s).gap = s.gap := by unfold releaseMosi; split <;> rfl
@[simp] theorem releaseMosi_port (hw : Hardware) (s : State) : (releaseMosi hw s).port = s.port := by unfold releaseMosi; split <;> rfl
@[simp] theorem releaseMosi_upcoming (hw : Hardware) (s : State) : (releaseMosi hw s).upcoming = s.upcoming := by unfold releaseMosi; split <;> rfl

@[simp] theorem driveEarly_toArch (hw : Hardware) (s : State) : (driveEarly hw s).toArch = s.toArch := by unfold driveEarly; split <;> rfl
@[simp] theorem driveEarly_byteIdx (hw : Hardware) (s : State) : (driveEarly hw s).byteIdx = s.byteIdx := by unfold driveEarly; split <;> rfl
@[simp] theorem driveEarly_bitIdx (hw : Hardware) (s : State) : (driveEarly hw s).bitIdx = s.bitIdx := by unfold driveEarly; split <;> rfl
@[simp] theorem driveEarly_shift (hw : Hardware) (s : State) : (driveEarly hw s).shift = s.shift := by unfold driveEarly; split <;> rfl
@[simp] theorem driveEarly_settleCnt (hw : Hardware) (s : State) : (driveEarly hw s).settleCnt = s.settleCnt := by unfold driveEarly; split <;> rfl
@[simp] theorem driveEarly_tcnt (hw : Hardware) (s : State) : (driveEarly hw s).tcnt = s.tcnt := by unfold driveEarly; split <;> rfl
@[simp] theorem driveEarly_csN (hw : Hardware) (s : State) : (driveEarly hw s).csN = s.csN := by unfold driveEarly; split <;> rfl
@[simp] theorem driveEarly_sclk (hw : Hardware) (s : State) : (driveEarly hw s).sclk = s.sclk := by unfold driveEarly; split <;> rfl
@[simp] theorem driveEarly_phase (hw : Hardware) (s : State) : (driveEarly hw s).phase = s.phase := by unfold driveEarly; split <;> rfl
@[simp] theorem driveEarly_gap (hw : Hardware) (s : State) : (driveEarly hw s).gap = s.gap := by unfold driveEarly; split <;> rfl
@[simp] theorem driveEarly_port (hw : Hardware) (s : State) : (driveEarly hw s).port = s.port := by unfold driveEarly; split <;> rfl
@[simp] theorem driveEarly_upcoming (hw : Hardware) (s : State) : (driveEarly hw s).upcoming = s.upcoming := by unfold driveEarly; split <;> rfl
@[simp] theorem driveEarly_draws (hw : Hardware) (s : State) : (driveEarly hw s).draws = s.draws := by unfold driveEarly; split <;> rfl

@[simp] theorem driveAtEdge_toArch (hw : Hardware) (s : State) : (driveAtEdge hw s).toArch = s.toArch := by unfold driveAtEdge; split <;> rfl
@[simp] theorem driveAtEdge_byteIdx (hw : Hardware) (s : State) : (driveAtEdge hw s).byteIdx = s.byteIdx := by unfold driveAtEdge; split <;> rfl
@[simp] theorem driveAtEdge_bitIdx (hw : Hardware) (s : State) : (driveAtEdge hw s).bitIdx = s.bitIdx := by unfold driveAtEdge; split <;> rfl
@[simp] theorem driveAtEdge_shift (hw : Hardware) (s : State) : (driveAtEdge hw s).shift = s.shift := by unfold driveAtEdge; split <;> rfl
@[simp] theorem driveAtEdge_settleCnt (hw : Hardware) (s : State) : (driveAtEdge hw s).settleCnt = s.settleCnt := by unfold driveAtEdge; split <;> rfl
@[simp] theorem driveAtEdge_tcnt (hw : Hardware) (s : State) : (driveAtEdge hw s).tcnt = s.tcnt := by unfold driveAtEdge; split <;> rfl
@[simp] theorem driveAtEdge_csN (hw : Hardware) (s : State) : (driveAtEdge hw s).csN = s.csN := by unfold driveAtEdge; split <;> rfl
@[simp] theorem driveAtEdge_sclk (hw : Hardware) (s : State) : (driveAtEdge hw s).sclk = s.sclk := by unfold driveAtEdge; split <;> rfl
@[simp] theorem driveAtEdge_phase (hw : Hardware) (s : State) : (driveAtEdge hw s).phase = s.phase := by unfold driveAtEdge; split <;> rfl
@[simp] theorem driveAtEdge_gap (hw : Hardware) (s : State) : (driveAtEdge hw s).gap = s.gap := by unfold driveAtEdge; split <;> rfl
@[simp] theorem driveAtEdge_port (hw : Hardware) (s : State) : (driveAtEdge hw s).port = s.port := by unfold driveAtEdge; split <;> rfl
@[simp] theorem driveAtEdge_upcoming (hw : Hardware) (s : State) : (driveAtEdge hw s).upcoming = s.upcoming := by unfold driveAtEdge; split <;> rfl
@[simp] theorem driveAtEdge_draws (hw : Hardware) (s : State) : (driveAtEdge hw s).draws = s.draws := by unfold driveAtEdge; split <;> rfl

@[simp] theorem linesAfterPresentation_toArch (hw : Hardware) (s : State) : (linesAfterPresentation hw s).toArch = s.toArch := by unfold linesAfterPresentation; split <;> rfl
@[simp] theorem linesAfterPresentation_byteIdx (hw : Hardware) (s : State) : (linesAfterPresentation hw s).byteIdx = s.byteIdx := by unfold linesAfterPresentation; split <;> rfl
@[simp] theorem linesAfterPresentation_bitIdx (hw : Hardware) (s : State) : (linesAfterPresentation hw s).bitIdx = s.bitIdx := by unfold linesAfterPresentation; split <;> rfl
@[simp] theorem linesAfterPresentation_shift (hw : Hardware) (s : State) : (linesAfterPresentation hw s).shift = s.shift := by unfold linesAfterPresentation; split <;> rfl
@[simp] theorem linesAfterPresentation_settleCnt (hw : Hardware) (s : State) : (linesAfterPresentation hw s).settleCnt = s.settleCnt := by unfold linesAfterPresentation; split <;> rfl
@[simp] theorem linesAfterPresentation_tcnt (hw : Hardware) (s : State) : (linesAfterPresentation hw s).tcnt = s.tcnt := by unfold linesAfterPresentation; split <;> rfl
@[simp] theorem linesAfterPresentation_csN (hw : Hardware) (s : State) : (linesAfterPresentation hw s).csN = s.csN := by unfold linesAfterPresentation; split <;> rfl
@[simp] theorem linesAfterPresentation_sclk (hw : Hardware) (s : State) : (linesAfterPresentation hw s).sclk = s.sclk := by unfold linesAfterPresentation; split <;> rfl
@[simp] theorem linesAfterPresentation_phase (hw : Hardware) (s : State) : (linesAfterPresentation hw s).phase = s.phase := by unfold linesAfterPresentation; split <;> rfl
@[simp] theorem linesAfterPresentation_gap (hw : Hardware) (s : State) : (linesAfterPresentation hw s).gap = s.gap := by unfold linesAfterPresentation; split <;> rfl
@[simp] theorem linesAfterPresentation_port (hw : Hardware) (s : State) : (linesAfterPresentation hw s).port = s.port := by unfold linesAfterPresentation; split <;> rfl
@[simp] theorem linesAfterPresentation_upcoming (hw : Hardware) (s : State) : (linesAfterPresentation hw s).upcoming = s.upcoming := by unfold linesAfterPresentation; split <;> rfl

@[simp] theorem reject_dir (c : ErrCode) (a : Arch) : (reject c a).dir = a.dir := rfl
@[simp] theorem reject_chan (c : ErrCode) (a : Arch) : (reject c a).chan = a.chan := rfl
@[simp] theorem reject_pwr (c : ErrCode) (a : Arch) : (reject c a).pwr = a.pwr := rfl
@[simp] theorem reject_started (c : ErrCode) (a : Arch) : (reject c a).started = a.started := rfl
@[simp] theorem reject_seq (c : ErrCode) (a : Arch) : (reject c a).seq = a.seq := rfl
@[simp] theorem reject_stepIdx (c : ErrCode) (a : Arch) : (reject c a).stepIdx = a.stepIdx := rfl
@[simp] theorem reject_busy (c : ErrCode) (a : Arch) : (reject c a).busy = a.busy := rfl
@[simp] theorem reject_err (c : ErrCode) (a : Arch) : (reject c a).err = c := rfl
@[simp] theorem reject_hist (c : ErrCode) (a : Arch) : (reject c a).hist = a.hist := rfl

@[simp] theorem beginSequence_dir (q : SeqId) (a : Arch) : (beginSequence q a).dir = a.dir := rfl
@[simp] theorem beginSequence_chan (q : SeqId) (a : Arch) : (beginSequence q a).chan = a.chan := rfl
@[simp] theorem beginSequence_pwr (q : SeqId) (a : Arch) : (beginSequence q a).pwr = a.pwr := rfl
@[simp] theorem beginSequence_started (q : SeqId) (a : Arch) : (beginSequence q a).started = a.started := rfl
@[simp] theorem beginSequence_seq (q : SeqId) (a : Arch) : (beginSequence q a).seq = q := rfl
@[simp] theorem beginSequence_stepIdx (q : SeqId) (a : Arch) : (beginSequence q a).stepIdx = 0 := rfl
@[simp] theorem beginSequence_busy (q : SeqId) (a : Arch) : (beginSequence q a).busy = true := rfl
@[simp] theorem beginSequence_err (q : SeqId) (a : Arch) : (beginSequence q a).err = .ok := rfl
@[simp] theorem beginSequence_hist (q : SeqId) (a : Arch) : (beginSequence q a).hist = a.hist := rfl

@[simp] theorem appendEvent_dir (e : Event) (a : Arch) : (appendEvent e a).dir = a.dir := rfl
@[simp] theorem appendEvent_chan (e : Event) (a : Arch) : (appendEvent e a).chan = a.chan := rfl
@[simp] theorem appendEvent_pwr (e : Event) (a : Arch) : (appendEvent e a).pwr = a.pwr := rfl
@[simp] theorem appendEvent_started (e : Event) (a : Arch) : (appendEvent e a).started = a.started := rfl
@[simp] theorem appendEvent_seq (e : Event) (a : Arch) : (appendEvent e a).seq = a.seq := rfl
@[simp] theorem appendEvent_stepIdx (e : Event) (a : Arch) : (appendEvent e a).stepIdx = a.stepIdx := rfl
@[simp] theorem appendEvent_busy (e : Event) (a : Arch) : (appendEvent e a).busy = a.busy := rfl
@[simp] theorem appendEvent_err (e : Event) (a : Arch) : (appendEvent e a).err = a.err := rfl
@[simp] theorem appendEvent_hist (e : Event) (a : Arch) : (appendEvent e a).hist = a.hist ++ [e] := rfl

@[simp] theorem advanceStep_dir (a : Arch) : (advanceStep a).dir = a.dir := rfl
@[simp] theorem advanceStep_chan (a : Arch) : (advanceStep a).chan = a.chan := rfl
@[simp] theorem advanceStep_pwr (a : Arch) : (advanceStep a).pwr = a.pwr := rfl
@[simp] theorem advanceStep_started (a : Arch) : (advanceStep a).started = a.started := rfl
@[simp] theorem advanceStep_seq (a : Arch) : (advanceStep a).seq = a.seq := rfl
@[simp] theorem advanceStep_stepIdx (a : Arch) : (advanceStep a).stepIdx = a.stepIdx + 1 := rfl
@[simp] theorem advanceStep_busy (a : Arch) : (advanceStep a).busy = a.busy := rfl
@[simp] theorem advanceStep_err (a : Arch) : (advanceStep a).err = a.err := rfl
@[simp] theorem advanceStep_hist (a : Arch) : (advanceStep a).hist = a.hist := rfl

@[simp] theorem endStep_dir (a : Arch) : (endStep a).dir = a.dir := rfl
@[simp] theorem endStep_chan (a : Arch) : (endStep a).chan = a.chan := rfl
@[simp] theorem endStep_pwr (a : Arch) : (endStep a).pwr = a.pwr := rfl
@[simp] theorem endStep_started (a : Arch) : (endStep a).started = a.started := rfl
@[simp] theorem endStep_seq (a : Arch) : (endStep a).seq = .none := rfl
@[simp] theorem endStep_stepIdx (a : Arch) : (endStep a).stepIdx = 0 := rfl
@[simp] theorem endStep_busy (a : Arch) : (endStep a).busy = false := rfl
@[simp] theorem endStep_err (a : Arch) : (endStep a).err = a.err := rfl
@[simp] theorem endStep_hist (a : Arch) : (endStep a).hist = a.hist := rfl

@[simp] theorem settleStep_dir (a : Arch) : (settleStep a).dir = a.dir := rfl
@[simp] theorem settleStep_chan (a : Arch) : (settleStep a).chan = a.chan := rfl
@[simp] theorem settleStep_pwr (a : Arch) : (settleStep a).pwr = a.pwr := rfl
@[simp] theorem settleStep_started (a : Arch) : (settleStep a).started = a.started := rfl
@[simp] theorem settleStep_seq (a : Arch) : (settleStep a).seq = a.seq := rfl
@[simp] theorem settleStep_stepIdx (a : Arch) : (settleStep a).stepIdx = a.stepIdx + 1 := rfl
@[simp] theorem settleStep_busy (a : Arch) : (settleStep a).busy = a.busy := rfl
@[simp] theorem settleStep_err (a : Arch) : (settleStep a).err = a.err := rfl
@[simp] theorem settleStep_hist (a : Arch) : (settleStep a).hist = a.hist ++ [.settle] := rfl

@[simp] theorem busFrame_dir (l : List Byte) (a : Arch) : (busFrame l a).dir = a.dir := rfl
@[simp] theorem busFrame_chan (l : List Byte) (a : Arch) : (busFrame l a).chan = a.chan := rfl
@[simp] theorem busFrame_pwr (l : List Byte) (a : Arch) : (busFrame l a).pwr = a.pwr := rfl
@[simp] theorem busFrame_started (l : List Byte) (a : Arch) : (busFrame l a).started = a.started := rfl
@[simp] theorem busFrame_seq (l : List Byte) (a : Arch) : (busFrame l a).seq = a.seq := rfl
@[simp] theorem busFrame_stepIdx (l : List Byte) (a : Arch) : (busFrame l a).stepIdx = a.stepIdx + 1 := rfl
@[simp] theorem busFrame_busy (l : List Byte) (a : Arch) : (busFrame l a).busy = a.busy := rfl
@[simp] theorem busFrame_err (l : List Byte) (a : Arch) : (busFrame l a).err = a.err := rfl
@[simp] theorem busFrame_hist (l : List Byte) (a : Arch) : (busFrame l a).hist = a.hist ++ [.frame l] := rfl

@[simp] theorem acceptStart_dir (c : BitVec 5) (d : Direction) (p : BitVec 4) (a : Arch) : (acceptStart c d p a).dir = d := rfl
@[simp] theorem acceptStart_chan (c : BitVec 5) (d : Direction) (p : BitVec 4) (a : Arch) : (acceptStart c d p a).chan = c := rfl
@[simp] theorem acceptStart_pwr (c : BitVec 5) (d : Direction) (p : BitVec 4) (a : Arch) : (acceptStart c d p a).pwr = p := rfl
@[simp] theorem acceptStart_started (c : BitVec 5) (d : Direction) (p : BitVec 4) (a : Arch) : (acceptStart c d p a).started = true := rfl
@[simp] theorem acceptStart_seq (c : BitVec 5) (d : Direction) (p : BitVec 4) (a : Arch) : (acceptStart c d p a).seq = .start := rfl
@[simp] theorem acceptStart_stepIdx (c : BitVec 5) (d : Direction) (p : BitVec 4) (a : Arch) : (acceptStart c d p a).stepIdx = 0 := rfl
@[simp] theorem acceptStart_busy (c : BitVec 5) (d : Direction) (p : BitVec 4) (a : Arch) : (acceptStart c d p a).busy = true := rfl
@[simp] theorem acceptStart_err (c : BitVec 5) (d : Direction) (p : BitVec 4) (a : Arch) : (acceptStart c d p a).err = .ok := rfl
@[simp] theorem acceptStart_hist (c : BitVec 5) (d : Direction) (p : BitVec 4) (a : Arch) : (acceptStart c d p a).hist = a.hist := rfl

@[simp] theorem acceptChch_dir (c : BitVec 5) (a : Arch) : (acceptChch c a).dir = a.dir := rfl
@[simp] theorem acceptChch_chan (c : BitVec 5) (a : Arch) : (acceptChch c a).chan = c := rfl
@[simp] theorem acceptChch_pwr (c : BitVec 5) (a : Arch) : (acceptChch c a).pwr = a.pwr := rfl
@[simp] theorem acceptChch_started (c : BitVec 5) (a : Arch) : (acceptChch c a).started = a.started := rfl
@[simp] theorem acceptChch_seq (c : BitVec 5) (a : Arch) : (acceptChch c a).seq = .chch := rfl
@[simp] theorem acceptChch_stepIdx (c : BitVec 5) (a : Arch) : (acceptChch c a).stepIdx = 0 := rfl
@[simp] theorem acceptChch_busy (c : BitVec 5) (a : Arch) : (acceptChch c a).busy = true := rfl
@[simp] theorem acceptChch_err (c : BitVec 5) (a : Arch) : (acceptChch c a).err = .ok := rfl
@[simp] theorem acceptChch_hist (c : BitVec 5) (a : Arch) : (acceptChch c a).hist = a.hist := rfl

@[simp] theorem acceptKa_dir (a : Arch) : (acceptKa a).dir = a.dir := rfl
@[simp] theorem acceptKa_chan (a : Arch) : (acceptKa a).chan = a.chan := rfl
@[simp] theorem acceptKa_pwr (a : Arch) : (acceptKa a).pwr = a.pwr := rfl
@[simp] theorem acceptKa_started (a : Arch) : (acceptKa a).started = a.started := rfl
@[simp] theorem acceptKa_seq (a : Arch) : (acceptKa a).seq = .ka := rfl
@[simp] theorem acceptKa_stepIdx (a : Arch) : (acceptKa a).stepIdx = 0 := rfl
@[simp] theorem acceptKa_busy (a : Arch) : (acceptKa a).busy = true := rfl
@[simp] theorem acceptKa_err (a : Arch) : (acceptKa a).err = .ok := rfl
@[simp] theorem acceptKa_hist (a : Arch) : (acceptKa a).hist = a.hist := rfl

end Sys2Proof.Laws
end

