-- ==== Sys2Proof/Laws/Presentation.lean ====
section
/-! SUPPORT. Everything a presentation can do: the ordered checks, `present`, and `exec`. -/

namespace Sys2Proof.Laws

open Sys2Proof.Machine

theorem firstError_eq_none_iff (checks : List (Bool × ErrCode)) :
    firstError checks = none ↔ ∀ c ∈ checks, c.1 = true := by
  induction checks with
  | nil => simp [firstError]
  | cons c rest ih => obtain ⟨b, e⟩ := c; cases b <;> simp [firstError, ih]

theorem firstError_mem {checks : List (Bool × ErrCode)} {code : ErrCode} (h : firstError checks = some code) :
    code ∈ checks.map (·.2) := by
  induction checks with
  | nil => simp [firstError] at h
  | cons c rest ih => obtain ⟨b, e⟩ := c; cases b <;> simp_all [firstError]

theorem present_of_busy {checks : List (Bool × ErrCode)} {accept : Arch → Arch} {s : State} (h : s.busy = true) :
    present checks accept s = .next s := by simp [present, h]

theorem present_of_error {checks : List (Bool × ErrCode)} {accept : Arch → Arch} {s : State} {code : ErrCode}
    (h : s.busy = false) (he : firstError checks = some code) :
    present checks accept s = .next { s with toArch := reject code s.toArch } := by simp [present, h, he]

theorem present_of_none {checks : List (Bool × ErrCode)} {accept : Arch → Arch} {s : State}
    (h : s.busy = false) (he : firstError checks = none) :
    present checks accept s = .next { s with toArch := accept s.toArch } := by simp [present, h, he]

/-- What a presentation answers: it holds, rejects or accepts. -/
theorem present_cases {checks : List (Bool × ErrCode)} {accept : Arch → Arch} {s u : State}
    (h : present checks accept s = .next u) :
    (s.busy = true ∧ u = s) ∨
    (s.busy = false ∧ ∃ code, firstError checks = some code ∧ u = { s with toArch := reject code s.toArch }) ∨
    (s.busy = false ∧ firstError checks = none ∧ u = { s with toArch := accept s.toArch }) := by
  cases hb : s.busy with
  | true => rw [present_of_busy hb] at h; cases h; exact .inl ⟨rfl, rfl⟩
  | false =>
    cases he : firstError checks with
    | some code => rw [present_of_error hb he] at h; cases h; exact .inr (.inl ⟨rfl, code, rfl, rfl⟩)
    | none => rw [present_of_none hb he] at h; cases h; exact .inr (.inr ⟨rfl, rfl, rfl⟩)

/-- A presentation always answers a next state. -/
theorem present_next (checks : List (Bool × ErrCode)) (accept : Arch → Arch) (s : State) :
    ∃ u, present checks accept s = .next u := by
  unfold present; split
  · exact ⟨_, rfl⟩
  · split <;> exact ⟨_, rfl⟩

/-- A presented word always answers a next state (R84: every word has an outcome). -/
theorem exec_next (i : Instr) (s : State) : ∃ u, exec i s = .next u := by
  cases i with
  | start ch d pw => exact present_next _ _ _
  | chch ch d pw => exact present_next _ _ _
  | ka x => exact present_next _ _ _
  | illegalOp00 hi => exact present_next [(false, .badCommand)] id _
  | illegalRsv12 hi lo => exact present_next [(false, .badCommand)] id _
  | illegalRsv13 hi lo => exact present_next [(false, .badCommand)] id _
  | illegalRsv14 hi lo => exact present_next [(false, .badCommand)] id _
  | illegalRsv15 lo => exact present_next [(false, .badCommand)] id _

/-- What executing an instruction can do: hold, reject, or accept one of the three commands. -/
theorem exec_cases {i : Instr} {s u : State} (h : exec i s = .next u) :
    (s.busy = true ∧ u = s) ∨
    (s.busy = false ∧ ∃ code, code ≠ .ok ∧ u = { s with toArch := reject code s.toArch }) ∨
    (s.busy = false ∧ s.port.busOk = true ∧ ∃ ch d pw, i = .start ch d pw ∧ channelInRange ch = true ∧
      powerAcceptable d pw = true ∧ u = { s with toArch := acceptStart ch d pw s.toArch }) ∨
    (s.busy = false ∧ s.port.busOk = true ∧ s.started = true ∧ ∃ ch d pw, i = .chch ch d pw ∧ channelInRange ch = true ∧
      u = { s with toArch := acceptChch ch s.toArch }) ∨
    (s.busy = false ∧ s.port.busOk = true ∧ s.started = true ∧ ∃ x, i = .ka x ∧
      u = { s with toArch := acceptKa s.toArch }) := by
  have bad : ∀ {s u : State}, badWord s = .next u → (s.busy = true ∧ u = s) ∨
      (s.busy = false ∧ ∃ code, code ≠ .ok ∧ u = { s with toArch := reject code s.toArch }) := by
    intro s u h
    obtain h | ⟨hb, code, he, hu⟩ | ⟨_, he, _⟩ := present_cases h
    · exact .inl h
    · refine .inr ⟨hb, code, ?_, hu⟩
      rintro rfl
      simpa using firstError_mem he
    · simp [firstError] at he
  cases i with
  | start ch d pw =>
    obtain h | ⟨hb, code, he, hu⟩ | ⟨hb, he, hu⟩ := present_cases h
    · exact .inl h
    · refine .inr (.inl ⟨hb, code, ?_, hu⟩)
      rintro rfl
      simpa using firstError_mem he
    · rw [firstError_eq_none_iff] at he
      simp only [List.mem_cons, List.not_mem_nil, or_false, forall_eq_or_imp, forall_eq] at he
      exact .inr (.inr (.inl ⟨hb, he.1, ch, d, pw, rfl, he.2.1, he.2.2, hu⟩))
  | chch ch d pw =>
    obtain h | ⟨hb, code, he, hu⟩ | ⟨hb, he, hu⟩ := present_cases h
    · exact .inl h
    · refine .inr (.inl ⟨hb, code, ?_, hu⟩)
      rintro rfl
      simpa using firstError_mem he
    · rw [firstError_eq_none_iff] at he
      simp only [List.mem_cons, List.not_mem_nil, or_false, forall_eq_or_imp, forall_eq] at he
      exact .inr (.inr (.inr (.inl ⟨hb, he.1, he.2.1, ch, d, pw, rfl, he.2.2, hu⟩)))
  | ka x =>
    obtain h | ⟨hb, code, he, hu⟩ | ⟨hb, he, hu⟩ := present_cases h
    · exact .inl h
    · refine .inr (.inl ⟨hb, code, ?_, hu⟩)
      rintro rfl
      simpa using firstError_mem he
    · rw [firstError_eq_none_iff] at he
      simp only [List.mem_cons, List.not_mem_nil, or_false, forall_eq_or_imp, forall_eq] at he
      exact .inr (.inr (.inr (.inr ⟨hb, he.1, he.2, x, rfl, hu⟩)))
  | illegalOp00 hi => exact (bad h).elim .inl (fun h => .inr (.inl h))
  | illegalRsv12 hi lo => exact (bad h).elim .inl (fun h => .inr (.inl h))
  | illegalRsv13 hi lo => exact (bad h).elim .inl (fun h => .inr (.inl h))
  | illegalRsv14 hi lo => exact (bad h).elim .inl (fun h => .inr (.inl h))
  | illegalRsv15 lo => exact (bad h).elim .inl (fun h => .inr (.inl h))

theorem channelInRange_iff {c : BitVec 5} : channelInRange c = true ↔ c.toNat < nCh := by
  simp [channelInRange]

theorem powerInRange_iff {p : BitVec 4} : powerInRange p = true ↔ p.toNat < nPwr := by
  simp [powerInRange]

theorem powerAcceptable_iff {d : Direction} {p : BitVec 4} :
    powerAcceptable d p = true ↔ (d = .transmit → p.toNat < nPwr) := by
  cases d <;> simp [powerAcceptable, powerInRange]

end Sys2Proof.Laws
end

