-- ==== Sys2Proof/Laws/Tables.lean ====
section
/-! SUPPORT. The table ROM and the frames' bytes: what a read answers, and which byte list each micro-operation has. -/

namespace Sys2Proof.Laws

open Sys2Proof.Machine Sys2Proof.Safety

theorem readVector_ok {n : Nat} (v : Vector Byte n) {i : Nat} (h : i < n) :
    readVector v i = .ok (v.toList.getD i 0) := by
  simp [readVector, h, List.getD_eq_getElem?_getD]

theorem readVector_error {n : Nat} (v : Vector Byte n) {i : Nat} (h : ¬ i < n) :
    readVector v i = .error .tableIndexOutOfRange := by
  simp [readVector, h]

/-- A list of reads in range is the list of the values. -/
theorem memReadAll_blob (hw : Hardware) (l : List Nat) (h : ∀ i ∈ l, i < blobLen) :
    memReadAll hw .blob l = .ok (l.map (hw.blob.toList.getD · 0)) := by
  induction l with
  | nil => rfl
  | cons i rest ih =>
    have hi : memRead hw .blob i = .ok (hw.blob.toList.getD i 0) := readVector_ok _ (h i (by simp))
    simp only [memReadAll, hi, ih (fun j hj => h j (by simp [hj])), List.map_cons]

/-- The blob frame carries the 48 bytes of BLOB in index order, R55. -/
theorem blobBytes_eq (hw : Hardware) : blobBytes hw = .ok hw.blob.toList := by
  rw [blobBytes, memReadAll_blob hw _ (by simp)]
  congr 1
  apply List.ext_getElem
  · simp
  · intro i h₁ h₂
    have hi : i < blobLen := by simpa using h₂
    simp [List.getD_eq_getElem?_getD, hi]

theorem powerBytes_eq (hw : Hardware) (a : Arch) (h : a.dir = .transmit → a.pwr.toNat < nPwr) :
    powerBytes hw a = .ok [hw.powerReg, powerByte hw a.dir a.pwr] := by
  cases hd : a.dir with
  | receive => simp [powerBytes, powerValue, registerFrame, sel, powerByte, hd]
  | transmit =>
    have : memRead hw .pwrTable a.pwr.toNat = .ok (hw.pwrTable.toList.getD a.pwr.toNat 0) := readVector_ok _ (h hd)
    simp only [powerBytes, powerValue, sel, hd, this, registerFrame, powerByte]

theorem channelBytes_eq (hw : Hardware) (a : Arch) (h : a.chan.toNat < nCh) :
    channelBytes hw a = .ok [hw.channelReg, channelByte hw a.chan] := by
  have : memRead hw .chTable a.chan.toNat = .ok (hw.chTable.toList.getD a.chan.toNat 0) := readVector_ok _ h
  simp only [channelBytes, this, registerFrame, channelByte]

/-- The handle's indices are in range where they are read, R25. -/
def HandleOk (a : Arch) : Prop := a.chan.toNat < nCh ∧ (a.dir = .transmit → a.pwr.toNat < nPwr)

/-- The micro-operation emits a frame. -/
def isFrameOp : MicroOp → Bool
  | .settle => false
  | .finish => false
  | .fStop => true
  | .fBlob => true
  | .fPower => true
  | .fChannel => true
  | .fMode => true

/-- Every frame micro-operation has its bytes where the handle's indices are in range; the frame is legal, is not empty and
has at most 48 bytes. -/
theorem frameBytes_ok (hw : Hardware) {a : Arch} (ha : HandleOk a) {op : MicroOp} (hop : isFrameOp op = true) :
    ∃ l, frameBytes hw a op = .ok l ∧ frameLegal hw l ∧ 0 < l.length ∧ l.length ≤ blobLen := by
  obtain ⟨hc, hp⟩ := ha
  cases op with
  | settle => cases hop
  | finish => cases hop
  | fStop => exact ⟨_, rfl, .inl rfl, by simp [stopBytes], by simp [stopBytes]⟩
  | fBlob => exact ⟨_, blobBytes_eq hw, .inr (.inl rfl), by simp, by simp⟩
  | fPower =>
    refine ⟨_, powerBytes_eq hw a hp, ?_, by simp, by simp [blobLen]⟩
    cases hd : a.dir with
    | receive => exact .inr (.inr (.inl rfl))
    | transmit => exact .inr (.inr (.inr (.inl ⟨a.pwr, hp hd, rfl⟩)))
  | fChannel => exact ⟨_, channelBytes_eq hw a hc, .inr (.inr (.inr (.inr (.inl ⟨a.chan, hc, rfl⟩)))), by simp, by simp [blobLen]⟩
  | fMode =>
    refine ⟨_, rfl, ?_, by simp [modeBytes], by simp [modeBytes]⟩
    cases hd : a.dir with
    | receive => exact .inr (.inr (.inr (.inr (.inr (.inr (by simp [modeBytes, sel, hd]))))))
    | transmit => exact .inr (.inr (.inr (.inr (.inr (.inl (by simp [modeBytes, sel, hd]))))))

theorem frameBytes_isFrameOp {hw : Hardware} {a : Arch} {op : MicroOp} {l : List Byte} (h : frameBytes hw a op = .ok l) :
    isFrameOp op = true := by
  cases op <;> first | rfl | cases h

theorem runningFrame_eq {hw : Hardware} {a : Arch} {op : MicroOp} {l : List Byte} (hop : microOpAt a = some op)
    (hl : frameBytes hw a op = .ok l) : runningFrame hw a = l := by
  simp [runningFrame, hop, hl]

/-- A frame that runs is the frame of the micro-operation SP names. -/
theorem runningFrame_pos {hw : Hardware} {a : Arch} (h : 0 < (runningFrame hw a).length) :
    ∃ op, microOpAt a = some op ∧ isFrameOp op = true ∧ frameBytes hw a op = .ok (runningFrame hw a) := by
  cases hop : microOpAt a with
  | none => simp [runningFrame, hop] at h
  | some op =>
    cases hl : frameBytes hw a op with
    | error f => simp [runningFrame, hop, hl] at h
    | ok l => exact ⟨op, rfl, frameBytes_isFrameOp hl, by rw [runningFrame_eq hop hl, hl]⟩

/-- The bytes of a frame depend on the direction, the channel and the power only. -/
theorem frameBytes_congr {hw : Hardware} {a b : Arch} (hd : a.dir = b.dir) (hc : a.chan = b.chan) (hp : a.pwr = b.pwr)
    (op : MicroOp) : frameBytes hw a op = frameBytes hw b op := by
  cases op <;> simp [frameBytes, powerBytes, powerValue, channelBytes, modeBytes, hd, hc, hp]

theorem microOpAt_congr {a b : Arch} (hq : a.seq = b.seq) (hi : a.stepIdx = b.stepIdx) : microOpAt a = microOpAt b := by
  simp [microOpAt, hq, hi]

theorem runningFrame_congr {hw : Hardware} {a b : Arch} (hq : a.seq = b.seq) (hi : a.stepIdx = b.stepIdx)
    (hd : a.dir = b.dir) (hc : a.chan = b.chan) (hp : a.pwr = b.pwr) : runningFrame hw a = runningFrame hw b := by
  unfold runningFrame
  rw [microOpAt_congr hq hi]
  cases microOpAt b with
  | none => rfl
  | some op => simp only [frameBytes_congr hd hc hp op]

/-- Each sequence ends with END and holds it nowhere else, R86. -/
theorem seqRom_slot {q : SeqId} {n : Nat} {op : MicroOp} (h : (seqRom q)[n]? = some op) :
    (op = .finish ∧ n + 1 = (seqRom q).length) ∨ (op ≠ .finish ∧ n + 1 < (seqRom q).length) := by
  have hn : n < (seqRom q).length := (List.getElem?_eq_some_iff.mp h).1
  have hlen : (seqRom q).length ≤ 7 := by cases q <;> simp [seqRom]
  have : n < 7 := by omega
  revert h hn
  cases q <;> interval_cases n <;> simp [seqRom] <;> rintro rfl <;> simp

theorem seqRom_length_le (q : SeqId) : (seqRom q).length ≤ 7 := by cases q <;> simp [seqRom]

/-- After a micro-operation other than END, SP still names one, R27 and R141. -/
theorem microOpAt_advance {a : Arch} {op : MicroOp} (h : microOpAt a = some op) (hop : op ≠ .finish) :
    (microOpAt (advanceStep a)).isSome = true := by
  have hs : a.stepIdx.toNat + 1 < (seqRom a.seq).length := by
    rcases seqRom_slot (q := a.seq) h with ⟨h, _⟩ | ⟨_, h⟩
    · exact absurd h hop
    · exact h
  have hlen := seqRom_length_le a.seq
  have : (a.stepIdx + 1).toNat = a.stepIdx.toNat + 1 := by bv_omega
  simp only [microOpAt, advanceStep, this, Option.isSome_iff_ne_none, ne_eq, List.getElem?_eq_none_iff]
  omega

end Sys2Proof.Laws
end

