-- ==== Sys2Proof/Laws/Cycle.lean ====
section
/-! SUPPORT. Everything a cycle can do (one inversion lemma), and runs of several cycles with the bits sampled on the way. -/

namespace Sys2Proof.Laws

open Sys2Proof.Machine Sys2Proof.Safety

theorem mapNext_eq_next {f : State → State} {r : Result} {t : State} :
    mapNext f r = .next t ↔ ∃ u, r = .next u ∧ t = f u := by
  cases r <;> simp [mapNext, eq_comm]

/-- What a cycle does: reset, else a sequencer cycle, else a presentation, else nothing but a draw for MOSI. -/
theorem cycle_cases {hw : Hardware} {s t : State} (h : cycle hw s = .next t) :
    (s.port.rst = true ∧ t = passInputs s (resetCycle hw s)) ∨
    (s.port.rst = false ∧ s.busy = true ∧ ∃ u, sequencerCycle hw s = .next u ∧ t = passInputs s u) ∨
    (s.port.rst = false ∧ s.busy = false ∧ s.port.cmdValid = true ∧ ∃ u, exec (decodeWord s.port.cmdWord) s = .next u ∧
      t = passInputs s (linesAfterPresentation hw u)) ∨
    (s.port.rst = false ∧ s.busy = false ∧ s.port.cmdValid = false ∧ t = passInputs s (floatMosi hw s)) := by
  unfold cycle at h
  obtain ⟨u, hu, rfl⟩ := mapNext_eq_next.mp h
  unfold cycleCore at hu
  cases hr : s.port.rst with
  | true => simp only [hr, if_true] at hu; cases hu; exact .inl ⟨rfl, rfl⟩
  | false =>
    cases hb : s.busy with
    | true =>
      simp only [hr, hb, if_true, Bool.false_eq_true, if_false] at hu
      exact .inr (.inl ⟨rfl, rfl, u, hu, rfl⟩)
    | false =>
      cases hv : s.port.cmdValid with
      | true =>
        simp only [hr, hb, hv, if_true, Bool.false_eq_true, if_false, presentationCycle] at hu
        obtain ⟨w, hw, rfl⟩ := mapNext_eq_next.mp hu
        exact .inr (.inr (.inl ⟨rfl, rfl, rfl, w, hw, rfl⟩))
      | false =>
        simp only [hr, hb, hv, Bool.false_eq_true, if_false] at hu
        cases hu
        exact .inr (.inr (.inr ⟨rfl, rfl, rfl, rfl⟩))

theorem cycle_of_rst {hw : Hardware} {s : State} (hr : s.port.rst = true) :
    cycle hw s = .next (passInputs s (resetCycle hw s)) := by simp [cycle, cycleCore, hr, mapNext]

theorem cycle_of_busy {hw : Hardware} {s : State} (hr : s.port.rst = false) (hb : s.busy = true) :
    cycle hw s = mapNext (passInputs s) (sequencerCycle hw s) := by simp [cycle, cycleCore, hr, hb]

theorem cycle_of_presented {hw : Hardware} {s u : State} (hr : s.port.rst = false) (hb : s.busy = false)
    (hv : s.port.cmdValid = true) (hu : exec (decodeWord s.port.cmdWord) s = .next u) :
    cycle hw s = .next (passInputs s (linesAfterPresentation hw u)) := by
  simp [cycle, cycleCore, hr, hb, hv, presentationCycle, hu, mapNext]

theorem cycle_of_idle {hw : Hardware} {s : State} (hr : s.port.rst = false) (hb : s.busy = false)
    (hv : s.port.cmdValid = false) : cycle hw s = .next (passInputs s (floatMosi hw s)) := by
  simp [cycle, cycleCore, hr, hb, hv, mapNext]

/-- What a sequencer cycle does: SETTLE and END between frames, a frame cycle otherwise. -/
theorem sequencerCycle_cases {hw : Hardware} {s u : State} (h : sequencerCycle hw s = .next u) :
    (microOpAt s.toArch = some .settle ∧ s.phase = .boundary ∧ u = settleCycle hw s) ∨
    (microOpAt s.toArch = some .finish ∧ s.phase = .boundary ∧ u = endCycle hw s) ∨
    (∃ op l, microOpAt s.toArch = some op ∧ isFrameOp op = true ∧ frameBytes hw s.toArch op = .ok l ∧
      frameCycle hw l s = .next u) := by
  unfold sequencerCycle at h
  split at h
  · cases h
  · next hop =>
    split at h
    · next hp => cases h; exact .inl ⟨hop, hp, rfl⟩
    · cases h
  · next hop =>
    split at h
    · next hp => cases h; exact .inr (.inl ⟨hop, hp, rfl⟩)
    · cases h
  all_goals
    next hop =>
      unfold frameOpCycle at h
      split at h
      · cases h
      · next hl => exact .inr (.inr ⟨_, _, hop, rfl, hl, h⟩)

theorem sequencerCycle_of_settle {hw : Hardware} {s : State} (hop : microOpAt s.toArch = some .settle)
    (hp : s.phase = .boundary) : sequencerCycle hw s = .next (settleCycle hw s) := by
  simp [sequencerCycle, hop, hp]

theorem sequencerCycle_of_finish {hw : Hardware} {s : State} (hop : microOpAt s.toArch = some .finish)
    (hp : s.phase = .boundary) : sequencerCycle hw s = .next (endCycle hw s) := by
  simp [sequencerCycle, hop, hp]

theorem sequencerCycle_of_frame {hw : Hardware} {s : State} {op : MicroOp} {l : List Byte}
    (hop : microOpAt s.toArch = some op) (hl : frameBytes hw s.toArch op = .ok l) :
    sequencerCycle hw s = frameCycle hw l s := by
  have hf := frameBytes_isFrameOp hl
  cases op with
  | settle => cases hf
  | finish => cases hf
  | fStop => simp only [sequencerCycle, hop, hl, frameOpCycle]
  | fBlob => simp only [sequencerCycle, hop, hl, frameOpCycle]
  | fPower => simp only [sequencerCycle, hop, hl, frameOpCycle]
  | fChannel => simp only [sequencerCycle, hop, hl, frameOpCycle]
  | fMode => simp only [sequencerCycle, hop, hl, frameOpCycle]

/-- The inputs stay quiet as they pass on. -/
theorem quiet_passInputs {s : State} (u : State) (h : quiet s = true) : quiet (passInputs s u) = true := by
  unfold quiet at *
  cases hu : s.upcoming with
  | nil => simp [nextPort, heldInputs, hu]
  | cons p ps => simp_all [nextPort]

theorem quiet_rst {s : State} (h : quiet s = true) : s.port.rst = false := by
  unfold quiet at h; simp_all

/-- `n` cycles lead from `s` to `t`, and a device on the wire samples `bits` on the way. -/
def RunsTo (hw : Hardware) (n : Nat) (s t : State) (bits : List Bool) : Prop :=
  runWith hw n s = .next t ∧ sampledBits hw n s = bits

theorem RunsTo.refl (hw : Hardware) (s : State) : RunsTo hw 0 s s [] := ⟨rfl, rfl⟩

theorem RunsTo.one {hw : Hardware} {s t : State} (h : cycle hw s = .next t) :
    RunsTo hw 1 s t (if samplingEdge hw s t then [s.mosi] else []) := by
  simp [RunsTo, runWith, sampledBits, h]

theorem RunsTo.trans {hw : Hardware} {m n : Nat} {s t u : State} {b c : List Bool} (h : RunsTo hw m s t b)
    (h' : RunsTo hw n t u c) : RunsTo hw (m + n) s u (b ++ c) := by
  induction m generalizing s b with
  | zero =>
    obtain ⟨hr, hb⟩ := h
    simp only [runWith, Host.Outcome.next.injEq] at hr
    subst hr; subst hb
    simpa [sampledBits] using h'
  | succ m ih =>
    obtain ⟨hr, hb⟩ := h
    rw [Nat.succ_add]
    cases hc : cycle hw s with
    | next v =>
      simp only [runWith, hc, sampledBits] at hr hb
      obtain ⟨hr', hb'⟩ := ih (s := v) ⟨hr, rfl⟩
      refine ⟨by simp only [runWith, hc, hr'], ?_⟩
      simp only [sampledBits, hc, hb', ← hb, List.append_assoc]
    | fault f => simp [runWith, hc] at hr
    | refused f => simp [runWith, hc] at hr

/-- The machine's run is the run of `cycle` on the open parameters. -/
theorem run_core (n : Nat) (s : State) :
    Host.Core.run Sys2Proof.core n s = runWith Config.hardware n s := by
  induction n generalizing s with
  | zero => rfl
  | succ n ih =>
    cases hc : cycle Config.hardware s with
    | next t =>
      have hs : Sys2Proof.core.step s = .next t := hc
      simp only [Host.Core.run, runWith, hc, hs]; exact ih t
    | fault f =>
      have hs : Sys2Proof.core.step s = .fault f := hc
      simp only [Host.Core.run, runWith, hc, hs]; rfl
    | refused f =>
      have hs : Sys2Proof.core.step s = .refused f := hc
      simp only [Host.Core.run, runWith, hc, hs]; rfl

theorem RunsTo.reaches {n : Nat} {s t : State} {b : List Bool} (h : RunsTo Config.hardware n s t b) : Reaches n s t := by
  rw [Reaches, run_core]; exact h.1

end Sys2Proof.Laws
end

