-- ==== Sys2Proof/Laws/Encoding.lean ====
section
/-! SUPPORT. The bits of an encoded word, constructor by constructor: the word is the concatenation R80 gives, so that its bits
can be read field by field; a word's fields; and what the decoder makes of a word with RSV = 0 and of one without. -/

namespace Sys2Proof.Laws

theorem encode_start_bit (ch : BitVec 5) (d : Direction) (pw : BitVec 4) (j : Nat) :
    (encode (.start ch d pw)).getLsbD j = (0#4 ++ pw ++ ch ++ d.bit ++ 0b01#2).getLsbD j := rfl

theorem encode_chch_bit (ch : BitVec 5) (d : BitVec 1) (pw : BitVec 4) (j : Nat) :
    (encode (.chch ch d pw)).getLsbD j = (0#4 ++ pw ++ ch ++ d ++ 0b10#2).getLsbD j := rfl

theorem encode_ka_bit (x : BitVec 10) (j : Nat) :
    (encode (.ka x)).getLsbD j = (0#4 ++ x ++ 0b11#2).getLsbD j := rfl

theorem encode_illegalOp00_bit (hi : BitVec 14) (j : Nat) :
    (encode (.illegalOp00 hi)).getLsbD j = (hi ++ 0b00#2).getLsbD j := rfl

theorem encode_illegalRsv12_bit (hi : BitVec 3) (lo : BitVec 12) (j : Nat) :
    (encode (.illegalRsv12 hi lo)).getLsbD j = (hi ++ 1#1 ++ lo).getLsbD j := rfl

theorem encode_illegalRsv13_bit (hi : BitVec 2) (lo : BitVec 13) (j : Nat) :
    (encode (.illegalRsv13 hi lo)).getLsbD j = (hi ++ 1#1 ++ lo).getLsbD j := rfl

theorem encode_illegalRsv14_bit (hi : BitVec 1) (lo : BitVec 14) (j : Nat) :
    (encode (.illegalRsv14 hi lo)).getLsbD j = (hi ++ 1#1 ++ lo).getLsbD j := rfl

theorem encode_illegalRsv15_bit (lo : BitVec 15) (j : Nat) :
    (encode (.illegalRsv15 lo)).getLsbD j = (1#1 ++ lo).getLsbD j := rfl

/-- A word is the concatenation of its fields, R80. -/
theorem word_eq_fields (w : CmdWord) : w = rsvField w ++ pwField w ++ chField w ++ dField w ++ opField w := by
  refine BitVec.eq_of_getLsbD_eq fun j hj => ?_
  simp only [BitVec.getLsbD_append, rsvField, pwField, chField, dField, opField, BitVec.getLsbD_extractLsb']
  interval_cases j <;> simp

/-- RSV = 0 says that bits 12 to 15 are 0, R80. -/
theorem rsvField_eq_zero_iff (w : CmdWord) :
    rsvField w = 0 ↔ w.getLsbD 12 = false ∧ w.getLsbD 13 = false ∧ w.getLsbD 14 = false ∧ w.getLsbD 15 = false := by
  constructor
  · intro h
    have hb : ∀ i, (rsvField w).getLsbD i = false := fun i => by rw [h]; simp
    have h0 := hb 0; have h1 := hb 1; have h2 := hb 2; have h3 := hb 3
    simp only [rsvField, BitVec.getLsbD_extractLsb'] at h0 h1 h2 h3
    exact ⟨by simpa using h0, by simpa using h1, by simpa using h2, by simpa using h3⟩
  · rintro ⟨h0, h1, h2, h3⟩
    refine BitVec.eq_of_getLsbD_eq fun j hj => ?_
    simp only [rsvField, BitVec.getLsbD_extractLsb']
    interval_cases j <;> simpa

/-- With RSV = 0 the decoder reads OP, R112. -/
theorem decodeWord_of_rsv_zero {w : CmdWord} (h : rsvField w = 0) : decodeWord w = decodeOp w := by
  obtain ⟨h0, h1, h2, h3⟩ := (rsvField_eq_zero_iff w).mp h
  simp only [decodeWord, h0, h1, h2, h3, Bool.false_eq_true, if_false]

/-- A word with RSV not 0 is illegal, R84 (b). -/
theorem decodeWord_illegal_of_rsv {w : CmdWord} (h : rsvField w ≠ 0) : (decodeWord w).illegal = true := by
  rw [ne_eq, rsvField_eq_zero_iff] at h
  unfold decodeWord
  repeat' split
  all_goals first | rfl | (exfalso; simp_all)

end Sys2Proof.Laws
end

