-- ==== Sys2Proof/Laws/Engine.lean ====
section
/-! SUPPORT. What a frame cycle and a sequencer cycle can do: to the transaction level, to the handle, and that neither reads the
inputs. -/

namespace Sys2Proof.Laws

open Sys2Proof.Machine Sys2Proof.Safety

variable {hw : Hardware}

/-- Loading a byte enters the first half of its bit 7, R150 (3). -/
theorem beginByte_fields {l : List Byte} {v u : State} (h : beginByte hw l v = .next u) :
    u.phase = .lead ∧ u.byteIdx = v.byteIdx ∧ u.bitIdx = 7 ∧ u.csN = v.csN ∧ u.toArch = v.toArch := by
  unfold beginByte at h; split at h
  · cases h
  · cases h; simp

/-- T_CSD leaves the transaction level alone or, with its last cycle, advances STEP. -/
theorem deselectCycle_arch (v : State) : (deselectCycle hw v).toArch = v.toArch ∨ (deselectCycle hw v).toArch = advanceStep v.toArch := by
  unfold deselectCycle; split
  · exact .inl rfl
  · exact .inr rfl

/-- What a frame cycle can do to the transaction level. -/
theorem frameCycle_arch {l : List Byte} {s u : State} (h : frameCycle hw l s = .next u) :
    u.toArch = s.toArch ∨ u.toArch = appendEvent (.frame l) s.toArch ∨ u.toArch = advanceStep s.toArch ∨ u.toArch = busFrame l s.toArch := by
  unfold frameCycle at h
  split at h
  · cases h; simp [selectDevice]
  · split at h
    · cases h; simp
    · exact .inl (beginByte_fields h).2.2.2.2
  · split at h <;> cases h <;> simp [leadingEdge]
  · split at h
    · cases h; simp
    · unfold trailingEdge at h
      split at h
      · cases h; simp [nextBit]
      · split at h
        · unfold nextByte at h
          dsimp only at h
          split at h
          · have := (beginByte_fields h).2.2.2.2; exact .inl this
          · cases h; simp
        · cases h; simp
  · split at h
    · cases h; simp
    · exact .inl (beginByte_fields h).2.2.2.2
  · split at h <;> cases h
    · simp
    · rcases deselectCycle_arch (hw := hw) { s with toArch := appendEvent (.frame l) s.toArch, csN := true, phase := .deselect, tcnt := 0, byteIdx := 0, bitIdx := 0, gap := 0 } with h | h
      · exact .inr (.inl h)
      · exact .inr (.inr (.inr h))
  · cases h
    rcases deselectCycle_arch (hw := hw) s with h | h
    · exact .inl h
    · exact .inr (.inr (.inl h))

/-- What a sequencer cycle can do to the transaction level, R141. -/
theorem sequencerCycle_arch {s u : State} (h : sequencerCycle hw s = .next u) :
    u.toArch = s.toArch ∨ (∃ l, u.toArch = appendEvent (.frame l) s.toArch) ∨ u.toArch = advanceStep s.toArch ∨ (∃ l, u.toArch = busFrame l s.toArch) ∨
    u.toArch = settleStep s.toArch ∨ (microOpAt s.toArch = some .finish ∧ u.toArch = endStep s.toArch) := by
  obtain ⟨_, _, rfl⟩ | ⟨hop, _, rfl⟩ | ⟨op, l, _, _, _, hf⟩ := sequencerCycle_cases h
  · unfold settleCycle; split
    · exact .inl rfl
    · exact .inr (.inr (.inr (.inr (.inl rfl))))
  · exact .inr (.inr (.inr (.inr (.inr ⟨hop, rfl⟩))))
  · rcases frameCycle_arch hf with h | h | h | h
    · exact .inl h
    · exact .inr (.inl ⟨_, h⟩)
    · exact .inr (.inr (.inl h))
    · exact .inr (.inr (.inr (.inl ⟨_, h⟩)))

/-- A sequencer cycle writes neither the handle nor STARTED nor ERR, R179. -/
theorem sequencerCycle_frame {s u : State} (h : sequencerCycle hw s = .next u) :
    u.dir = s.dir ∧ u.chan = s.chan ∧ u.pwr = s.pwr ∧ u.started = s.started ∧ u.err = s.err := by
  rcases sequencerCycle_arch h with h | ⟨l, h⟩ | h | ⟨l, h⟩ | h | ⟨_, h⟩ <;> rw [h] <;> simp

/-- The state with other input levels. -/
def setPort (p : Inputs) (u : State) : State := { u with port := p }

theorem beginByte_setPort (p : Inputs) (l : List Byte) (v : State) : beginByte hw l (setPort p v) = mapNext (setPort p) (beginByte hw l v) := by
  unfold beginByte setPort; dsimp only
  split
  · rfl
  · simp only [driveEarly, driveBit, mapNext]; split <;> rfl

theorem releaseMosi_setPort (p : Inputs) (v : State) : releaseMosi hw (setPort p v) = setPort p (releaseMosi hw v) := by
  unfold releaseMosi; split <;> rfl

theorem deselectCycle_setPort (p : Inputs) (v : State) : deselectCycle hw (setPort p v) = setPort p (deselectCycle hw v) := by
  unfold deselectCycle setPort; dsimp only; split <;> rfl

theorem frameCycle_setPort (p : Inputs) (l : List Byte) (s : State) : frameCycle hw l (setPort p s) = mapNext (setPort p) (frameCycle hw l s) := by
  have e1 : (setPort p s).phase = s.phase := rfl
  have e2 : (setPort p s).tcnt = s.tcnt := rfl
  have e3 : (setPort p s).gap = s.gap := rfl
  have e4 : (setPort p s).bitIdx = s.bitIdx := rfl
  have e5 : (setPort p s).byteIdx = s.byteIdx := rfl
  unfold frameCycle
  rw [e1, e2, e3]
  split
  · rfl
  · split
    · rfl
    · exact beginByte_setPort p l s
  · split
    · rfl
    · unfold leadingEdge driveAtEdge; simp only [mapNext]; split <;> rfl
  · split
    · rfl
    · unfold trailingEdge
      rw [e4, e5]
      split
      · unfold nextBit driveEarly; simp only [mapNext]; split <;> rfl
      · split
        · unfold nextByte; dsimp only
          rw [show (setPort p s).draws = s.draws from rfl]
          split
          · exact beginByte_setPort p l { s with sclk := hw.cpol, byteIdx := s.byteIdx + 1, bitIdx := 7, tcnt := 0, gap := hw.freeGap s.draws * hw.pSclk, draws := s.draws + 1 }
          · simp only [mapNext]; rw [← releaseMosi_setPort]; rfl
        · simp only [mapNext]; rw [← releaseMosi_setPort]; rfl
  · split
    · simp only [mapNext]; rw [← releaseMosi_setPort]; rfl
    · exact beginByte_setPort p l s
  · split
    · simp only [mapNext]; rw [← releaseMosi_setPort]; rfl
    · simp only [mapNext, deselectDevice]; rw [← deselectCycle_setPort]; rfl
  · simp only [mapNext]; rw [← deselectCycle_setPort]

end Sys2Proof.Laws
end

