-- ==== Sys2Proof/Laws/FrameRun.lean ====
section
/-! SUPPORT. The run of one frame at the bit level (R150, R151): from the cycle in which the micro-step starts to the cycle in
which the next one does, with the bits a device samples on the way and the cycles it takes. -/

namespace Sys2Proof.Laws

open Sys2Proof.Machine Sys2Proof.Safety

/-- A running frame micro-operation of the transaction-level state `a` with byte list `l`. -/
structure FrameOp (hw : Hardware) (a : Arch) (l : List Byte) : Prop where
  busy : a.busy = true
  op : ∃ op, microOpAt a = some op ∧ frameBytes hw a op = .ok l
  short : l.length ≤ blobLen
  pos : 0 < l.length

/-- The engine runs the frame `l` of `a`, no reset comes, and no settle delay runs. -/
structure Engaged (a : Arch) (s : State) : Prop where
  quiet : quiet s = true
  arch : s.toArch = a
  settle : s.settleCnt = 0

/-- Phase `select` after `n` of its cycles. -/
structure AtSelect (hw : Hardware) (a : Arch) (n : Nat) (s : State) : Prop extends Engaged a s where
  phase : s.phase = .select
  tcnt : s.tcnt = n
  csN : s.csN = false
  sclk : s.sclk = hw.cpol
  byteIdx : s.byteIdx = 0

/-- Phase `lead` of bit `i` of byte `b` after `n` of its cycles. -/
structure AtLead (hw : Hardware) (a : Arch) (l : List Byte) (b i n : Nat) (s : State) : Prop extends Engaged a s where
  phase : s.phase = .lead
  tcnt : s.tcnt = n
  csN : s.csN = false
  sclk : s.sclk = hw.cpol
  byteIdx : s.byteIdx.toNat = b
  bitIdx : s.bitIdx.toNat = i
  shift : l[b]? = some s.shift
  mosi : hw.cpha = false → s.mosi = s.shift.getLsbD i

/-- Phase `trail` of bit `i` of byte `b` after `n` of its cycles. -/
structure AtTrail (hw : Hardware) (a : Arch) (l : List Byte) (b i n : Nat) (s : State) : Prop extends Engaged a s where
  phase : s.phase = .trail
  tcnt : s.tcnt = n
  csN : s.csN = false
  sclk : s.sclk = !hw.cpol
  byteIdx : s.byteIdx.toNat = b
  bitIdx : s.bitIdx.toNat = i
  shift : l[b]? = some s.shift
  mosi : s.mosi = s.shift.getLsbD i

/-- Phase `gap` before byte `b`, of `g` cycles, after `n` of them. -/
structure AtGap (hw : Hardware) (a : Arch) (b g n : Nat) (s : State) : Prop extends Engaged a s where
  phase : s.phase = .gap
  tcnt : s.tcnt = n
  csN : s.csN = false
  sclk : s.sclk = hw.cpol
  byteIdx : s.byteIdx.toNat = b
  gap : s.gap = g

/-- Phase `hold` after `n` of its cycles. -/
structure AtHold (hw : Hardware) (a : Arch) (n : Nat) (s : State) : Prop extends Engaged a s where
  phase : s.phase = .hold
  tcnt : s.tcnt = n
  csN : s.csN = false
  sclk : s.sclk = hw.cpol

/-- Phase `deselect` after `n` of its cycles. -/
structure AtDeselect (hw : Hardware) (a : Arch) (n : Nat) (s : State) : Prop extends Engaged a s where
  phase : s.phase = .deselect
  tcnt : s.tcnt = n
  csN : s.csN = true
  sclk : s.sclk = hw.cpol

/-- Between micro-steps, or at rest: the device deselected, no settle delay running, no reset to come. -/
structure AtBoundary (hw : Hardware) (a : Arch) (s : State) : Prop extends Engaged a s where
  phase : s.phase = .boundary
  csN : s.csN = true
  sclk : s.sclk = hw.cpol

variable {hw : Hardware} {a : Arch} {l : List Byte}

theorem samplingEdge_of_sclk {s t : State} (h : t.sclk = s.sclk) : samplingEdge hw s t = false := by
  simp [samplingEdge, h]

theorem samplingEdge_of_csN {s t : State} (h : s.csN = true ∨ t.csN = true) : samplingEdge hw s t = false := by
  rcases h with h | h <;> simp [samplingEdge, h]

/-- Waiting out a phase: if one more cycle in it samples nothing, its last cycle is reached. -/
theorem wait_out {P : Nat → State → Prop} {limit : Nat}
    (h : ∀ n s, n + 1 < limit → P n s → ∃ t, cycle hw s = .next t ∧ samplingEdge hw s t = false ∧ P (n + 1) t)
    (hl : 0 < limit) (s : State) (hs : P 0 s) : ∃ t, RunsTo hw (limit - 1) s t [] ∧ P (limit - 1) t := by
  have key : ∀ n, n < limit → ∃ t, RunsTo hw n s t [] ∧ P n t := by
    intro n
    induction n with
    | zero => exact fun _ => ⟨s, RunsTo.refl hw s, hs⟩
    | succ n ih =>
      intro hn
      obtain ⟨t, hr, hp⟩ := ih (by omega)
      obtain ⟨u, hc, he, hp'⟩ := h n t hn hp
      exact ⟨u, by simpa [he] using hr.trans (RunsTo.one hc), hp'⟩
  exact key (limit - 1) (by omega)

/-- Then one last cycle leaves the phase. -/
theorem wait_and_leave {P : Nat → State → Prop} {Q : State → Prop} {limit : Nat} {bits : List Bool}
    (h : ∀ n s, n + 1 < limit → P n s → ∃ t, cycle hw s = .next t ∧ samplingEdge hw s t = false ∧ P (n + 1) t)
    (hl : 0 < limit)
    (hq : ∀ s, P (limit - 1) s → ∃ t, cycle hw s = .next t ∧ (if samplingEdge hw s t then [s.mosi] else []) = bits ∧ Q t)
    (s : State) (hs : P 0 s) : ∃ t, RunsTo hw limit s t bits ∧ Q t := by
  obtain ⟨t, hr, hp⟩ := wait_out h hl s hs
  obtain ⟨u, hc, hb, hQ⟩ := hq t hp
  refine ⟨u, ?_, hQ⟩
  have := hr.trans (RunsTo.one hc)
  rw [hb, Nat.sub_add_cancel hl] at this
  simpa using this

/-- A cycle of an engaged frame is the frame cycle. -/
theorem FrameOp.cycle (hf : FrameOp hw a l) {s : State} (he : Engaged a s) :
    Machine.cycle hw s = mapNext (passInputs s) (frameCycle hw l s) := by
  obtain ⟨op, hop, hl⟩ := hf.op
  rw [cycle_of_busy (quiet_rst he.quiet) (by rw [he.arch]; exact hf.busy)]
  rw [sequencerCycle_of_frame (by rw [he.arch]; exact hop) (by rw [he.arch]; exact hl)]

theorem FrameOp.next (hf : FrameOp hw a l) {s u : State} (he : Engaged a s) (h : frameCycle hw l s = .next u) :
    Machine.cycle hw s = .next (passInputs s u) := by rw [hf.cycle he, h]; rfl

theorem Engaged.pass {s u : State} (he : Engaged a s) (ha : u.toArch = a) (hs : u.settleCnt = 0) :
    Engaged a (passInputs s u) :=
  ⟨quiet_passInputs u he.quiet, by simpa using ha, by simpa using hs⟩

theorem beginByte_run {s : State} {b : Nat} (he : Engaged a s) {u : State} (hu : u.toArch = a) (hset : u.settleCnt = 0)
    (hcs : u.csN = false) (hsc : u.sclk = hw.cpol) (hb : u.byteIdx.toNat = b) (hlt : b < l.length) :
    ∃ t, mapNext (passInputs s) (beginByte hw l u) = .next t ∧ t.csN = false ∧ t.sclk = hw.cpol ∧ AtLead hw a l b 7 0 t := by
  have hg : l[u.byteIdx.toNat]? = some l[b] := by rw [hb]; exact List.getElem?_eq_getElem hlt
  refine ⟨passInputs s (driveEarly hw { u with shift := l[b], bitIdx := 7, phase := .lead, tcnt := 0 }),
    by simp only [beginByte, hg, mapNext], by simpa using hcs, by simpa using hsc, ?_⟩
  exact {
    toEngaged := he.pass (by simpa using hu) (by simpa using hset)
    phase := by simp
    tcnt := by simp
    csN := by simpa using hcs
    sclk := by simpa using hsc
    byteIdx := by simpa using hb
    bitIdx := by simp
    shift := by simp [hlt]
    mosi := by intro h; simp [driveEarly, h, driveBit] }

/-- R150 (1), (2): from the start of a frame to its first bit. -/
theorem select_run (hf : FrameOp hw a l) {s : State} (hs : AtBoundary hw a s) :
    ∃ t, RunsTo hw (1 + hw.tCss) s t [] ∧ AtLead hw a l 0 7 0 t := by
  have h0 : ∃ t, Machine.cycle hw s = .next t ∧ samplingEdge hw s t = false ∧ AtSelect hw a 0 t := by
    refine ⟨passInputs s (selectDevice hw s), hf.next hs.toEngaged (by simp only [frameCycle, hs.phase]),
      samplingEdge_of_csN (.inl hs.csN), ?_⟩
    exact {
      toEngaged := hs.toEngaged.pass (by simpa [selectDevice] using hs.arch) (by simpa [selectDevice] using hs.settle)
      phase := by simp [selectDevice]
      tcnt := by simp [selectDevice]
      csN := by simp [selectDevice]
      sclk := by simp [selectDevice]
      byteIdx := by simp [selectDevice] }
  obtain ⟨t, hc, hb, ht⟩ := h0
  obtain ⟨u, hr, hu⟩ := wait_and_leave (P := AtSelect hw a) (Q := AtLead hw a l 0 7 0) (limit := hw.tCss) (bits := [])
    (hw := hw)
    (fun n s hn h => by
      refine ⟨passInputs s (floatMosi hw (countCycle s)),
        hf.next h.toEngaged (by simp only [frameCycle, h.phase, h.tcnt, hn, if_true]),
        samplingEdge_of_sclk (by simp), ?_⟩
      exact {
        toEngaged := h.toEngaged.pass (by simpa using h.arch) (by simpa using h.settle)
        phase := by simpa using h.phase
        tcnt := by simp [h.tcnt]
        csN := by simpa using h.csN
        sclk := by simpa using h.sclk
        byteIdx := by simpa using h.byteIdx })
    (by simp [Hardware.tCss])
    (fun s h => by
      obtain ⟨t, hc, hcs, hsc, ht⟩ := beginByte_run (hw := hw) (l := l) (b := 0) h.toEngaged h.arch h.settle h.csN h.sclk
        (by simp [h.byteIdx]) hf.pos
      have hn : ¬ (hw.tCss - 1 + 1 < hw.tCss) := by omega
      refine ⟨t, ?_, ?_, ht⟩
      · rw [hf.cycle h.toEngaged]; simp only [frameCycle, h.phase, h.tcnt, hn, if_false]; exact hc
      · rw [samplingEdge_of_sclk (by rw [hsc, h.sclk])]; rfl)
    t ht
  refine ⟨u, ?_, hu⟩
  simpa [hb] using (RunsTo.one hc).trans hr

/-- The half of a bit's period before the leading edge; with CPHA = 0 the device samples at its end. -/
theorem lead_run (hf : FrameOp hw a l) {b i : Nat} {s : State} (hs : AtLead hw a l b i 0 s) :
    ∃ t, RunsTo hw hw.leadCycles s t (if hw.cpha then [] else [s.shift.getLsbD i]) ∧ t.shift = s.shift ∧
      AtTrail hw a l b i 0 t := by
  obtain ⟨t, hr, hp⟩ := wait_and_leave (P := fun n t => AtLead hw a l b i n t ∧ t.shift = s.shift)
    (Q := fun t => t.shift = s.shift ∧ AtTrail hw a l b i 0 t)
    (limit := hw.leadCycles) (hw := hw) (bits := if hw.cpha then [] else [s.shift.getLsbD i])
    (fun n s' hn ⟨h, hsh⟩ => by
      refine ⟨passInputs s' (countCycle s'), hf.next h.toEngaged (by simp only [frameCycle, h.phase, h.tcnt, hn, if_true]),
        samplingEdge_of_sclk (by simp), ?_, by simpa using hsh⟩
      exact {
        toEngaged := h.toEngaged.pass (by simpa using h.arch) (by simpa using h.settle)
        phase := by simpa using h.phase
        tcnt := by simp [h.tcnt]
        csN := by simpa using h.csN
        sclk := by simpa using h.sclk
        byteIdx := by simpa using h.byteIdx
        bitIdx := by simpa using h.bitIdx
        shift := by simpa using h.shift
        mosi := by simpa using h.mosi })
    (by simp [Hardware.leadCycles])
    (fun s' ⟨h, hsh⟩ => by
      have hn : ¬ (hw.leadCycles - 1 + 1 < hw.leadCycles) := by omega
      refine ⟨passInputs s' (leadingEdge hw s'), ?_, ?_, by simp [leadingEdge, hsh], ?_⟩
      · rw [hf.cycle h.toEngaged]; simp only [frameCycle, h.phase, h.tcnt, hn, if_false, mapNext]
      · cases hc : hw.cpha with
        | true => simp [samplingEdge, leadingEdge, h.sclk, hc]
        | false =>
          have := h.mosi hc
          simp [samplingEdge, leadingEdge, h.sclk, hc, h.csN, this, hsh]
      · exact {
          toEngaged := h.toEngaged.pass (by simpa [leadingEdge] using h.arch) (by simpa [leadingEdge] using h.settle)
          phase := by simp [leadingEdge]
          tcnt := by simp [leadingEdge]
          csN := by simpa [leadingEdge] using h.csN
          sclk := by simp [leadingEdge]
          byteIdx := by simpa [leadingEdge] using h.byteIdx
          bitIdx := by simpa [leadingEdge] using h.bitIdx
          shift := by simpa [leadingEdge] using h.shift
          mosi := by
            cases hc : hw.cpha with
            | true => simp [leadingEdge, driveAtEdge, hc, driveBit, h.bitIdx]
            | false => simpa [leadingEdge, driveAtEdge, hc] using h.mosi hc })
    s ⟨hs, rfl⟩
  exact ⟨t, hr, hp.1, hp.2⟩

/-- The half of a bit's period after the leading edge, up to its last cycle. -/
theorem trail_wait (hf : FrameOp hw a l) {b i : Nat} {s : State} (hs : AtTrail hw a l b i 0 s) :
    ∃ t, RunsTo hw (hw.trailCycles - 1) s t [] ∧ t.shift = s.shift ∧ AtTrail hw a l b i (hw.trailCycles - 1) t := by
  obtain ⟨t, hr, hp⟩ := wait_out (P := fun n t => AtTrail hw a l b i n t ∧ t.shift = s.shift) (limit := hw.trailCycles) (hw := hw)
    (fun n s' hn ⟨h, hsh⟩ => by
      refine ⟨passInputs s' (countCycle s'), hf.next h.toEngaged (by simp only [frameCycle, h.phase, h.tcnt, hn, if_true]),
        samplingEdge_of_sclk (by simp), ?_, by simpa using hsh⟩
      exact {
        toEngaged := h.toEngaged.pass (by simpa using h.arch) (by simpa using h.settle)
        phase := by simpa using h.phase
        tcnt := by simp [h.tcnt]
        csN := by simpa using h.csN
        sclk := by simpa using h.sclk
        byteIdx := by simpa using h.byteIdx
        bitIdx := by simpa using h.bitIdx
        shift := by simpa using h.shift
        mosi := by simpa using h.mosi })
    (by simp [Hardware.trailCycles]) s ⟨hs, rfl⟩
  exact ⟨t, hr, hp.2, hp.1⟩

/-- The bit the device samples at the trailing edge, with CPHA = 1. -/
theorem trailing_sample {s t : State} {b i n : Nat} (h : AtTrail hw a l b i n s) (hcs : t.csN = false)
    (hsc : t.sclk = hw.cpol) :
    (if samplingEdge hw s t then [s.mosi] else []) = if hw.cpha then [s.shift.getLsbD i] else [] := by
  cases hc : hw.cpha with
  | true => simp [samplingEdge, h.csN, hcs, h.sclk, hsc, hc, h.mosi]
  | false => simp [samplingEdge, h.csN, hcs, h.sclk, hsc, hc]

theorem frameCycle_trailing (hf : FrameOp hw a l) {s : State} {b i : Nat}
    (h : AtTrail hw a l b i (hw.trailCycles - 1) s) :
    Machine.cycle hw s = mapNext (passInputs s) (trailingEdge hw l s) := by
  have hn : ¬ (hw.trailCycles - 1 + 1 < hw.trailCycles) := by omega
  rw [hf.cycle h.toEngaged]; simp only [frameCycle, h.phase, h.tcnt, hn, if_false]

/-- A bit that is not the last of its byte, R150 (3): one SCLK period, one bit sampled. -/
theorem bit_run (hf : FrameOp hw a l) {b i : Nat} {s : State} (hs : AtLead hw a l b (i + 1) 0 s) :
    ∃ t, RunsTo hw hw.pSclk s t [s.shift.getLsbD (i + 1)] ∧ t.shift = s.shift ∧ AtLead hw a l b i 0 t := by
  obtain ⟨t, hr, hsh, ht⟩ := lead_run hf hs
  obtain ⟨u, hr', hsh', hu⟩ := trail_wait hf ht
  have hi : u.bitIdx.toNat = i + 1 := hu.bitIdx
  have hne : u.bitIdx ≠ 0 := by intro h; rw [h] at hi; simp at hi
  have hc : Machine.cycle hw u = .next (passInputs u (nextBit hw { u with sclk := hw.cpol })) := by
    rw [frameCycle_trailing hf hu]
    simp only [trailingEdge, hne, ne_eq, not_false_eq_true, if_true, mapNext]
  have hd : (u.bitIdx - 1).toNat = i := by bv_omega
  refine ⟨passInputs u (nextBit hw { u with sclk := hw.cpol }), ?_, ?_, ?_⟩
  rotate_left 1
  · simp [nextBit, hsh', hsh]
  · exact {
      toEngaged := hu.toEngaged.pass (by simpa [nextBit] using hu.arch) (by simpa [nextBit] using hu.settle)
      phase := by simp [nextBit]
      tcnt := by simp [nextBit]
      csN := by simpa [nextBit] using hu.csN
      sclk := by simp [nextBit]
      byteIdx := by simpa [nextBit] using hu.byteIdx
      bitIdx := by simpa [nextBit] using hd
      shift := by simpa [nextBit] using hu.shift
      mosi := by
        intro hc
        have h7 : (7 + u.bitIdx.toNat) % 8 = i := by have := u.bitIdx.isLt; omega
        simp [nextBit, driveEarly, hc, driveBit, h7] }
  · have h1 := RunsTo.one hc
    rw [trailing_sample hu (by simpa [nextBit] using hu.csN) (by simp [nextBit])] at h1
    rw [← hsh, ← hsh'] at hr ⊢
    have := (hr.trans hr').trans h1
    have hlen : hw.leadCycles + (hw.trailCycles - 1) + 1 = hw.pSclk := by
      simp only [Hardware.pSclk, Hardware.trailCycles]; omega
    rw [hlen] at this
    cases hc : hw.cpha <;> simpa [hc] using this

/-- The bits of a byte below position `n`, highest first. -/
def lowBits (x : Byte) : Nat → List Bool
  | 0 => []
  | n + 1 => x.getLsbD n :: lowBits x n

theorem msbFirst_eq (x : Byte) : msbFirst x = lowBits x 8 := by
  simp [msbFirst, lowBits, List.range, List.range.loop]

/-- From bit `i` to bit 0 of a byte. -/
theorem bits_run (hf : FrameOp hw a l) {b i : Nat} {s : State} (hs : AtLead hw a l b i 0 s) :
    ∃ t, RunsTo hw (i * hw.pSclk) s t ((lowBits s.shift (i + 1)).dropLast) ∧ t.shift = s.shift ∧ AtLead hw a l b 0 0 t := by
  induction i generalizing s with
  | zero => exact ⟨s, by simpa [lowBits] using RunsTo.refl hw s, rfl, hs⟩
  | succ i ih =>
    obtain ⟨t, hr, hsh, ht⟩ := bit_run hf hs
    obtain ⟨u, hr', hsh', hu⟩ := ih ht
    refine ⟨u, ?_, hsh'.trans hsh, hu⟩
    have := hr.trans hr'
    rw [hsh] at this
    simpa [lowBits, Nat.succ_mul, Nat.add_comm] using this

/-- The last bit of a byte, up to the cycle before its trailing edge. -/
theorem lastBit_run (hf : FrameOp hw a l) {b : Nat} {s : State} (hs : AtLead hw a l b 0 0 s) :
    ∃ t, RunsTo hw (hw.pSclk - 1) s t (if hw.cpha then [] else [s.shift.getLsbD 0]) ∧ t.shift = s.shift ∧
      AtTrail hw a l b 0 (hw.trailCycles - 1) t := by
  obtain ⟨t, hr, hsh, ht⟩ := lead_run hf hs
  obtain ⟨u, hr', hsh', hu⟩ := trail_wait hf ht
  refine ⟨u, ?_, hsh'.trans hsh, hu⟩
  have hlen : hw.leadCycles + (hw.trailCycles - 1) = hw.pSclk - 1 := by
    simp only [Hardware.pSclk, Hardware.trailCycles]; omega
  simpa [hlen] using hr.trans hr'

/-- A whole byte up to the cycle before its last trailing edge. -/
theorem byte_run (hf : FrameOp hw a l) {b : Nat} {s : State} (hs : AtLead hw a l b 7 0 s) :
    ∃ t bits, RunsTo hw (8 * hw.pSclk - 1) s t bits ∧ t.shift = s.shift ∧ AtTrail hw a l b 0 (hw.trailCycles - 1) t ∧
      bits ++ (if hw.cpha then [t.shift.getLsbD 0] else []) = msbFirst s.shift := by
  obtain ⟨t, hr, hsh, ht⟩ := bits_run hf hs
  obtain ⟨u, hr', hsh', hu⟩ := lastBit_run hf ht
  have hp : 1 ≤ hw.pSclk := by simp only [Hardware.pSclk, Hardware.trailCycles]; omega
  have hlen : 7 * hw.pSclk + (hw.pSclk - 1) = 8 * hw.pSclk - 1 := by omega
  refine ⟨u, _, by simpa only [hlen] using hr.trans hr', hsh'.trans hsh, hu, ?_⟩
  rw [hsh', hsh, msbFirst_eq]
  cases hc : hw.cpha <;> simp [lowBits]

/-- After a byte that is not the last: the next byte's first bit, at once or after a gap (R150). -/
theorem nextByte_run (hf : FrameOp hw a l) {b : Nat} {s : State} (hs : AtTrail hw a l b 0 (hw.trailCycles - 1) s)
    (hb : b + 1 < l.length) :
    ∃ n t, RunsTo hw n s t (if hw.cpha then [s.shift.getLsbD 0] else []) ∧ AtLead hw a l (b + 1) 7 0 t ∧
      ((∀ k, hw.freeGap k = 0) → n = 1) ∧ 1 ≤ n := by
  have h0 : s.bitIdx = 0 := by have := hs.bitIdx; bv_omega
  have hbi : s.byteIdx.toNat = b := hs.byteIdx
  have hlen : l.length ≤ 48 := hf.short
  have hinc : (s.byteIdx + 1).toNat = b + 1 := by bv_omega
  have hcyc : Machine.cycle hw s = mapNext (passInputs s) (nextByte hw l { s with sclk := hw.cpol }) := by
    rw [frameCycle_trailing hf hs]
    simp only [trailingEdge, h0, hbi, hb, ne_eq, not_true_eq_false, if_false, if_true]
  by_cases hg : hw.freeGap s.draws * hw.pSclk = 0
  · obtain ⟨t, hc, hcs, hsc, ht⟩ := beginByte_run (hw := hw) (l := l) (b := b + 1) (s := s)
      (u := { s with sclk := hw.cpol, byteIdx := s.byteIdx + 1, bitIdx := 7, tcnt := 0, gap := hw.freeGap s.draws * hw.pSclk,
                     draws := s.draws + 1 })
      hs.toEngaged hs.arch hs.settle hs.csN rfl hinc hb
    have hc' : Machine.cycle hw s = .next t := by
      rw [hcyc]; simp only [nextByte, hg, if_true]; rw [hg] at hc; exact hc
    refine ⟨1, t, ?_, ht, fun _ => rfl, Nat.le_refl 1⟩
    have := RunsTo.one hc'
    rwa [trailing_sample hs hcs hsc] at this
  · have hc' : Machine.cycle hw s = .next (passInputs s (releaseMosi hw
        { s with sclk := hw.cpol, byteIdx := s.byteIdx + 1, bitIdx := 7, tcnt := 0, gap := hw.freeGap s.draws * hw.pSclk,
                 draws := s.draws + 1, phase := .gap })) := by
      rw [hcyc]; simp only [nextByte, hg, if_false, mapNext]
    have hgap : AtGap hw a (b + 1) (hw.freeGap s.draws * hw.pSclk) 0 (passInputs s (releaseMosi hw
        { s with sclk := hw.cpol, byteIdx := s.byteIdx + 1, bitIdx := 7, tcnt := 0, gap := hw.freeGap s.draws * hw.pSclk,
                 draws := s.draws + 1, phase := .gap })) := {
      toEngaged := hs.toEngaged.pass (by simpa using hs.arch) (by simpa using hs.settle)
      phase := by simp
      tcnt := by simp
      csN := by simpa using hs.csN
      sclk := by simp
      byteIdx := by simpa using hinc
      gap := by simp }
    obtain ⟨t, hr, ht⟩ := wait_and_leave (hw := hw) (P := AtGap hw a (b + 1) (hw.freeGap s.draws * hw.pSclk))
      (Q := AtLead hw a l (b + 1) 7 0) (limit := hw.freeGap s.draws * hw.pSclk) (bits := [])
      (fun n s' hn h => by
        refine ⟨passInputs s' (releaseMosi hw (countCycle s')),
          hf.next h.toEngaged (by simp only [frameCycle, h.phase, h.tcnt, h.gap, hn, if_true]),
          samplingEdge_of_sclk (by simp), ?_⟩
        exact {
          toEngaged := h.toEngaged.pass (by simpa using h.arch) (by simpa using h.settle)
          phase := by simpa using h.phase
          tcnt := by simp [h.tcnt]
          csN := by simpa using h.csN
          sclk := by simpa using h.sclk
          byteIdx := by simpa using h.byteIdx
          gap := by simpa using h.gap })
      (by omega)
      (fun s' h => by
        obtain ⟨t, hc, hcs, hsc, ht⟩ := beginByte_run (hw := hw) (l := l) (b := b + 1) h.toEngaged h.arch h.settle h.csN h.sclk
          h.byteIdx hb
        have hn : ¬ (hw.freeGap s.draws * hw.pSclk - 1 + 1 < hw.freeGap s.draws * hw.pSclk) := by omega
        refine ⟨t, ?_, ?_, ht⟩
        · rw [hf.cycle h.toEngaged]; simp only [frameCycle, h.phase, h.tcnt, h.gap, hn, if_false]; exact hc
        · rw [samplingEdge_of_sclk (by rw [hsc, h.sclk])]; rfl)
      _ hgap
    refine ⟨1 + hw.freeGap s.draws * hw.pSclk, t, ?_, ht, fun hz => absurd (by rw [hz]; simp) hg, by omega⟩
    · have h1 := RunsTo.one hc'
      rw [trailing_sample hs (by simpa using hs.csN) (by simp)] at h1
      simpa using h1.trans hr

/-- The bytes from `b` on, to the hold time after the last. -/
theorem bytes_run (hf : FrameOp hw a l) (d : Nat) {b : Nat} (hd : b + d + 1 = l.length) {s : State}
    (hs : AtLead hw a l b 7 0 s) :
    ∃ n t, RunsTo hw n s t (wireBits (l.drop b)) ∧ AtHold hw a 0 t ∧
      ((∀ k, hw.freeGap k = 0) → n = 8 * (d + 1) * hw.pSclk) := by
  have hp : 1 ≤ hw.pSclk := by simp only [Hardware.pSclk, Hardware.trailCycles]; omega
  induction d generalizing b s with
  | zero =>
    obtain ⟨t, bits, hr, hsh, ht, hbits⟩ := byte_run hf hs
    have h0 : t.bitIdx = 0 := by have := ht.bitIdx; bv_omega
    have hbt : t.byteIdx.toNat = b := ht.byteIdx
    have hnb : ¬ (b + 1 < l.length) := by omega
    have hc : Machine.cycle hw t = .next (passInputs t (releaseMosi hw { t with sclk := hw.cpol, phase := .hold, tcnt := 0 })) := by
      rw [frameCycle_trailing hf ht]
      simp only [trailingEdge, h0, hbt, hnb, ne_eq, not_true_eq_false, if_false, mapNext]
    refine ⟨8 * hw.pSclk - 1 + 1, passInputs t (releaseMosi hw { t with sclk := hw.cpol, phase := .hold, tcnt := 0 }),
      ?_, ?_, fun _ => by omega⟩
    rotate_left 1
    · exact {
        toEngaged := ht.toEngaged.pass (by simpa using ht.arch) (by simpa using ht.settle)
        phase := by simp
        tcnt := by simp
        csN := by simpa using ht.csN
        sclk := by simp }
    · have h1 := RunsTo.one hc
      rw [trailing_sample ht (by simpa using ht.csN) (by simp)] at h1
      have h2 := hr.trans h1
      rw [hbits] at h2
      have : l.drop b = [s.shift] := by
        have hlt : b < l.length := by omega
        have := hs.shift
        rw [List.getElem?_eq_getElem hlt] at this
        rw [List.drop_eq_getElem_cons hlt, Option.some.inj this, List.drop_of_length_le (by omega)]
      simpa [this, wireBits] using h2
  | succ d ih =>
    obtain ⟨t, bits, hr, hsh, ht, hbits⟩ := byte_run hf hs
    obtain ⟨m, u, hr', hu, hm, hm1⟩ := nextByte_run hf ht (by omega)
    obtain ⟨n, v, hr'', hv, hn⟩ := ih (b := b + 1) (by omega) hu
    refine ⟨8 * hw.pSclk - 1 + m + n, v, ?_, hv, ?_⟩
    rotate_left 1
    · intro hz; rw [hm hz, hn hz]
      have : 8 * (d + 1 + 1) * hw.pSclk = 8 * hw.pSclk + 8 * (d + 1) * hw.pSclk := by ring
      omega
    · have h2 := (hr.trans hr').trans hr''
      rw [hbits] at h2
      have : l.drop b = s.shift :: l.drop (b + 1) := by
        have hlt : b < l.length := by omega
        have := hs.shift
        rw [List.getElem?_eq_getElem hlt] at this
        rw [List.drop_eq_getElem_cons hlt, Option.some.inj this]
      simpa [this, wireBits] using h2

/-- R150 (4) to (6): from the hold time to the next micro-step. -/
theorem deselect_run (hf : FrameOp hw a l) {s : State} (hs : AtHold hw a 0 s) :
    ∃ t, RunsTo hw (hw.tCsh + hw.tCsd - 1) s t [] ∧ AtBoundary hw (busFrame l a) t := by
  have hfin : ∀ {s u : State}, Engaged a s ∨ Engaged (appendEvent (.frame l) a) s → u.toArch = appendEvent (.frame l) a →
      u.settleCnt = 0 → u.csN = true → u.sclk = hw.cpol → u.tcnt + 1 = hw.tCsd →
      AtBoundary hw (busFrame l a) (passInputs s (deselectCycle hw u)) := by
    intro s u he ha hset hcs hsc ht
    have hn : ¬ (u.tcnt + 1 < hw.tCsd) := by omega
    have hq : quiet s = true := by rcases he with h | h <;> exact h.quiet
    exact {
      quiet := quiet_passInputs _ hq
      arch := by simp [deselectCycle, hn, ha, busFrame]
      settle := by simp [deselectCycle, hn, hset]
      phase := by simp [deselectCycle, hn]
      csN := by simp [deselectCycle, hn, hcs]
      sclk := by simp [deselectCycle, hn, hsc] }
  have hmid : ∀ {s u : State} {n : Nat}, Engaged a s ∨ Engaged (appendEvent (.frame l) a) s →
      u.toArch = appendEvent (.frame l) a → u.settleCnt = 0 → u.csN = true → u.sclk = hw.cpol → u.phase = .deselect →
      u.tcnt = n → n + 1 < hw.tCsd →
      AtDeselect hw (appendEvent (.frame l) a) (n + 1) (passInputs s (deselectCycle hw u)) := by
    intro s u n he ha hset hcs hsc hph ht hn
    have hn' : u.tcnt + 1 < hw.tCsd := by omega
    have hq : quiet s = true := by rcases he with h | h <;> exact h.quiet
    exact {
      quiet := quiet_passInputs _ hq
      arch := by simp [deselectCycle, hn', ha]
      settle := by simp [deselectCycle, hn', hset]
      phase := by simp [deselectCycle, hn', hph]
      tcnt := by simp [deselectCycle, ht, hn]
      csN := by simp [deselectCycle, hn', hcs]
      sclk := by simp [deselectCycle, hn', hsc] }
  have hf' : FrameOp hw (appendEvent (.frame l) a) l := by
    obtain ⟨op, hop, hl⟩ := hf.op
    exact ⟨hf.busy, ⟨op, hop, by rw [← hl]; exact frameBytes_congr rfl rfl rfl op⟩, hf.short, hf.pos⟩
  have hpos : 0 < hw.tCsd := by simp [Hardware.tCsd]
  have hdes : ∀ d n s, n + d + 1 = hw.tCsd → AtDeselect hw (appendEvent (.frame l) a) n s →
      ∃ t, RunsTo hw (d + 1) s t [] ∧ AtBoundary hw (busFrame l a) t := by
    intro d
    induction d with
    | zero =>
      intro n s hn h
      have hc : Machine.cycle hw s = .next (passInputs s (deselectCycle hw s)) := by
        rw [hf'.cycle h.toEngaged]; simp only [frameCycle, h.phase, mapNext]
      refine ⟨_, ?_, hfin (.inr h.toEngaged) h.arch h.settle h.csN h.sclk (by rw [h.tcnt]; omega)⟩
      have := RunsTo.one hc
      rwa [samplingEdge_of_csN (.inl h.csN)] at this
    | succ d ih =>
      intro n s hn h
      have hc : Machine.cycle hw s = .next (passInputs s (deselectCycle hw s)) := by
        rw [hf'.cycle h.toEngaged]; simp only [frameCycle, h.phase, mapNext]
      obtain ⟨t, hr, ht⟩ := ih (n + 1) _ (by omega)
        (hmid (.inr h.toEngaged) h.arch h.settle h.csN h.sclk h.phase h.tcnt (by omega))
      refine ⟨t, ?_, ht⟩
      have := RunsTo.one hc
      rw [samplingEdge_of_csN (.inl h.csN)] at this
      have := this.trans hr
      rw [Nat.add_comm] at this
      simpa using this
  obtain ⟨t, hr, ht⟩ := wait_out (hw := hw) (P := AtHold hw a) (limit := hw.tCsh)
    (fun n s' hn h => by
      refine ⟨passInputs s' (releaseMosi hw (countCycle s')),
        hf.next h.toEngaged (by simp only [frameCycle, h.phase, h.tcnt, hn, if_true]),
        samplingEdge_of_sclk (by simp), ?_⟩
      exact {
        toEngaged := h.toEngaged.pass (by simpa using h.arch) (by simpa using h.settle)
        phase := by simpa using h.phase
        tcnt := by simp [h.tcnt]
        csN := by simpa using h.csN
        sclk := by simpa using h.sclk })
    (by simp [Hardware.tCsh]) s hs
  have hn : ¬ (hw.tCsh - 1 + 1 < hw.tCsh) := by omega
  have hc : Machine.cycle hw t = .next (passInputs t (deselectDevice hw l t)) := by
    rw [hf.cycle ht.toEngaged]; simp only [frameCycle, ht.phase, ht.tcnt, hn, if_false, mapNext]
  have hcsh : 1 ≤ hw.tCsh := by simp [Hardware.tCsh]
  have h1 := hr.trans (RunsTo.one hc)
  have hcs : (passInputs t (deselectDevice hw l t)).csN = true := by
    simp only [deselectDevice, deselectCycle, passInputs_csN, floatMosi_csN]; split <;> rfl
  rw [samplingEdge_of_csN (.inr hcs), Nat.sub_add_cancel hcsh] at h1
  let u : State := { t with
    toArch := appendEvent (.frame l) t.toArch
    csN := true
    phase := .deselect
    tcnt := 0
    byteIdx := 0
    bitIdx := 0
    gap := 0 }
  have ha : u.toArch = appendEvent (.frame l) a := by simp [u, ht.arch]
  by_cases h2 : hw.tCsd = 1
  · refine ⟨passInputs t (deselectDevice hw l t), by simpa [h2] using h1, ?_⟩
    exact hfin (u := u) (.inl ht.toEngaged) ha ht.settle rfl ht.sclk (by simp [u, h2])
  · obtain ⟨v, hr', hv⟩ := hdes (hw.tCsd - 2) 1 _ (by omega)
      (hmid (u := u) (n := 0) (.inl ht.toEngaged) ha ht.settle rfl ht.sclk rfl rfl (by omega))
    refine ⟨v, ?_, hv⟩
    have := h1.trans hr'
    have hlen : hw.tCsh + (hw.tCsd - 2 + 1) = hw.tCsh + hw.tCsd - 1 := by omega
    rw [hlen] at this
    simpa using this

/-- The run of a frame: the bits on the wire are its bytes, most significant bit first, and the transaction level's step of the
frame is done at its end (R140, R150); without gaps it takes the cycles of R156. -/
theorem frame_run (hf : FrameOp hw a l) {s : State} (hs : AtBoundary hw a s) :
    ∃ n t, RunsTo hw n s t (wireBits l) ∧ AtBoundary hw (busFrame l a) t ∧ 0 < n ∧
      ((∀ k, hw.freeGap k = 0) → n = frameCycles hw l.length) := by
  have hpos := hf.pos
  obtain ⟨t, hr, ht⟩ := select_run hf hs
  obtain ⟨n, u, hr', hu, hn⟩ := bytes_run hf (l.length - 1) (b := 0) (by omega) ht
  obtain ⟨v, hr'', hv⟩ := deselect_run hf hu
  refine ⟨_, v, by simpa using (hr.trans hr').trans hr'', hv, by omega, ?_⟩
  intro hz
  rw [hn hz, Nat.sub_add_cancel hpos, frameCycles]
  have : 1 ≤ hw.tCsd := by simp [Hardware.tCsd]
  omega

end Sys2Proof.Laws
end

