-- ==== Sys2Proof/Laws/SettleRun.lean ====
section
/-! SUPPORT. The runs of SETTLE (R142) and of END (R148). -/

namespace Sys2Proof.Laws

open Sys2Proof.Machine Sys2Proof.Safety

variable {hw : Hardware} {a : Arch}

/-- SETTLE after `n` of its cycles. -/
structure AtSettle (hw : Hardware) (a : Arch) (n : Nat) (s : State) : Prop where
  quiet : quiet s = true
  arch : s.toArch = a
  phase : s.phase = .boundary
  count : s.settleCnt = n
  csN : s.csN = true
  sclk : s.sclk = hw.cpol

theorem settle_next (hb : a.busy = true) (hop : microOpAt a = some .settle) {n : Nat} {s : State} (h : AtSettle hw a n s) :
    cycle hw s = .next (passInputs s (settleCycle hw s)) := by
  rw [cycle_of_busy (quiet_rst h.quiet) (by rw [h.arch]; exact hb),
    sequencerCycle_of_settle (by rw [h.arch]; exact hop) h.phase]
  rfl

/-- SETTLE holds CS_N = 1 for SETTLE_CYCLES cycles and then appends its event, R142. -/
theorem settle_run (hb : a.busy = true) (hop : microOpAt a = some .settle) {s : State} (hs : AtBoundary hw a s) :
    ∃ t, RunsTo hw hw.settleCycles s t [] ∧ AtBoundary hw (settleStep a) t := by
  have h0 : AtSettle hw a 0 s := ⟨hs.quiet, hs.arch, hs.phase, hs.settle, hs.csN, hs.sclk⟩
  refine wait_and_leave (P := AtSettle hw a) (Q := AtBoundary hw (settleStep a)) (hw := hw) (bits := [])
    (fun n s hn h => ?_) (by simp [Hardware.settleCycles]) (fun s h => ?_) s h0
  · refine ⟨_, settle_next hb hop h, samplingEdge_of_csN (.inl h.csN), ?_⟩
    exact {
      quiet := quiet_passInputs _ h.quiet
      arch := by simp [settleCycle, h.count, hn, h.arch]
      phase := by simp [settleCycle, h.count, hn, h.phase]
      count := by simp [settleCycle, h.count, hn]
      csN := by simp [settleCycle, h.count, hn, h.csN]
      sclk := by simp [settleCycle, h.count, hn, h.sclk] }
  · have hn : ¬ (hw.settleCycles - 1 + 1 < hw.settleCycles) := by omega
    refine ⟨_, settle_next hb hop h, by rw [samplingEdge_of_csN (.inl h.csN)]; rfl, ?_⟩
    exact {
      quiet := quiet_passInputs _ h.quiet
      arch := by simp [settleCycle, h.count, hn, h.arch]
      settle := by simp [settleCycle, h.count, hn]
      phase := by simp [settleCycle, h.count, hn, h.phase]
      csN := by simp [settleCycle, h.count, hn, h.csN]
      sclk := by simp [settleCycle, h.count, hn, h.sclk] }

/-- END takes one cycle and clears BUSY, R148. -/
theorem end_run (hb : a.busy = true) (hop : microOpAt a = some .finish) {s : State} (hs : AtBoundary hw a s) :
    ∃ t, RunsTo hw 1 s t [] ∧ AtBoundary hw (endStep a) t := by
  have hc : cycle hw s = .next (passInputs s (endCycle hw s)) := by
    rw [cycle_of_busy (quiet_rst hs.quiet) (by rw [hs.arch]; exact hb),
      sequencerCycle_of_finish (by rw [hs.arch]; exact hop) hs.phase]
    rfl
  refine ⟨_, by simpa [samplingEdge_of_csN (hw := hw) (.inl hs.csN)] using RunsTo.one hc, ?_⟩
  exact {
    quiet := quiet_passInputs _ hs.quiet
    arch := by simp [endCycle, hs.arch]
    settle := by simp [endCycle, hs.settle]
    phase := by simp [endCycle, hs.phase]
    csN := by simp [endCycle, hs.csN]
    sclk := by simp [endCycle, hs.sclk] }

/-- A state that meets the invariant, between micro-steps, with no settle delay running and no reset to come. -/
theorem atBoundary_of_inv {s : State} (hi : Inv hw s) (hq : Safety.quiet s = true) (hp : s.phase = .boundary)
    (hs : s.settleCnt = 0) : AtBoundary hw s.toArch s where
  quiet := hq
  arch := rfl
  settle := hs
  phase := hp
  csN := by rw [hi.chip_select, hp]; rfl
  sclk := by rw [hi.clock, hp]; rfl

/-- A ready machine that meets the invariant is at rest. -/
theorem inv_ready {s : State} (hi : Inv hw s) (hb : s.busy = false) : s.phase = .boundary ∧ s.settleCnt = 0 := by
  constructor
  · by_contra h; have := (hi.engaged h).1; simp [hb] at this
  · by_contra h
    obtain ⟨_, hop⟩ := hi.settling h
    have hq : s.seq = .none := by
      by_contra hq; have := hi.busy_iff.mpr hq; simp [hb] at this
    simp [microOpAt, hq, seqRom] at hop

end Sys2Proof.Laws
end

