-- ==== Sys2Proof/Laws/Invariant.lean ====
section
/-! SUPPORT. Working with the invariant: its transaction-level part, how it is built for a state between micro-steps and for one
inside a frame, and that a frame cycle keeps it. -/

namespace Sys2Proof.Laws

open Sys2Proof.Machine Sys2Proof.Safety

variable {hw : Hardware}

/-- The transaction-level part of the invariant. -/
structure AInv (hw : Hardware) (a : Arch) : Prop where
  busy_iff : a.busy = true ↔ a.seq ≠ .none
  idle_step : a.seq = .none → a.stepIdx = 0
  slot_exists : a.busy = true → (microOpAt a).isSome = true
  busy_started : a.busy = true → a.started = true
  busy_ok : a.busy = true → a.err = .ok
  chan_in_range : a.started = true → a.chan.toNat < nCh
  pwr_in_range : a.started = true → a.dir = .transmit → a.pwr.toNat < nPwr
  history : ∀ e ∈ a.hist, eventLegal hw e

theorem inv_a {s : State} (h : Inv hw s) : AInv hw s.toArch :=
  ⟨h.busy_iff, h.idle_step, h.slot_exists, h.busy_started, h.busy_ok, h.chan_in_range, h.pwr_in_range, h.history⟩

/-- The invariant of a state between micro-steps. -/
theorem inv_boundary {s : State} (ha : AInv hw s.toArch) (hp : s.phase = .boundary) (ht : s.tcnt = 0) (hc : s.csN = true)
    (hk : s.sclk = hw.cpol) (hb : s.byteIdx = 0) (hi : s.bitIdx = 0)
    (hs : s.settleCnt ≠ 0 → microOpAt s.toArch = some .settle) (hsc : s.settleCnt < hw.settleCycles) : Inv hw s where
  busy_iff := ha.busy_iff
  idle_step := ha.idle_step
  slot_exists := ha.slot_exists
  busy_started := ha.busy_started
  busy_ok := ha.busy_ok
  chan_in_range := ha.chan_in_range
  pwr_in_range := ha.pwr_in_range
  history := ha.history
  chip_select := by simp [hp, selected, hc]
  clock := by simp [hp, hk]
  engaged := by simp [hp]
  settling := fun h => ⟨hp, hs h⟩
  settle_count := hsc
  phase_count := by simp [hp, phaseCycles, ht]
  byte_loaded := by simp [hp]
  bit_before_edge := by simp [hp]
  bit_after_edge := by simp [hp]
  at_select := by simp [hp]
  at_gap := by simp [hp]
  at_hold := by simp [hp]
  at_rest := fun _ => ⟨hb, hi⟩

/-- The inputs are not part of the invariant. -/
theorem inv_ports {s : State} (p : Inputs) (ps : List Inputs) (h : Inv hw s) : Inv hw { s with port := p, upcoming := ps } :=
  ⟨h.1, h.2, h.3, h.4, h.5, h.6, h.7, h.8, h.9, h.10, h.11, h.12, h.13, h.14, h.15, h.16, h.17, h.18, h.19, h.20, h.21⟩

theorem inv_pass {s : State} (u : State) (h : Inv hw s) : Inv hw (passInputs u s) := inv_ports _ _ h

/-- The pins and the counters between micro-steps. -/
structure Rest (hw : Hardware) (s : State) : Prop where
  tcnt : s.tcnt = 0
  csN : s.csN = true
  sclk : s.sclk = hw.cpol
  byteIdx : s.byteIdx = 0
  bitIdx : s.bitIdx = 0

theorem inv_rest {s : State} (h : Inv hw s) (hp : s.phase = .boundary) : Rest hw s where
  tcnt := by have := h.phase_count; simp [phaseCycles, hp] at this; exact this
  csN := by rw [h.chip_select, hp]; rfl
  sclk := by rw [h.clock, hp]; rfl
  byteIdx := (h.at_rest (by rw [hp]; rfl)).1
  bitIdx := (h.at_rest (by rw [hp]; rfl)).2

theorem prefix_take (l : List Byte) (n : Nat) : (l.take n).isPrefixOf l = true := by
  rw [List.isPrefixOf_iff_prefix]; exact List.take_prefix n l

/-- A cut is legal, R201. -/
theorem cut_legal {l : List Byte} (n : Nat) (hn : n ≤ 8 * l.length) :
    truncationAllowed l (truncation l n) = true := by
  simp only [truncation, truncationAllowed, prefix_take, Bool.true_and, Bool.or_eq_true, beq_iff_eq, decide_eq_true_eq, List.length_take]
  by_cases h : n / 8 < l.length
  · right; omega
  · left; have : n = 8 * l.length := by omega
    simp [Fin.ofNat, this]

/-- No more bits are driven than the frame has. -/
theorem bits_le {s : State} (h : Inv hw s) (hc : s.csN = false) :
    bitsDriven hw (runningFrame hw s.toArch) s ≤ 8 * (runningFrame hw s.toArch).length := by
  have hne : s.phase ≠ .boundary := by intro hp; have := (inv_rest h hp).csN; simp [hc] at this
  have := (h.engaged hne).2
  have hb := s.bitIdx.isLt
  have hcut : cutBit hw s ≤ 1 := by unfold cutBit; split <;> simp
  unfold bitsDriven
  split <;> omega

theorem selected_engaged {s : State} (h : Inv hw s) (hc : s.csN = false) : s.phase ≠ .boundary := by
  intro hp; have := (inv_rest h hp).csN; simp [hc] at this

theorem settleCnt_zero {s : State} (h : Inv hw s) (hop : microOpAt s.toArch ≠ some .settle) : s.settleCnt = 0 := by
  by_contra hne; exact hop (h.settling hne).2

theorem handle_ok {s : State} (h : Inv hw s) (hb : s.busy = true) : HandleOk s.toArch :=
  ⟨h.chan_in_range (h.busy_started hb), h.pwr_in_range (h.busy_started hb)⟩

/-- The invariant of a state inside a frame, from that of the state before. -/
theorem inv_frame {s u : State} (h : Inv hw s) (ha : u.toArch = s.toArch) (hb : s.busy = true)
    (hf : ∃ op l, microOpAt s.toArch = some op ∧ frameBytes hw s.toArch op = .ok l)
    (hset : u.settleCnt = s.settleCnt)
    (hp : u.phase ≠ .boundary)
    (hcs : u.csN = !selected u.phase)
    (hck : u.sclk = if u.phase = .trail then !hw.cpol else hw.cpol)
    (hlen : u.byteIdx.toNat < (runningFrame hw s.toArch).length)
    (hpc : u.tcnt < phaseCycles hw u)
    (hbl : u.phase = .lead ∨ u.phase = .trail → (runningFrame hw s.toArch)[u.byteIdx.toNat]? = some u.shift)
    (h1 : u.phase = .lead → hw.cpha = false → u.mosi = u.shift.getLsbD u.bitIdx.toNat)
    (h2 : u.phase = .trail → u.mosi = u.shift.getLsbD u.bitIdx.toNat)
    (h3 : u.phase = .select → u.byteIdx = 0 ∧ u.bitIdx = 7)
    (h4 : u.phase = .gap → u.bitIdx = 7)
    (h5 : u.phase = .hold → u.byteIdx.toNat + 1 = (runningFrame hw s.toArch).length ∧ u.bitIdx = 0)
    (h6 : u.phase = .deselect → u.byteIdx = 0 ∧ u.bitIdx = 0) : Inv hw u := by
  obtain ⟨op, l, hop, hl⟩ := hf
  have hs0 : s.settleCnt = 0 := settleCnt_zero h (by rw [hop]; rintro ⟨⟩; cases hl)
  exact {
  busy_iff := by rw [ha]; exact h.busy_iff
  idle_step := by rw [ha]; exact h.idle_step
  slot_exists := by rw [ha]; exact h.slot_exists
  busy_started := by rw [ha]; exact h.busy_started
  busy_ok := by rw [ha]; exact h.busy_ok
  chan_in_range := by rw [ha]; exact h.chan_in_range
  pwr_in_range := by rw [ha]; exact h.pwr_in_range
  history := by rw [ha]; exact h.history
  chip_select := hcs
  clock := hck
  engaged := fun _ => by rw [ha]; exact ⟨hb, hlen⟩
  settling := fun hn => absurd (hset.trans hs0) hn
  settle_count := by rw [hset]; exact h.settle_count
  phase_count := hpc
  byte_loaded := by rw [ha]; exact hbl
  bit_before_edge := h1
  bit_after_edge := h2
  at_select := h3
  at_gap := h4
  at_hold := by rw [ha]; exact h5
  at_rest := fun hr => by
    cases hph : u.phase <;> simp [hph, selected] at hr hp
    exact h6 hph }

/-- One more cycle in a phase keeps the invariant. -/
theorem inv_count {s u : State} (h : Inv hw s) (hb : s.busy = true)
    (hf : ∃ op l, microOpAt s.toArch = some op ∧ frameBytes hw s.toArch op = .ok l)
    (hp : s.phase ≠ .boundary)
    (hu : u = { s with tcnt := s.tcnt + 1, mosi := u.mosi, draws := u.draws }) (hm : s.phase = .lead ∨ s.phase = .trail → u.mosi = s.mosi)
    (hn : s.tcnt + 1 < phaseCycles hw s) : Inv hw u := by
  rw [hu]
  refine inv_frame h rfl hb hf rfl hp h.chip_select h.clock (h.engaged hp).2 hn h.byte_loaded ?_ ?_ h.at_select h.at_gap h.at_hold ?_
  · intro hl hc; exact (hm (.inl hl)).trans (h.bit_before_edge hl hc)
  · intro hl; exact (hm (.inr hl)).trans (h.bit_after_edge hl)
  · intro hd; have hd : s.phase = .deselect := hd
    exact h.at_rest (by rw [hd]; rfl)

/-- Loading a byte keeps the invariant. -/
theorem inv_beginByte {s v u : State} {l : List Byte} (h : Inv hw s) (hb : s.busy = true)
    {op} (hop : microOpAt s.toArch = some op) (hl : frameBytes hw s.toArch op = .ok l)
    (ha : v.toArch = s.toArch) (hset : v.settleCnt = s.settleCnt) (hcs : v.csN = false) (hck : v.sclk = hw.cpol)
    (hu : beginByte hw l v = .next u) : Inv hw u := by
  have hrf := runningFrame_eq hop hl
  unfold beginByte at hu
  split at hu
  · cases hu
  · next b hb' =>
    cases hu
    have hlt : v.byteIdx.toNat < l.length := (List.getElem?_eq_some_iff.mp hb').1
    refine inv_frame h ?_ hb ⟨op, l, hop, hl⟩ ?_ ?_ ?_ ?_ ?_ ?_ ?_ ?_ ?_ ?_ ?_ ?_ ?_ <;> simp [ha, hset, hcs, hck, selected, phaseCycles, Hardware.leadCycles, hrf, hlt]
    · rw [List.getElem?_eq_getElem hlt] at hb'; exact Option.some.inj hb'
    · intro hc; simp [driveEarly, hc, driveBit]

/-- A legal frame joins the history. -/
theorem inv_append_frame {a : Arch} (h : AInv hw a) {l : List Byte} (hl : frameLegal hw l) (hb : a.busy = true)
    (hop : ∃ op, microOpAt a = some op ∧ op ≠ .finish) : AInv hw (busFrame l a) ∧ AInv hw (appendEvent (.frame l) a) := by
  obtain ⟨op, hop, hne⟩ := hop
  have hq := h.busy_iff.mp hb
  have hh : ∀ e ∈ a.hist ++ [.frame l], eventLegal hw e := by
    intro e he
    rcases List.mem_append.mp he with he | he
    · exact h.history e he
    · rw [List.mem_singleton.mp he]; exact hl
  constructor
  · exact ⟨h.busy_iff, fun hq' => absurd hq' hq, fun _ => microOpAt_advance (a := appendEvent (.frame l) a) hop hne, h.busy_started, h.busy_ok, h.chan_in_range, h.pwr_in_range, hh⟩
  · exact ⟨h.busy_iff, fun hq' => absurd hq' hq, fun _ => by rw [show microOpAt (appendEvent (.frame l) a) = microOpAt a from rfl, hop]; rfl, h.busy_started, h.busy_ok, h.chan_in_range, h.pwr_in_range, hh⟩

/-- STEP advances. -/
theorem ainv_advance {a : Arch} (h : AInv hw a) (hb : a.busy = true)
    (hop : ∃ op, microOpAt a = some op ∧ op ≠ .finish) : AInv hw (advanceStep a) := by
  obtain ⟨op, hop, hne⟩ := hop
  have hq := h.busy_iff.mp hb
  exact ⟨h.busy_iff, fun hq' => absurd hq' hq, fun _ => microOpAt_advance hop hne, h.busy_started, h.busy_ok, h.chan_in_range, h.pwr_in_range, h.history⟩

/-- A cycle of T_CSD keeps the invariant. -/
theorem inv_deselect {s : State} (ha : AInv hw s.toArch) (hb : s.busy = true) {op : MicroOp} (hop : microOpAt s.toArch = some op)
    (hfo : isFrameOp op = true) (hpos : 0 < (runningFrame hw s.toArch).length)
    (hp : s.phase = .deselect) (hcs : s.csN = true) (hck : s.sclk = hw.cpol) (hbi : s.byteIdx = 0) (hbt : s.bitIdx = 0)
    (hs : s.settleCnt = 0) : Inv hw (deselectCycle hw s) := by
  have hne : op ≠ .finish := by rintro rfl; cases hfo
  have hsc : 0 < hw.settleCycles := by simp [Hardware.settleCycles]
  unfold deselectCycle
  split
  · next ht =>
    constructor
    case busy_iff => exact ha.busy_iff
    case idle_step => exact ha.idle_step
    case slot_exists => exact ha.slot_exists
    case busy_started => exact ha.busy_started
    case busy_ok => exact ha.busy_ok
    case chan_in_range => exact ha.chan_in_range
    case pwr_in_range => exact ha.pwr_in_range
    case history => exact ha.history
    all_goals simp [hp, hcs, hck, selected, phaseCycles, ht, hs, hb, hbi, hbt, hpos, hsc]
  · have := ainv_advance ha hb ⟨op, hop, hne⟩
    exact inv_boundary this rfl rfl hcs hck hbi hbt (fun h => absurd hs h) (by simp [hs, hsc])

/-- A frame cycle keeps the invariant. -/
theorem inv_frameCycle {s u : State} {l : List Byte} (h : Inv hw s) (hb : s.busy = true)
    {op} (hop : microOpAt s.toArch = some op) (hl : frameBytes hw s.toArch op = .ok l)
    (hu : frameCycle hw l s = .next u) : Inv hw u := by
  have hrf := runningFrame_eq hop hl
  have hfo := frameBytes_isFrameOp hl
  obtain ⟨l', hl', hleg, hpos, hlen⟩ := frameBytes_ok hw (handle_ok h hb) hfo
  rw [hl] at hl'; cases hl'
  have hs0 : s.settleCnt = 0 := settleCnt_zero h (by rw [hop]; rintro ⟨⟩; cases hl)
  unfold frameCycle at hu
  split at hu
  · next hp =>
    cases hu
    have := inv_rest h hp
    refine inv_frame h (by simp [selectDevice]) hb ⟨op, l, hop, hl⟩ ?_ ?_ ?_ ?_ ?_ ?_ ?_ ?_ ?_ ?_ ?_ ?_ ?_ <;>
      simp [selectDevice, selected, phaseCycles, Hardware.tCss, hrf, hpos]
  · next hp =>
    split at hu
    · next hn =>
      cases hu
      exact inv_count h hb ⟨op, l, hop, hl⟩ (by simp [hp]) rfl (by simp [hp]) (by simpa [phaseCycles, hp] using hn)
    · refine inv_beginByte h hb hop hl rfl rfl ?_ ?_ hu
      · rw [h.chip_select, hp]; rfl
      · rw [h.clock, hp]; rfl
  · next hp =>
    split at hu
    · next hn =>
      cases hu
      exact inv_count h hb ⟨op, l, hop, hl⟩ (by simp [hp]) rfl (fun _ => rfl) (by simpa [phaseCycles, hp] using hn)
    · cases hu
      have hcs : s.csN = false := by rw [h.chip_select, hp]; rfl
      have hby := h.byte_loaded (.inl hp)
      have hlt := (h.engaged (by simp [hp])).2
      have hmo := h.bit_before_edge hp
      refine inv_frame h (by simp [leadingEdge]) hb ⟨op, l, hop, hl⟩ ?_ ?_ ?_ ?_ ?_ ?_ ?_ ?_ ?_ ?_ ?_ ?_ ?_ <;>
        simp [leadingEdge, selected, phaseCycles, Hardware.trailCycles, hlt, hcs]
      · rw [List.getElem?_eq_getElem hlt] at hby; exact Option.some.inj hby
      · cases hc : hw.cpha <;> simp [driveAtEdge, driveBit, hc]
        exact hmo hc
  · next hp =>
    have hcs : s.csN = false := by rw [h.chip_select, hp]; rfl
    have hby := h.byte_loaded (.inr hp)
    have hlt := (h.engaged (by simp [hp])).2
    split at hu
    · next hn =>
      cases hu
      exact inv_count h hb ⟨op, l, hop, hl⟩ (by simp [hp]) rfl (fun _ => rfl) (by simpa [phaseCycles, hp] using hn)
    · unfold trailingEdge at hu
      split at hu
      · cases hu
        refine inv_frame h (by simp [nextBit]) hb ⟨op, l, hop, hl⟩ ?_ ?_ ?_ ?_ ?_ ?_ ?_ ?_ ?_ ?_ ?_ ?_ ?_ <;>
          simp [nextBit, selected, phaseCycles, Hardware.leadCycles, hlt, hcs]
        · rw [List.getElem?_eq_getElem hlt] at hby; exact Option.some.inj hby
        · intro hc; simp [driveEarly, hc, driveBit]
      · next hbit =>
        have hbit : s.bitIdx = 0 := by simpa using hbit
        split at hu
        · next hlt' =>
          have hinc : (s.byteIdx + 1).toNat = s.byteIdx.toNat + 1 := by
            have : l.length ≤ 48 := hlen
            bv_omega
          unfold nextByte at hu
          dsimp only at hu
          split at hu
          · exact inv_beginByte (v := { s with sclk := hw.cpol, byteIdx := s.byteIdx + 1, bitIdx := 7, tcnt := 0, gap := hw.freeGap s.draws * hw.pSclk, draws := s.draws + 1 }) h hb hop hl rfl rfl hcs rfl hu
          · next hg =>
            cases hu
            have hg' : 0 < hw.freeGap s.draws * hw.pSclk := Nat.pos_of_ne_zero hg
            refine inv_frame h (by simp) hb ⟨op, l, hop, hl⟩ ?_ ?_ ?_ ?_ ?_ ?_ ?_ ?_ ?_ ?_ ?_ ?_ ?_ <;>
              simp [selected, phaseCycles, hcs, hrf, -BitVec.toNat_add, hg']
            have hinc' : (s.byteIdx + 1#6).toNat = s.byteIdx.toNat + 1 := hinc
            rw [hinc']; exact hlt'
        · next hlast =>
          cases hu
          refine inv_frame h (by simp) hb ⟨op, l, hop, hl⟩ ?_ ?_ ?_ ?_ ?_ ?_ ?_ ?_ ?_ ?_ ?_ ?_ ?_ <;>
            simp [selected, phaseCycles, hcs, hlt, Hardware.tCsh, hbit]
          rw [hrf] at hlt ⊢; omega
  · next hp =>
    have hcs : s.csN = false := by rw [h.chip_select, hp]; rfl
    split at hu
    · next hn =>
      cases hu
      unfold releaseMosi
      split
      · exact inv_count h hb ⟨op, l, hop, hl⟩ (by simp [hp]) rfl (by simp [hp]) (by simpa [phaseCycles, hp] using hn)
      · exact inv_count h hb ⟨op, l, hop, hl⟩ (by simp [hp]) rfl (by simp [hp]) (by simpa [phaseCycles, hp] using hn)
    · exact inv_beginByte h hb hop hl rfl rfl hcs (by rw [h.clock, hp]; rfl) hu
  · next hp =>
    have hcs : s.csN = false := by rw [h.chip_select, hp]; rfl
    split at hu
    · next hn =>
      cases hu
      unfold releaseMosi
      split
      · exact inv_count h hb ⟨op, l, hop, hl⟩ (by simp [hp]) rfl (by simp [hp]) (by simpa [phaseCycles, hp] using hn)
      · exact inv_count h hb ⟨op, l, hop, hl⟩ (by simp [hp]) rfl (by simp [hp]) (by simpa [phaseCycles, hp] using hn)
    · cases hu
      have := (inv_append_frame (inv_a h) hleg hb ⟨op, hop, by rintro rfl; cases hfo⟩).2
      refine inv_deselect (op := op) this hb hop hfo ?_ rfl rfl (by rw [show (_ : Bool) = s.sclk from rfl, h.clock, hp]; rfl) rfl rfl hs0
      show 0 < (runningFrame hw (appendEvent (.frame l) s.toArch)).length
      rw [show runningFrame hw (appendEvent (.frame l) s.toArch) = runningFrame hw s.toArch from runningFrame_congr rfl rfl rfl rfl rfl, hrf]; exact hpos
  · next hp =>
    cases hu
    have hr := h.at_rest (by rw [hp]; rfl)
    refine inv_deselect (inv_a h) hb hop hfo (by rw [hrf]; exact hpos) hp (by rw [h.chip_select, hp]; rfl) (by rw [h.clock, hp]; rfl) hr.1 hr.2 hs0

end Sys2Proof.Laws
end

