-- ==== Sys2Proof/Laws/Link.lean ====
section
/-! SUPPORT. The last cycle of a run, and what the events of the keepalive duty say of a cycle and of a run. -/

namespace Sys2Proof.Laws

open Sys2Proof.Machine Sys2Proof.Safety

/-- A run is its first cycles and then one more. -/
theorem runWith_succ {hw : Hardware} {n : Nat} {s t : State} :
    runWith hw (n + 1) s = .next t ↔ ∃ u, runWith hw n s = .next u ∧ cycle hw u = .next t := by
  induction n generalizing s with
  | zero => cases h : cycle hw s <;> simp [runWith, h]
  | succ n ih =>
    cases h : cycle hw s with
    | next v => rw [runWith, h]; simp only [ih]; simp only [runWith, h]
    | fault r => simp [runWith, h]
    | refused r => simp [runWith, h]

theorem reaches_zero {s t : State} : Reaches 0 s t ↔ s = t :=
  ⟨fun h => by cases h; rfl, fun h => by rw [h]; rfl⟩

theorem reaches_succ {n : Nat} {s t : State} : Reaches (n + 1) s t ↔ ∃ u, Reaches n s u ∧ step u = .next t := by
  simp only [Reaches, run_core, step]; exact runWith_succ

/-- A cycle with RST is no event. -/
theorem linkEvent_of_rst {s t : State} (h : s.port.rst = true) : linkEvent s t = none := by simp [linkEvent, h]

/-- An acceptance is a rise of BUSY without a reset. -/
theorem linkEvent_accepted {s t : State} {q : SeqId} :
    linkEvent s t = some (.accepted q) ↔ s.port.rst = false ∧ s.busy = false ∧ t.busy = true ∧ t.seq = q := by
  unfold linkEvent
  cases s.port.rst <;> cases s.busy <;> cases t.busy <;> simp

/-- An END is a fall of BUSY without a reset. -/
theorem linkEvent_ended {s t : State} {q : SeqId} :
    linkEvent s t = some (.ended q) ↔ s.port.rst = false ∧ s.busy = true ∧ t.busy = false ∧ s.seq = q := by
  unfold linkEvent
  cases s.port.rst <;> cases s.busy <;> cases t.busy <;> simp

/-- An event of a run is the event of a cycle that it reaches. -/
theorem eventAt_eq_some {s : State} {k : Nat} {e : LinkEvent} :
    eventAt s k = some e ↔ ∃ u t, Reaches k s u ∧ step u = .next t ∧ linkEvent u t = some e := by
  unfold eventAt Reaches
  constructor
  · intro h
    split at h
    · next u hu =>
      split at h
      · next t ht => exact ⟨u, t, hu, ht, h⟩
      all_goals cases h
    all_goals cases h
  · rintro ⟨u, t, hu, ht, h⟩
    rw [hu]; simpa only [ht] using h

theorem eventAt_of_step {s u t : State} {k : Nat} (h : Reaches k s u) (ht : step u = .next t) :
    eventAt s k = linkEvent u t := by
  unfold eventAt; unfold Reaches at h; rw [h]; simp only [ht]

@[simp] theorem linkTrace_zero (clock : Nat → Nat) (s : State) : linkTrace clock 0 s = [] := rfl

theorem linkTrace_succ (clock : Nat → Nat) (n : Nat) (s : State) :
    linkTrace clock (n + 1) s = linkTrace clock n s ++ ((eventAt s n).map (fun e => (clock n, e))).toList := by
  simp only [linkTrace, List.range_succ, List.filterMap_append, List.filterMap_cons, List.filterMap_nil]
  cases eventAt s n <;> rfl

end Sys2Proof.Laws
end

