-- ==== Sys2Proof/Laws/PerInstr.lean ====
section
/-! SUPPORT. One law per instruction, constructor by constructor. `RowPattern`: a word that an instruction encodes to carries
the fixed bits of its row of the opcode table (30_encoding.md, opcode map). -/

namespace Sys2Proof.Laws.RowPattern

/-- The word matches its row: `word & mask = match`. -/
def Statement (i : Instr) : Prop := encode i &&& rowMask i = rowMatch i

theorem start (ch : BitVec 5) (d : Direction) (pw : BitVec 4) : Statement (.start ch d pw) := by
  refine BitVec.eq_of_getLsbD_eq fun j hj => ?_
  rw [BitVec.getLsbD_and, encode_start_bit]
  simp only [BitVec.getLsbD_append]
  cases d <;> interval_cases j <;> simp [rowMask, rowMatch, Direction.bit]

theorem chch (ch : BitVec 5) (d : BitVec 1) (pw : BitVec 4) : Statement (.chch ch d pw) := by
  refine BitVec.eq_of_getLsbD_eq fun j hj => ?_
  rw [BitVec.getLsbD_and, encode_chch_bit]
  simp only [BitVec.getLsbD_append]
  interval_cases j <;> simp [rowMask, rowMatch]

theorem ka (x : BitVec 10) : Statement (.ka x) := by
  refine BitVec.eq_of_getLsbD_eq fun j hj => ?_
  rw [BitVec.getLsbD_and, encode_ka_bit]
  simp only [BitVec.getLsbD_append]
  interval_cases j <;> simp [rowMask, rowMatch]

theorem illegalOp00 (hi : BitVec 14) : Statement (.illegalOp00 hi) := by
  refine BitVec.eq_of_getLsbD_eq fun j hj => ?_
  rw [BitVec.getLsbD_and, encode_illegalOp00_bit]
  simp only [BitVec.getLsbD_append]
  interval_cases j <;> simp [rowMask, rowMatch]

theorem illegalRsv12 (hi : BitVec 3) (lo : BitVec 12) : Statement (.illegalRsv12 hi lo) := by
  refine BitVec.eq_of_getLsbD_eq fun j hj => ?_
  rw [BitVec.getLsbD_and, encode_illegalRsv12_bit]
  simp only [BitVec.getLsbD_append]
  interval_cases j <;> simp [rowMask, rowMatch]

theorem illegalRsv13 (hi : BitVec 2) (lo : BitVec 13) : Statement (.illegalRsv13 hi lo) := by
  refine BitVec.eq_of_getLsbD_eq fun j hj => ?_
  rw [BitVec.getLsbD_and, encode_illegalRsv13_bit]
  simp only [BitVec.getLsbD_append]
  interval_cases j <;> simp [rowMask, rowMatch]

theorem illegalRsv14 (hi : BitVec 1) (lo : BitVec 14) : Statement (.illegalRsv14 hi lo) := by
  refine BitVec.eq_of_getLsbD_eq fun j hj => ?_
  rw [BitVec.getLsbD_and, encode_illegalRsv14_bit]
  simp only [BitVec.getLsbD_append]
  interval_cases j <;> simp [rowMask, rowMatch]

theorem illegalRsv15 (lo : BitVec 15) : Statement (.illegalRsv15 lo) := by
  refine BitVec.eq_of_getLsbD_eq fun j hj => ?_
  rw [BitVec.getLsbD_and, encode_illegalRsv15_bit]
  simp only [BitVec.getLsbD_append]
  interval_cases j <;> simp [rowMask, rowMatch]

end Sys2Proof.Laws.RowPattern
end

