-- ==== Sys2Proof/Laws/Progress.lean ====
section
/-! SUPPORT. A frame always gets on: a measure that every cycle inside a frame makes smaller. -/

namespace Sys2Proof.Laws

open Sys2Proof.Machine Sys2Proof.Safety

variable {hw : Hardware}

/-- How many phases of a frame of `n` bytes are still to come, roughly; a byte has at most 17 (8 bits of two halves, a gap). -/
def stage (n : Nat) (s : State) : Nat :=
  match s.phase with
  | .boundary => 0
  | .select => 17 * n + 20
  | .gap => 17 * (n - s.byteIdx.toNat) + 2
  | .lead => 17 * (n - 1 - s.byteIdx.toNat) + 2 * s.bitIdx.toNat + 4
  | .trail => 17 * (n - 1 - s.byteIdx.toNat) + 2 * s.bitIdx.toNat + 3
  | .hold => 2
  | .deselect => 1

/-- Closer to the end of the frame of `n` bytes: in a later phase, or later in the same phase. -/
def CloserToEnd (hw : Hardware) (n : Nat) (t s : State) : Prop :=
  stage n t < stage n s ∨ (stage n t = stage n s ∧ phaseCycles hw t - t.tcnt < phaseCycles hw s - s.tcnt)

theorem closer_count {n : Nat} {s u : State} (hp : u.phase = s.phase) (hb : u.byteIdx = s.byteIdx) (hi : u.bitIdx = s.bitIdx) (hg : u.gap = s.gap)
    (ht : u.tcnt = s.tcnt + 1) (hlt : s.tcnt < phaseCycles hw s) : CloserToEnd hw n u s := by
  right
  have : phaseCycles hw u = phaseCycles hw s := by simp [phaseCycles, hp, hg]
  constructor
  · simp [stage, hp, hb, hi]
  · omega

/-- Every cycle inside a frame comes closer to its end. -/
theorem frame_closer {s u : State} {l : List Byte} (h : Inv hw s) (hb : s.busy = true) (hp : s.phase ≠ .boundary)
    {op} (hop : microOpAt s.toArch = some op) (hl : frameBytes hw s.toArch op = .ok l)
    (hu : frameCycle hw l s = .next u) : u.phase ≠ .boundary → CloserToEnd hw l.length u s := by
  have hrf := runningFrame_eq hop hl
  have hlt := (h.engaged hp).2
  rw [hrf] at hlt
  have hph := h.phase_count
  have hbl := s.bitIdx.isLt
  intro hnb
  obtain ⟨_, hl', _, hpos, hlen⟩ := frameBytes_ok hw (handle_ok h hb) (frameBytes_isFrameOp hl)
  rw [hl] at hl'; cases hl'
  unfold frameCycle at hu
  split at hu
  · next hp' => exact absurd hp' hp
  · next hp' =>
    split at hu
    · cases hu; exact closer_count rfl rfl rfl rfl rfl hph
    · obtain ⟨h1, h2, h3, _⟩ := beginByte_fields hu
      left; simp only [stage, h1, h2, h3, hp', (h.at_select hp').1]; simp; omega
  · next hp' =>
    split at hu
    · cases hu; exact closer_count rfl rfl rfl rfl rfl hph
    · cases hu; left; simp [stage, leadingEdge, hp']
  · next hp' =>
    split at hu
    · cases hu; exact closer_count rfl rfl rfl rfl rfl hph
    · unfold trailingEdge at hu
      split at hu
      · next hne =>
        cases hu; left
        have : (s.bitIdx - 1).toNat = s.bitIdx.toNat - 1 ∧ 0 < s.bitIdx.toNat := by constructor <;> bv_omega
        simp only [stage, nextBit, driveEarly_phase, driveEarly_byteIdx, driveEarly_bitIdx, hp', this.1]; omega
      · next hz =>
        have hz : s.bitIdx = 0 := by simpa using hz
        split at hu
        · next hlt' =>
          have hlt' : s.byteIdx.toNat + 1 < l.length := hlt'
          have hinc : (s.byteIdx + 1).toNat = s.byteIdx.toNat + 1 := by
            have : l.length ≤ 48 := hlen
            bv_omega
          unfold nextByte at hu; dsimp only at hu
          split at hu
          · obtain ⟨h1, h2, h3, _⟩ := beginByte_fields hu
            left; simp only [stage, h1, h2, h3, hp', hinc, hz]; simp; omega
          · cases hu; left; simp only [stage, releaseMosi_phase, releaseMosi_byteIdx, hp', hinc, hz]; simp; omega
        · cases hu; left; simp only [stage, releaseMosi_phase, hp', hz]; simp
  · next hp' =>
    split at hu
    · cases hu; exact closer_count (by simp) (by simp) (by simp) (by simp) (by simp) hph
    · obtain ⟨h1, h2, h3, _⟩ := beginByte_fields hu
      left; simp only [stage, h1, h2, h3, hp']; simp; omega
  · next hp' =>
    split at hu
    · cases hu; exact closer_count (by simp) (by simp) (by simp) (by simp) (by simp) hph
    · cases hu; left
      have : (deselectDevice hw l s).phase = .deselect := by
        unfold deselectDevice deselectCycle at hnb ⊢; split at hnb
        · next hn => simp [hn]
        · simp at hnb
      simp [stage, this, hp']
  · next hp' =>
    cases hu
    unfold deselectCycle at hnb ⊢
    split at hnb
    · next hn => simp only [hn, if_true]; exact closer_count rfl rfl rfl rfl rfl hph
    · simp at hnb

end Sys2Proof.Laws
end

