-- ==== Sys2Proof/Tests/Slice0.lean ====
section
/-! SUPPORT. The model's own tests: ill-formed terms, words written out from the spec, single steps, and a witness for the
hypotheses of each statement. Expected values are those of 95_test_vectors.md and of the rules named. -/

namespace Sys2Proof.Tests

open Sys2Proof.Machine Sys2Proof.Safety Sys2Proof.Laws

/-! ## Well-formedness: a term that each check refuses -/

theorem test_wf_op00_refused : (Instr.illegalOp00 0b00010000000000).wf = false := by decide
theorem test_wf_rsv13_refused : (Instr.illegalRsv13 0 0b1000000000000).wf = false := by decide
theorem test_wf_rsv14_refused : (Instr.illegalRsv14 0 0b01000000000000).wf = false := by decide
theorem test_wf_rsv14_refused_high : (Instr.illegalRsv14 0 0b10000000000000).wf = false := by decide
theorem test_wf_rsv15_refused : (Instr.illegalRsv15 0b100000000000000).wf = false := by decide
theorem test_wf_rsv12_all_set : (Instr.illegalRsv12 7 0xFFF).wf = true := by decide

/-! ## Decoding: the table of 95_test_vectors.md section 3.1, and the overlapping illegal rows -/

theorem test_decode_start : decodeWord 0x0B1D = .start 3 .transmit 11 := by decide
theorem test_decode_start_out_of_range : decodeWord 0x0FFD = .start 31 .transmit 15 := by decide
theorem test_decode_chch : decodeWord 0x0062 = .chch 12 0 0 := by decide
theorem test_decode_chch_ignored : decodeWord 0x0F86 = .chch 16 1 15 := by decide
theorem test_decode_ka_ignored : decodeWord 0x0FFF = .ka 0x3FF := by decide
theorem test_decode_op00 : decodeWord 0x0FFC = .illegalOp00 0x3FF := by decide
theorem test_decode_rsv12 : decodeWord 0x1003 = .illegalRsv12 0 3 := by decide
theorem test_decode_rsv13 : decodeWord 0xE001 = .illegalRsv13 3 1 := by decide
theorem test_decode_rsv14 : decodeWord 0xC002 = .illegalRsv14 1 2 := by decide
theorem test_decode_rsv15 : decodeWord 0x8001 = .illegalRsv15 1 := by decide
theorem test_decode_all_ones : decodeWord 0xFFFF = .illegalRsv12 7 0xFFF := by decide
theorem test_decode_too_long : decode 32 0x00030003 = .error .wordTooLong := by decide
theorem test_encode_start : encode (.start 16 .transmit 10) = 0x0A85 := by decide
theorem test_encode_chch : encode (.chch 9 0 0) = 0x004A := by decide

/-! ## Assembly, R89 to R91 -/

theorem test_assemble_text :
    assembleText ['S', 'T', 'A', 'R', 'T', ' ', '1', '6', ',', ' ', 'T', 'X', ',', ' ', '1', '0'] = .ok 0x0A85 := by decide
theorem test_assemble_pseudo : assembleText ['S', 'T', 'A', 'R', 'T', ' ', '0', 'x', '6', ',', ' ', 'R', 'X'] = .ok 0x0031 := by
  decide
theorem test_assemble_refuses : assemble (.chch 32) = .error .channelTooWide := by decide
theorem test_assemble_power_missing : assemble (.start 3 .transmit none) = .error .powerMissing := by decide
theorem test_disassemble_illegal : showLine (disassemble 0x1003) = ['.', 'w', 'o', 'r', 'd', ' ', '4', '0', '9', '9'] := by decide

/-! ## Presentations: vectors A1 to A19 of 95_test_vectors.md section 3.2 (STATUS while busy has bit 0 set) -/

/-- The status a command word leaves in a state. -/
def statusAfter (w : CmdWord) (s : State) : Option StatusWord :=
  match exec (decodeWord w) s with
  | .next t => some t.status
  | .fault _ => none
  | .refused _ => none

/-- The machine with the bus level and a handle, ready. -/
def ready (bus started : Bool) (d : Direction) (c : BitVec 5) (p : BitVec 4) : State :=
  { State.reset with
    port := { Inputs.quiet with busOk := bus }
    started := started
    dir := d
    chan := c
    pwr := p }

theorem test_start_a1 : statusAfter 0x0031 State.reset = some 0x0183 := by decide
theorem test_start_a6 : statusAfter 0x0FFD State.reset = some 0x0004 := by decide
theorem test_chch_a13 : statusAfter 0x0002 (ready true true .transmit 16 10) = some 0x5023 := by decide
theorem test_chch_a14 : statusAfter 0x008A (ready true true .transmit 16 10) = some 0x5426 := by decide
theorem test_ka_a16 : statusAfter 0x0FFF (ready true true .receive 6 0) = some 0x0183 := by decide
theorem test_ka_a8 : statusAfter 0x0003 (ready false false .receive 0 0) = some 0x000C := by decide
theorem test_op00_a10 : statusAfter 0x0000 State.reset = some 0x0014 := by decide
theorem test_rsv12_a9 : statusAfter 0x1001 (ready false false .receive 0 0) = some 0x0014 := by decide
theorem test_rsv12_a19 : statusAfter 0x1003 (ready true true .receive 6 0) = some 0x0196 := by decide
theorem test_rsv13 : statusAfter 0x2001 State.reset = some 0x0014 := by decide
theorem test_rsv14 : statusAfter 0x4002 State.reset = some 0x0014 := by decide
theorem test_rsv15 : statusAfter 0x8003 State.reset = some 0x0014 := by decide

/-- The first step after reset runs the placed word. -/
def firstStepStatus (w : Nat) : Option StatusWord :=
  match step (State.reset.withFetchWord 16 w) with
  | .next t => some t.status
  | .fault _ => none
  | .refused _ => none

theorem test_first_step_start : firstStepStatus 0x0F29 = some 0x7943 := by decide
theorem test_first_step_ka : firstStepStatus 0x0003 = some 0x0010 := by decide

/-! ## Micro-steps and the bit level on the fixture TP of 95_test_vectors.md section 2 -/

/-- The fixture TP with all times at their least, SPI mode 0, no gaps and MOSI 0 where it is open. -/
def tp : Hardware where
  blob := Vector.ofFn fun i => BitVec.ofNat 8 (0xC0 + i)
  chTable := Vector.ofFn fun i => BitVec.ofNat 8 (0x10 + i)
  pwrTable := Vector.ofFn fun i => BitVec.ofNat 8 (0x60 + i)
  rxPower := 0xA5
  stopCode := 0xA0
  rxCode := 0xA1
  txCode := 0xA2
  powerReg := 0xA3
  channelReg := 0xA4
  spiMode := 0
  settleExtra := 0
  tCssExtra := 0
  tCshExtra := 0
  tCsdExtra := 0
  leadExtra := 0
  trailExtra := 0
  freeMosi := fun _ => false
  freeShift := fun _ => 0
  freeGap := fun _ => 0
  freeCut := fun _ => false

/-- A running sequence at a step, between micro-steps. -/
def atStep (hw : Hardware) (q : SeqId) (n : BitVec 3) (d : Direction) (c : BitVec 5) (p : BitVec 4) : State :=
  { State.resetWith hw with started := true, dir := d, chan := c, pwr := p, seq := q, stepIdx := n, busy := true }

theorem test_power_frame_b2 : frameBytes tp (atStep tp .start 3 .transmit 16 10).toArch .fPower = .ok [0xA3, 0x6A] := by rfl
theorem test_power_frame_b4 : frameBytes tp (atStep tp .start 3 .receive 5 15).toArch .fPower = .ok [0xA3, 0xA5] := by rfl
theorem test_channel_frame_b2 : frameBytes tp (atStep tp .start 4 .transmit 16 10).toArch .fChannel = .ok [0xA4, 0x20] := by rfl
theorem test_mode_frame_b9 : frameBytes tp (atStep tp .ka 0 .transmit 0 10).toArch .fMode = .ok [0xA2] := by rfl
theorem test_wire_bits : wireBits [0xA3] = [true, false, true, false, false, false, true, true] := by decide

/-- A field of the state after one cycle on TP. -/
def afterCycle {α : Type} (f : State → α) (s : State) : Option α :=
  match cycle tp s with
  | .next t => some (f t)
  | .fault _ => none
  | .refused _ => none

/-- TP's machine driving the second byte of a channel frame, at the trailing edge of its bit 3. -/
def midFrame : State :=
  { atStep tp .chch 2 .receive 9 15 with
    csN := false, sclk := true, phase := .trail, byteIdx := 1, bitIdx := 3, shift := 0x19, mosi := true }

theorem test_next_bit : afterCycle (fun t => (t.sclk, t.csN, t.bitIdx, t.mosi)) midFrame = some (false, false, 2, false) := by decide
theorem test_settle_event : afterCycle (fun t => (t.hist, t.stepIdx)) (atStep tp .start 0 .receive 6 0) = some ([.settle], 1) := by
  decide
theorem test_reset_c2 :
    afterCycle (fun t => (t.hist, t.status, t.csN))
      { atStep tp .chch 2 .receive 9 15 with
        csN := false, phase := .lead, byteIdx := 1, bitIdx := 4, port := { Inputs.quiet with rst := true } } =
      some ([.truncated [0xA4] 3, .reset], 0x0000, true) := by decide
theorem test_reset_c4 :
    afterCycle (fun t => t.hist)
      { atStep tp .ka 0 .receive 6 0 with csN := false, phase := .hold, port := { Inputs.quiet with rst := true } } =
      some [.truncated [0xA1] 0, .reset] := by decide

/-! ## The keepalive duty -/

theorem test_keepalive_kept :
    keepsAlive 500 none [(0, .accepted .start), (40, .ended .start), (540, .accepted .ka), (541, .ended .ka), (1040, .accepted .ka)]
      = true := by decide
theorem test_keepalive_missed : keepsAlive 500 none [(40, .ended .start), (541, .accepted .ka)] = false := by decide

/-! ## Witnesses: concrete states that meet the hypotheses of the statements -/

/-- The open-parameter machine, ready, in a cycle in which the host presents a word. -/
def presenting (w : CmdWord) (bus started : Bool) (d : Direction) (c : BitVec 5) (p : BitVec 4) : State :=
  { State.reset with
    port := { rst := false, busOk := bus, cmdValid := true, cmdWord := w, miso := false }
    started := started
    dir := d
    chan := c
    pwr := p }

/-- The open-parameter machine running a sequence, between micro-steps. -/
def running (q : SeqId) (n : BitVec 3) : State := atStep Config.hardware q n .transmit 16 10

/-- The open-parameter machine with the device just selected for the mode frame of KA. -/
def selecting : State := { running .ka 0 with csN := false, phase := .select, bitIdx := 7 }

/-- The open-parameter machine in the hold time of the mode frame of KA, in cycle `n` of it. -/
def holding (n : Nat) : State := { running .ka 0 with csN := false, phase := .hold, tcnt := n, shift := Config.txCode }

/-- The open-parameter machine in the last cycle before the trailing edge of the last bit of the mode frame of KA. -/
def trailing : State :=
  { running .ka 0 with
    csN := false, sclk := !Config.hardware.cpol, phase := .trail, tcnt := Config.hardware.trailExtra, shift := Config.txCode
    mosi := Config.txCode.getLsbD 0 }

/-- The open-parameter machine in the last cycle of the idle half of the last bit of the mode frame of KA. -/
def leading : State :=
  { running .ka 0 with
    csN := false, phase := .lead, tcnt := Config.hardware.leadExtra, shift := Config.txCode, mosi := Config.txCode.getLsbD 0 }

/-- The open-parameter machine in a gap of one cycle after the first byte of the channel frame of CHCH. -/
def gapping : State :=
  { running .chch 2 with csN := false, phase := .gap, gap := 1, byteIdx := 1, bitIdx := 7, shift := Config.channelReg }

/-- The state with RST asserted. -/
def withRst (s : State) : State := assertReset s

theorem ready_inv (w : CmdWord) (bus started : Bool) (d : Direction) : Inv Config.hardware (presenting w bus started d 16 10) := by
  refine inv_boundary ?_ rfl rfl rfl rfl rfl rfl (fun h => absurd rfl h) (Nat.zero_lt_succ _)
  constructor <;> simp [presenting, State.reset, State.resetWith, Arch.reset, nCh, nPwr]

theorem running_ainv (q : SeqId) (n : BitVec 3) (hq : q ≠ .none) (h : (microOpAt (running q n).toArch).isSome = true) :
    AInv Config.hardware (running q n).toArch :=
  ⟨⟨fun _ => hq, fun _ => rfl⟩, fun h => absurd h hq, fun _ => h, fun _ => rfl, fun _ => rfl,
    fun _ => (by decide : (16 : BitVec 5).toNat < nCh), fun _ _ => (by decide : (10 : BitVec 4).toNat < nPwr), by intro e he; cases he⟩

theorem running_inv (q : SeqId) (n : BitVec 3) (hq : q ≠ .none) (h : (microOpAt (running q n).toArch).isSome = true) :
    Inv Config.hardware (running q n) :=
  inv_boundary (running_ainv q n hq h) rfl rfl rfl rfl rfl rfl (fun h => absurd rfl h) (Nat.zero_lt_succ _)

theorem ka_frame : runningFrame Config.hardware (running .ka 0).toArch = [Config.txCode] := rfl

theorem selecting_inv : Inv Config.hardware selecting := by
  refine inv_frame (running_inv .ka 0 (by decide) (by decide)) rfl rfl ⟨.fMode, [Config.txCode], rfl, rfl⟩ rfl ?_ ?_ ?_ ?_ ?_ ?_ ?_ ?_
    ?_ ?_ ?_ ?_ <;> (try rw [ka_frame]) <;>
    simp [selecting, running, atStep, State.resetWith, selected, phaseCycles, Hardware.tCss]

theorem holding_inv : Inv Config.hardware (holding Config.hardware.tCshExtra) := by
  refine inv_frame (running_inv .ka 0 (by decide) (by decide)) rfl rfl ⟨.fMode, [Config.txCode], rfl, rfl⟩ rfl ?_ ?_ ?_ ?_ ?_ ?_ ?_ ?_
    ?_ ?_ ?_ ?_ <;> (try rw [ka_frame]) <;>
    simp [holding, running, atStep, State.resetWith, selected, phaseCycles, Hardware.tCsh]

theorem trailing_inv : Inv Config.hardware trailing := by
  refine inv_frame (running_inv .ka 0 (by decide) (by decide)) rfl rfl ⟨.fMode, [Config.txCode], rfl, rfl⟩ rfl ?_ ?_ ?_ ?_ ?_ ?_ ?_ ?_
    ?_ ?_ ?_ ?_ <;> (try rw [ka_frame]) <;>
    simp [trailing, running, atStep, State.resetWith, selected, phaseCycles, Hardware.trailCycles]

theorem leading_inv : Inv Config.hardware leading := by
  refine inv_frame (running_inv .ka 0 (by decide) (by decide)) rfl rfl ⟨.fMode, [Config.txCode], rfl, rfl⟩ rfl ?_ ?_ ?_ ?_ ?_ ?_ ?_ ?_
    ?_ ?_ ?_ ?_ <;> (try rw [ka_frame]) <;>
    simp [leading, running, atStep, State.resetWith, selected, phaseCycles, Hardware.leadCycles]

theorem channel_frame :
    frameBytes Config.hardware (running .chch 2).toArch .fChannel = .ok [Config.channelReg, channelByte Config.hardware 16] :=
  channelBytes_eq _ _ (by decide)

theorem gapping_inv : Inv Config.hardware gapping := by
  have hl : (runningFrame Config.hardware (running .chch 2).toArch).length = 2 := by
    simp only [runningFrame, show microOpAt (running .chch 2).toArch = some .fChannel from rfl, channel_frame]; rfl
  refine inv_frame (running_inv .chch 2 (by decide) (by decide)) rfl rfl ⟨.fChannel, _, rfl, channel_frame⟩ rfl ?_ ?_ ?_ ?_ ?_ ?_ ?_
    ?_ ?_ ?_ ?_ ?_ <;> (try rw [hl]) <;> simp [gapping, running, atStep, State.resetWith, selected, phaseCycles]

/-! ### Encoding -/

theorem witness_EncodingExamplesAsListed :
    (ready true true .receive 0 0).busy = false ∧ (ready true true .receive 0 0).port.busOk = true ∧
      (ready true true .receive 0 0).started = true := by decide

theorem witness_DecodeOfEncodeIsTheInstruction :
    (Instr.start 31 .transmit 15).wf = true ∧ (Instr.chch 31 1 15).wf = true ∧ (Instr.ka 0x3FF).wf = true ∧
      (Instr.illegalOp00 0x3FF).wf = true ∧ (Instr.illegalRsv12 7 0xFFF).wf = true ∧ (Instr.illegalRsv13 3 0xFFF).wf = true ∧
      (Instr.illegalRsv14 1 0xFFF).wf = true ∧ (Instr.illegalRsv15 0xFFF).wf = true := by decide

theorem witness_OpFieldSelectsTheCommand :
    rsvField 0x0FFD = 0 ∧ opField 0x0FFD = 0b01 ∧ rsvField 0x0FFE = 0 ∧ opField 0x0FFE = 0b10 ∧ rsvField 0x0FFF = 0 ∧
      opField 0x0FFF = 0b11 ∧ rsvField 0x0FFC = 0 ∧ opField 0x0FFC = 0b00 := by decide

theorem witness_AssemblerRefusesWhatDoesNotFit :
    assemble (.start 31 .receive (some 15)) = .ok 0x0FF9 ∧ assemble (.start 32 .receive (some 15)) = .error .channelTooWide ∧
      assemble (.start 31 .receive (some 16)) = .error .powerTooWide ∧ assemble (.chch 31) = .ok 0x00FA := by decide

/-! ### Presentation -/

theorem witness_AcceptedStartCommitsItsOperands :
    State.reset.busy = false ∧ State.reset.port.busOk = true ∧ (16 : BitVec 5).toNat ≤ 16 ∧
      (Direction.transmit = .transmit → (10 : BitVec 4).toNat ≤ 10) ∧ (Direction.receive = .transmit → (15 : BitVec 4).toNat ≤ 10) := by
  decide

theorem witness_AcceptedChchCommitsItsChannel :
    (ready true true .receive 6 0).busy = false ∧ (ready true true .receive 6 0).port.busOk = true ∧
      (ready true true .receive 6 0).started = true ∧ (16 : BitVec 5).toNat ≤ 16 := by decide

theorem witness_AcceptedKaCommitsNoHandleRegister :
    (ready true true .receive 6 0).busy = false ∧ (ready true true .receive 6 0).port.busOk = true ∧
      (ready true true .receive 6 0).started = true := by decide

theorem witness_IllegalRowsRaiseBadCommand : State.reset.busy = false := by decide

theorem witness_IllegalWordsRaiseBadCommand :
    State.reset.busy = false ∧ opField 0x0FFC = 0b00 ∧ rsvField 0xF001 ≠ 0 ∧ (ready false false .receive 0 0).busy = false ∧
      (ready false false .receive 0 0).port.busOk = false := by decide

theorem witness_StartRejections :
    (ready false false .receive 0 0).busy = false ∧ (ready false false .receive 0 0).port.busOk = false ∧
      State.reset.busy = false ∧ State.reset.port.busOk = true ∧ 16 < (17 : BitVec 5).toNat ∧ (16 : BitVec 5).toNat ≤ 16 ∧
      10 < (11 : BitVec 4).toNat := by decide

theorem witness_ChchRejections :
    (ready false true .receive 0 0).port.busOk = false ∧ (ready true false .receive 0 0).started = false ∧
      (ready true false .receive 0 0).port.busOk = true ∧ (ready true true .receive 0 0).started = true ∧
      16 < (17 : BitVec 5).toNat := by decide

theorem witness_KaRejections :
    (ready false true .receive 0 0).port.busOk = false ∧ (ready true false .receive 0 0).port.busOk = true ∧
      (ready true false .receive 0 0).started = false ∧ (ready true false .receive 0 0).busy = false := by decide

/-- Each cause, where no earlier one applies, and no cause at all. -/
theorem witness_FirstCauseInPriorityOrderIsReported :
    firstCause 0x0000 (ready false false .receive 0 0) = some .badCommand ∧
      firstCause 0x0FFD (ready false false .receive 0 0) = some .busUnavailable ∧
      firstCause 0x008A (ready true false .receive 0 0) = some .notStarted ∧
      firstCause 0x0FFD (ready true false .receive 0 0) = some .invalidChannel ∧
      firstCause 0x0B85 (ready true false .receive 0 0) = some .invalidPower ∧
      firstCause 0x0A85 (ready true false .receive 0 0) = none ∧ firstCause 0x0002 (ready true true .receive 0 0) = none ∧
      firstCause 0x0003 (ready true true .receive 0 0) = none := by decide

theorem witness_PresentationFrame :
    (∃ t, exec (.chch 3 0 0) (ready true true .receive 6 0) = .next t) ∧ (∃ t, exec (.ka 0) (ready true true .receive 6 0) = .next t) ∧
      (∃ t, exec (.illegalOp00 0) State.reset = .next t) ∧ (Instr.illegalOp00 0).illegal = true :=
  ⟨⟨_, rfl⟩, ⟨_, rfl⟩, ⟨_, rfl⟩, rfl⟩

/-- A cycle of a running KA. -/
theorem running_ka_step : ∃ t, step (running .ka 0) = .next t := ⟨_, rfl⟩

theorem witness_BusyMachineHoldsTheWord :
    (running .ka 0).busy = true ∧ (running .ka 0).port.rst = false ∧ (running .ka 0).upcoming = [] ∧
      ∃ t, step (running .ka 0) = .next t := ⟨rfl, rfl, rfl, running_ka_step⟩

theorem witness_RejectionWritesErrOnly :
    presented (presenting 0x1001 false false .receive 16 10) = true ∧
      firstCause (presenting 0x1001 false false .receive 16 10).port.cmdWord (presenting 0x1001 false false .receive 16 10) =
        some .badCommand := by decide

/-! ### Status, tables -/

theorem witness_StatusWordFields :
    (∃ t, exec (.start 16 .transmit 10) State.reset = .next t ∧ t.busy = true) ∧
      (∃ t, exec (.chch 16 0 0) (ready true true .receive 6 0) = .next t ∧ t.busy = true) ∧
      (running .ka 0).busy = true ∧ (running .ka 0).port.rst = false ∧ ∃ t, step (running .ka 0) = .next t :=
  ⟨⟨_, rfl, rfl⟩, ⟨_, rfl, rfl⟩, rfl, rfl, running_ka_step⟩

theorem witness_WrapperAddressMap : 2 ≤ 2 ∧ wrapperRead 2 State.reset = (0, State.reset) := ⟨Nat.le_refl 2, rfl⟩

theorem witness_TableReadsInsideTheTables : (47 < 48 ∧ 16 < 17 ∧ 10 < 11) ∧ 48 ≤ 48 ∧ 17 ≤ 17 ∧ 11 ≤ 11 := by decide

/-! ### Steps -/

theorem witness_StepRunsThePresentedInstruction :
    takes 0x0A85 (presenting 0x0A85 true false .receive 16 10) ∧
      ∃ t, exec (decodeWord 0x0A85) (presenting 0x0A85 true false .receive 16 10) = .next t := ⟨⟨rfl, rfl⟩, exec_next _ _⟩

theorem witness_IdleCycleHoldsTheState :
    State.reset.port.rst = false ∧ State.reset.busy = false ∧ State.reset.port.cmdValid = false := by decide

theorem witness_ResetGivesTheResetValues : (withRst selecting).port.rst = true ∧ (withRst State.reset).port.rst = true := by decide

theorem witness_ResetOutsideAFrameTruncatesNothing :
    (withRst (running .start 0)).port.rst = true ∧ (withRst (running .start 0)).csN = true := by decide

/-- One state for each stage of a frame. -/
theorem witness_ResetInsideAFrameTruncatesIt :
    (∀ s : State, Inv Config.hardware s → s.csN = false →
      Inv Config.hardware (withRst s) ∧ (withRst s).port.rst = true ∧ (withRst s).csN = false) ∧
    (Inv Config.hardware selecting ∧ selecting.csN = false ∧ selecting.phase = .select) ∧
    (Inv Config.hardware gapping ∧ gapping.csN = false ∧ gapping.phase = .gap ∧ gapping.byteIdx = 1) ∧
    (Inv Config.hardware leading ∧ leading.csN = false ∧ leading.phase = .lead ∧ leading.bitIdx = 0) ∧
    (Inv Config.hardware trailing ∧ trailing.csN = false ∧ trailing.phase = .trail ∧ trailing.bitIdx = 0) ∧
    (Inv Config.hardware (holding Config.hardware.tCshExtra) ∧ (holding Config.hardware.tCshExtra).csN = false ∧
      (holding Config.hardware.tCshExtra).phase = .hold) :=
  ⟨fun _ h hc => ⟨inv_ports _ _ h, rfl, hc⟩, ⟨selecting_inv, rfl, rfl⟩, ⟨gapping_inv, rfl, rfl, rfl⟩, ⟨leading_inv, rfl, rfl, rfl⟩,
    ⟨trailing_inv, rfl, rfl, rfl⟩, ⟨holding_inv, rfl, rfl⟩⟩

/-! ### Invariants -/

theorem witness_StepKeepsTheInvariant : Inv Config.hardware (running .ka 0) ∧ ∃ t, step (running .ka 0) = .next t :=
  ⟨running_inv .ka 0 (by decide) (by decide), running_ka_step⟩

theorem witness_InvariantStatesNeverStop : Inv Config.hardware selecting ∧ Inv Config.hardware trailing :=
  ⟨selecting_inv, trailing_inv⟩

/-- The state after the first step of a run in which the host presents START 16, TX, 10 at power-on. -/
theorem witness_HandleIsValidInReachableStates :
    ∃ t, Reachable t ∧ t.started = true ∧ t.dir = .transmit ∧ t.busy = true ∧ t.chan = 16 ∧ t.pwr = 10 :=
  ⟨_, ⟨1, (presenting 0x0A85 true false .receive 0 0).port, [], rfl⟩, rfl, rfl, rfl, rfl, rfl⟩

theorem witness_StepPointerStaysInItsSequence :
    (Inv Config.hardware (presenting 0x0003 true true .receive 16 10) ∧ (presenting 0x0003 true true .receive 16 10).seq = .none) ∧
      Inv Config.hardware (running .start 6) ∧ Inv Config.hardware (running .chch 4) ∧ Inv Config.hardware (running .ka 1) :=
  ⟨⟨ready_inv _ _ _ _, rfl⟩, running_inv .start 6 (by decide) (by decide), running_inv .chch 4 (by decide) (by decide),
    running_inv .ka 1 (by decide) (by decide)⟩

theorem witness_HistoryIsOnlyAppendedTo :
    ((running .ka 0).port.rst = false ∧ ∃ t, step (running .ka 0) = .next t) ∧
      ((withRst State.reset).csN = true ∧ ∃ t, step (withRst State.reset) = .next t) ∧
      ((withRst selecting).csN = false ∧ ∃ t, step (withRst selecting) = .next t) :=
  ⟨⟨rfl, running_ka_step⟩, ⟨rfl, _, rfl⟩, ⟨rfl, _, rfl⟩⟩

theorem witness_DeviceIsSelectedOnlyInsideAFrame :
    (Inv Config.hardware selecting ∧ selecting.csN = false) ∧ (Inv Config.hardware (running .ka 1) ∧ (running .ka 1).csN = true) ∧
      Inv Config.hardware (presenting 0x0003 true true .receive 16 10) ∧
      (presenting 0x0003 true true .receive 16 10).busy = false :=
  ⟨⟨selecting_inv, rfl⟩, ⟨running_inv .ka 1 (by decide) (by decide), rfl⟩, ready_inv _ _ _ _, rfl⟩

/-! ### Whole-machine rules -/

theorem witness_HandleChangesOnlyByStartAndChch :
    (∃ t, step (presenting 0x0A85 true false .receive 0 0) = .next t ∧ t.dir ≠ .receive ∧ t.chan ≠ 0) ∧
      (∃ t, step (presenting 0x0002 true true .receive 16 10) = .next t ∧ t.chan ≠ 16 ∧ t.started = true) :=
  ⟨⟨_, rfl, by decide, by decide⟩, ⟨_, rfl, by decide, rfl⟩⟩

theorem witness_ErrIsWrittenAtPresentationsOnly :
    (presented (presenting 0x0000 true false .receive 0 0) = true ∧ ∃ t, step (presenting 0x0000 true false .receive 0 0) = .next t) ∧
      (presented (running .ka 0) = false ∧ ∃ t, step (running .ka 0) = .next t) :=
  ⟨⟨rfl, _, rfl⟩, ⟨rfl, running_ka_step⟩⟩

theorem witness_BusyRisesAtAcceptanceAndFallsAtEnd :
    (∃ t, step (presenting 0x0003 true true .receive 16 10) = .next t ∧ t.busy = true) ∧
      (∃ t, step (running .ka 1) = .next t ∧ (running .ka 1).busy = true ∧ t.busy = false) :=
  ⟨⟨_, rfl, rfl⟩, ⟨_, rfl, rfl, rfl⟩⟩

theorem witness_RunningSequenceIgnoresTheInputs :
    (running .ka 0).busy = true ∧ Inputs.quiet.rst = (running .ka 0).port.rst ∧ ∃ t, step (running .ka 0) = .next t :=
  ⟨rfl, rfl, running_ka_step⟩

theorem witness_MisoIsNeverSampled : ∃ t, step (presenting 0x0003 true true .receive 16 10) = .next t := ⟨_, rfl⟩

/-! ### Micro-steps and frames -/

theorem witness_MicroStepsDoWhatTheRulesSay :
    ((running .start 0).chan.toNat ≤ 16 ∧ ((running .start 0).dir = .transmit → (running .start 0).pwr.toNat ≤ 10)) ∧
      microOpAt (running .start 0).toArch = some .settle ∧ microOpAt (running .start 1).toArch = some .fStop ∧
      microOpAt (running .start 2).toArch = some .fBlob ∧ microOpAt (running .start 3).toArch = some .fPower ∧
      microOpAt (running .start 4).toArch = some .fChannel ∧ microOpAt (running .start 5).toArch = some .fMode ∧
      microOpAt (running .start 6).toArch = some .finish := by decide

theorem witness_CyclesRefineMicroSteps :
    Inv Config.hardware (running .ka 0) ∧ (running .ka 0).busy = true ∧ quiet (running .ka 0) = true ∧
      (running .ka 0).phase = .boundary ∧ (running .ka 0).settleCnt = 0 :=
  ⟨running_inv .ka 0 (by decide) (by decide), rfl, rfl, rfl, rfl⟩

theorem witness_WireCarriesTheFrame :
    Inv Config.hardware (running .start 3) ∧ (running .start 3).busy = true ∧ quiet (running .start 3) = true ∧
      (running .start 3).phase = .boundary ∧ microOpAt (running .start 3).toArch = some .fPower ∧
      ∃ l, frameBytes Config.hardware (running .start 3).toArch .fPower = .ok l :=
  ⟨running_inv .start 3 (by decide) (by decide), rfl, rfl, rfl, rfl, _, powerBytes_eq _ _ (fun _ => by decide)⟩

theorem witness_SettleHoldsTheBusIdle :
    Inv Config.hardware (running .start 0) ∧ (running .start 0).busy = true ∧ quiet (running .start 0) = true ∧
      microOpAt (running .start 0).toArch = some .settle ∧ (running .start 0).settleCnt = 0 ∧ 0 < Config.hardware.settleCycles :=
  ⟨running_inv .start 0 (by decide) (by decide), rfl, rfl, rfl, rfl, Nat.zero_lt_succ _⟩

/-- CS_N rises after the hold time, falls at the start of a frame, and stays 0 at the trailing edge of the last bit. -/
theorem witness_ChipSelectSpacing :
    (Inv Config.hardware (holding Config.hardware.tCshExtra) ∧ quiet (holding Config.hardware.tCshExtra) = true ∧
      ∃ t, step (holding Config.hardware.tCshExtra) = .next t ∧ (holding Config.hardware.tCshExtra).csN = false ∧ t.csN = true) ∧
    (Inv Config.hardware (running .ka 0) ∧ quiet (running .ka 0) = true ∧
      ∃ t, step (running .ka 0) = .next t ∧ (running .ka 0).csN = true ∧ t.csN = false) ∧
    (Inv Config.hardware trailing ∧ quiet trailing = true ∧
      ∃ t, step trailing = .next t ∧ trailing.csN = false ∧ trailing.sclk ≠ Config.hardware.cpol ∧ t.sclk = Config.hardware.cpol) := by
  refine ⟨⟨holding_inv, rfl, ?_⟩, ⟨running_inv .ka 0 (by decide) (by decide), rfl, _, rfl, rfl, rfl⟩, ⟨trailing_inv, rfl, ?_⟩⟩
  · have hn : ¬ (Config.hardware.tCshExtra + 1 < Config.hardware.tCsh) := Nat.lt_irrefl _
    refine ⟨passInputs (holding Config.hardware.tCshExtra)
      (deselectDevice Config.hardware [Config.txCode] (holding Config.hardware.tCshExtra)), ?_, rfl, ?_⟩
    · show cycle _ _ = _
      rw [cycle_of_busy rfl rfl, sequencerCycle_of_frame (op := .fMode) (l := [Config.txCode]) rfl rfl]
      simp only [frameCycle, show (holding Config.hardware.tCshExtra).phase = .hold from rfl,
        show (holding Config.hardware.tCshExtra).tcnt = Config.hardware.tCshExtra from rfl, hn, if_false, mapNext]
    · simp only [passInputs_csN, deselectDevice, deselectCycle, floatMosi_csN]; split <;> rfl
  · have hn : ¬ (Config.hardware.trailExtra + 1 < Config.hardware.trailCycles) := Nat.lt_irrefl _
    refine ⟨passInputs trailing (releaseMosi Config.hardware
      { trailing with sclk := Config.hardware.cpol, phase := .hold, tcnt := 0 }), ?_, rfl, ?_, ?_⟩
    · show cycle _ _ = _
      rw [cycle_of_busy rfl rfl, sequencerCycle_of_frame (op := .fMode) (l := [Config.txCode]) rfl rfl]
      simp only [frameCycle, show trailing.phase = .trail from rfl, show trailing.tcnt = Config.hardware.trailExtra from rfl, hn,
        if_false, trailingEdge, show trailing.bitIdx = 0 from rfl, show trailing.byteIdx = 0 from rfl]
      rfl
    · simp [trailing]
    · simp

/-! ### Commands -/

/-- One word for each branch of R114. -/
theorem witness_StartRunsAsItsRuleSays :
    (∀ w bus, Inv Config.hardware (presenting w bus false .receive 16 10) ∧ quiet (presenting w bus false .receive 16 10) = true ∧
      takes w (presenting w bus false .receive 16 10)) ∧
    (opField 0x1001 = 0b01 ∧ rsvField 0x1001 ≠ 0) ∧ (opField 0x0A85 = 0b01 ∧ rsvField 0x0A85 = 0) ∧
    (opField 0x0089 = 0b01 ∧ 16 < (chField 0x0089).toNat) ∧
    (opField 0x0B85 = 0b01 ∧ (chField 0x0B85).toNat = 16 ∧ dField 0x0B85 = 1 ∧ 10 < (pwField 0x0B85).toNat) ∧
    ((chField 0x0A85).toNat = 16 ∧ (pwField 0x0A85).toNat = 10) :=
  ⟨fun _ _ => ⟨ready_inv _ _ _ _, rfl, rfl, rfl⟩, by decide, by decide, by decide, by decide, by decide⟩

/-- One word for each branch of R120. -/
theorem witness_ChchRunsAsItsRuleSays :
    (∀ w bus started, Inv Config.hardware (presenting w bus started .transmit 16 10) ∧
      quiet (presenting w bus started .transmit 16 10) = true ∧ takes w (presenting w bus started .transmit 16 10)) ∧
    (opField 0x1002 = 0b10 ∧ rsvField 0x1002 ≠ 0) ∧ (opField 0x008A = 0b10 ∧ 16 < (chField 0x008A).toNat) ∧
    (opField 0x0F86 = 0b10 ∧ rsvField 0x0F86 = 0 ∧ (chField 0x0F86).toNat = 16) :=
  ⟨fun _ _ _ => ⟨ready_inv _ _ _ _, rfl, rfl, rfl⟩, by decide, by decide, by decide⟩

/-- One word for each branch of R125. -/
theorem witness_KaRunsAsItsRuleSays :
    (∀ w bus started, Inv Config.hardware (presenting w bus started .transmit 16 10) ∧
      quiet (presenting w bus started .transmit 16 10) = true ∧ takes w (presenting w bus started .transmit 16 10)) ∧
    (opField 0x8003 = 0b11 ∧ rsvField 0x8003 ≠ 0) ∧ (opField 0x0FFF = 0b11 ∧ rsvField 0x0FFF = 0) :=
  ⟨fun _ _ _ => ⟨ready_inv _ _ _ _, rfl, rfl, rfl⟩, by decide, by decide⟩

/-- The first KA can be taken, and so can the second, whatever state the first leaves. -/
theorem witness_RepeatedKaFramesAreIdentical :
    (Inv Config.hardware (presenting (encode (.ka 0)) true true .transmit 16 10) ∧
      quiet (presenting (encode (.ka 0)) true true .transmit 16 10) = true ∧
      takes (encode (.ka 0)) (presenting (encode (.ka 0)) true true .transmit 16 10) ∧
      (presenting (encode (.ka 0)) true true .transmit 16 10).port.busOk = true ∧
      (presenting (encode (.ka 0)) true true .transmit 16 10).started = true) ∧
    ∀ t : State, t.busy = false →
      let p := (presenting (encode (.ka 0x3FF)) true true .transmit 16 10).port
      quiet { t with port := p, upcoming := [] } = true ∧ takes (encode (.ka 0x3FF)) { t with port := p, upcoming := [] } ∧
        p.busOk = true :=
  ⟨⟨ready_inv _ _ _ _, rfl, ⟨rfl, rfl⟩, rfl, rfl⟩,
    fun t h => ⟨rfl, ⟨by simp [presented, Arch.cmdReady, h, presenting], rfl⟩, rfl⟩⟩

theorem witness_EverySequenceReachesItsEnd :
    (Inv Config.hardware trailing ∧ trailing.busy = true ∧ quiet trailing = true) ∧
      (Inv Config.hardware (running .start 0) ∧ (running .start 0).busy = true ∧ quiet (running .start 0) = true) :=
  ⟨⟨trailing_inv, rfl, rfl⟩, running_inv .start 0 (by decide) (by decide), rfl, rfl⟩

/-! ### The host's duty -/

/-- A machine at the END of a START, with a KA to come, and a ready machine that takes a KA, is reset and takes a START. -/
def endThenKa : State := { running .start 6 with upcoming := [(presenting 0x0003 true true .transmit 16 10).port] }

def kaResetStart : State :=
  { presenting 0x0003 true true .transmit 16 10 with
    upcoming := [{ Inputs.quiet with rst := true }, (presenting 0x0A85 true true .transmit 16 10).port] }

/-- Lists that keep the duty at its bound, and runs with such an interval. -/
theorem witness_KeepaliveDutyBoundsTheInterval :
    (keepsAlive 500 none ((0, .accepted .ka) :: (500, .accepted .ka) :: []) = true ∧
      keepsAlive 500 none ((7, .ended .start) :: (507, .accepted .chch) :: []) = true ∧
      keepsAlive 500 none ((7, .ended .chch) :: (507, .accepted .start) :: []) = true ∧
      keepsAlive 500 none ((0, .accepted .ka) :: (1, .ended .ka) :: (500, .accepted .ka) :: []) = true) ∧
    (eventAt endThenKa 0 = some (.ended .start) ∧ eventAt endThenKa 1 = some (.accepted .ka)) ∧
    (eventAt kaResetStart 0 = some (.accepted .ka) ∧ eventAt kaResetStart 1 = none ∧
      eventAt kaResetStart 2 = some (.accepted .start)) :=
  ⟨by decide, ⟨rfl, rfl⟩, rfl, rfl, rfl⟩

/-- A missed interval whose KA ended in between breaks the duty. -/
theorem test_keepalive_missed_after_ka :
    keepsAlive 500 none [(0, .accepted .ka), (1, .ended .ka), (501, .accepted .ka)] = false := by decide

theorem witness_LinkEventsAreAcceptancesAndEnds :
    ((withRst State.reset).port.rst = true ∧ ∃ t, step (withRst State.reset) = .next t) ∧
    (∃ t, step (presenting 0x0A85 true false .receive 0 0) = .next t ∧
      linkEvent (presenting 0x0A85 true false .receive 0 0) t = some (.accepted .start)) ∧
    (∃ t, step (presenting 0x0002 true true .receive 16 10) = .next t ∧
      linkEvent (presenting 0x0002 true true .receive 16 10) t = some (.accepted .chch)) ∧
    (∃ t, step (presenting 0x0003 true true .receive 16 10) = .next t ∧
      linkEvent (presenting 0x0003 true true .receive 16 10) t = some (.accepted .ka)) ∧
    (∃ t, step (running .chch 4) = .next t ∧ linkEvent (running .chch 4) t = some (.ended .chch)) :=
  ⟨⟨rfl, _, rfl⟩, ⟨_, rfl, rfl⟩, ⟨_, rfl, rfl⟩, ⟨_, rfl, rfl⟩, ⟨_, rfl, rfl⟩⟩

end Sys2Proof.Tests
end

section
/-! SUPPORT. The bit level refines the transaction level (R13, R140, R141): from a boundary, the run of each micro-operation
ends at the boundary of the transaction-level state that `microStep` answers. -/

namespace Sys2Proof.Proofs

open Sys2Proof.Machine Sys2Proof.Safety Sys2Proof.Laws

variable {hw : Hardware}

theorem microStep_of_settle {a : Arch} (hop : microOpAt a = some .settle) : microStep hw a = .ok (settleStep a) := by
  simp only [microStep, hop, microOpStep]

theorem microStep_of_finish {a : Arch} (hop : microOpAt a = some .finish) : microStep hw a = .ok (endStep a) := by
  simp only [microStep, hop, microOpStep]

/-- A frame micro-operation whose bytes can be read sends them as one indivisible step, R140. -/
theorem microStep_of_frame {a : Arch} {op : MicroOp} {l : List Byte} (hop : microOpAt a = some op)
    (hl : frameBytes hw a op = .ok l) : microStep hw a = .ok (busFrame l a) := by
  have hstep : microOpStep hw op a = (frameBytes hw a op).map (busFrame · a) := by
    have hf := frameBytes_isFrameOp hl
    cases op with
    | settle => cases hf
    | finish => cases hf
    | fStop => rfl
    | fBlob => rfl
    | fPower => rfl
    | fChannel => rfl
    | fMode => rfl
  simp only [microStep, hop]
  rw [hstep, hl]
  rfl

/-- In a busy state that meets the invariant, a frame micro-operation has its bytes and the engine can run them (R25, R87). -/
theorem frameOp_of_inv {s : State} (hi : Inv hw s) (hb : s.busy = true) {op : MicroOp} (hop : microOpAt s.toArch = some op)
    (hf : isFrameOp op = true) : ∃ l, frameBytes hw s.toArch op = .ok l ∧ FrameOp hw s.toArch l := by
  obtain ⟨l, hl, _, hpos, hshort⟩ := frameBytes_ok hw (handle_ok hi hb) hf
  exact ⟨l, hl, hb, ⟨op, hop, hl⟩, hshort, hpos⟩

/-- From a boundary, one or more cycles lead to the boundary of the transaction-level state the micro-step answers. -/
def RefinesMicroStep (hw : Hardware) (s : State) : Prop :=
  ∃ n t bits a, 0 < n ∧ RunsTo hw n s t bits ∧ microStep hw s.toArch = .ok a ∧ AtBoundary hw a t

/-- The cycles of SETTLE, of END and of each frame refine their micro-step, R142 to R148. -/
theorem refinesMicroStep_of_inv {s : State} (hi : Inv hw s) (hb : s.busy = true) (hs : AtBoundary hw s.toArch s) :
    RefinesMicroStep hw s := by
  obtain ⟨op, hop⟩ := Option.isSome_iff_exists.mp (hi.slot_exists hb)
  have frame (hf : isFrameOp op = true) : RefinesMicroStep hw s := by
    obtain ⟨l, hl, hfo⟩ := frameOp_of_inv hi hb hop hf
    obtain ⟨n, t, hr, ht, hn, _⟩ := frame_run hfo hs
    exact ⟨n, t, _, _, hn, hr, microStep_of_frame hop hl, ht⟩
  cases op with
  | settle =>
    obtain ⟨t, hr, ht⟩ := settle_run hb hop hs
    exact ⟨_, t, _, _, Nat.succ_pos hw.settleExtra, hr, microStep_of_settle hop, ht⟩
  | finish =>
    obtain ⟨t, hr, ht⟩ := end_run hb hop hs
    exact ⟨1, t, _, _, Nat.one_pos, hr, microStep_of_finish hop, ht⟩
  | fStop => exact frame rfl
  | fBlob => exact frame rfl
  | fPower => exact frame rfl
  | fChannel => exact frame rfl
  | fMode => exact frame rfl

/-- Settles O42: each micro-operation's run from a boundary ends at the boundary of the state `microStep` answers. -/
theorem cyclesRefineMicroSteps : Obligations.CyclesRefineMicroSteps := by
  intro s hi hb hq hp hs
  obtain ⟨n, t, _, a, hn, hr, hm, ht⟩ := refinesMicroStep_of_inv hi hb (atBoundary_of_inv hi hq hp hs)
  exact ⟨n, t, hn, hr.reaches, by rw [hm, ht.arch], ht.phase, ht.settle, ht.csN, ht.quiet⟩

end Sys2Proof.Proofs
end

section
/-! SUPPORT. Reads of the table ROM inside and outside its tables (R16, R51). -/

namespace Sys2Proof.Proofs

open Sys2Proof.Machine Sys2Proof.Laws

theorem readVector_getElem {n : Nat} (v : Vector Byte n) {i : Nat} (h : i < n) : readVector v i = .ok v[i] := dif_pos h

/-- Settles O23: each table read is a read of a byte vector, defined exactly below its length. -/
theorem tableReadsInsideTheTables : Obligations.TableReadsInsideTheTables :=
  ⟨fun _ h => readVector_getElem _ h, fun _ h => readVector_getElem _ h, fun _ h => readVector_getElem _ h,
    fun _ h => readVector_error _ (Nat.not_lt.mpr h), fun _ h => readVector_error _ (Nat.not_lt.mpr h),
    fun _ h => readVector_error _ (Nat.not_lt.mpr h)⟩

end Sys2Proof.Proofs
end

section
/-! SUPPORT. Every step keeps the invariant (R25, R27, R28, R31, R33, R150, R151, R154, R179): one lemma for each thing a cycle
can do, and with it the invariant of every reachable state. -/

namespace Sys2Proof.Proofs

open Sys2Proof.Machine Sys2Proof.Safety Sys2Proof.Laws

variable {hw : Hardware}

/-- Between micro-steps the invariant depends on the transaction level and SETTLE_CNT only: MOSI and the draws are free. -/
theorem inv_update_boundary {s u : State} (h : Inv hw s) (hp : s.phase = .boundary) (ha : AInv hw u.toArch)
    (hu : u = { s with toArch := u.toArch, settleCnt := u.settleCnt, mosi := u.mosi, draws := u.draws })
    (hs : u.settleCnt ≠ 0 → microOpAt u.toArch = some .settle) (hsc : u.settleCnt < hw.settleCycles) : Inv hw u := by
  have hr := inv_rest h hp
  rw [hu]
  exact inv_boundary ha hp hr.tcnt hr.csN hr.sclk hr.byteIdx hr.bitIdx hs hsc

/-- At rest only the transaction level matters. -/
theorem inv_update_ready {s u : State} (h : Inv hw s) (hb : s.busy = false) (ha : AInv hw u.toArch)
    (hu : u = { s with toArch := u.toArch, mosi := u.mosi, draws := u.draws }) : Inv hw u := by
  obtain ⟨hp, hs⟩ := inv_ready h hb
  have hu0 : u.settleCnt = 0 := by rw [hu]; exact hs
  refine inv_update_boundary h hp ha ?_ (fun hne => absurd hu0 hne) (by rw [hu0]; exact Nat.succ_pos _)
  rw [hu0, ← hs]; exact hu

/-! ### The transaction level -/

theorem microOpAt_beginSequence (a : Arch) {q : SeqId} (hq : q ≠ .none) : (microOpAt (beginSequence q a)).isSome = true := by
  cases q with
  | none => exact absurd rfl hq
  | start => rfl
  | chch => rfl
  | ka => rfl

/-- A sequence begins with a valid handle, R25 and R110. -/
theorem ainv_beginSequence {a : Arch} {q : SeqId} (hq : q ≠ .none) (hst : a.started = true) (ha : HandleOk a)
    (hh : ∀ e ∈ a.hist, eventLegal hw e) : AInv hw (beginSequence q a) where
  busy_iff := ⟨fun _ => hq, fun _ => rfl⟩
  idle_step := fun h => absurd h hq
  slot_exists := fun _ => microOpAt_beginSequence a hq
  busy_started := fun _ => hst
  busy_ok := fun _ => rfl
  chan_in_range := fun _ => ha.1
  pwr_in_range := fun _ => ha.2
  history := hh

/-- A rejection comes to a ready machine, so ERR is free to change, R179. -/
theorem ainv_reject {a : Arch} (h : AInv hw a) (hb : a.busy = false) (code : ErrCode) : AInv hw (reject code a) :=
  { h with busy_ok := fun hb' => absurd (hb.symm.trans hb') Bool.false_ne_true }

theorem ainv_exec {i : Instr} {s u : State} (h : AInv hw s.toArch) (hx : exec i s = .next u) : AInv hw u.toArch := by
  obtain ⟨_, rfl⟩ | ⟨hb, code, _, rfl⟩ | ⟨_, _, ch, d, pw, _, hc, hp, rfl⟩ | ⟨_, _, hst, ch, d, pw, _, hc, rfl⟩ |
    ⟨_, _, hst, x, _, rfl⟩ := exec_cases hx
  · exact h
  · exact ainv_reject h hb code
  · exact ainv_beginSequence (by decide) rfl ⟨channelInRange_iff.mp hc, powerAcceptable_iff.mp hp⟩ h.history
  · exact ainv_beginSequence (by decide) hst ⟨channelInRange_iff.mp hc, h.pwr_in_range hst⟩ h.history
  · exact ainv_beginSequence (by decide) hst ⟨h.chan_in_range hst, h.pwr_in_range hst⟩ h.history

theorem ainv_append_settle {a : Arch} (h : AInv hw a) : AInv hw (appendEvent .settle a) :=
  { h with
    slot_exists := h.slot_exists
    history := fun e he => by
      rcases List.mem_append.mp he with he | he
      · exact h.history e he
      · rw [List.mem_singleton.mp he]; trivial }

/-- SETTLE appends its event and advances STEP, R142. -/
theorem ainv_settleStep {a : Arch} (h : AInv hw a) (hb : a.busy = true) (hop : microOpAt a = some .settle) :
    AInv hw (settleStep a) :=
  ainv_advance (ainv_append_settle h) hb ⟨.settle, hop, by decide⟩

/-- Where no sequence runs, the handle's ranges and the history are all the invariant asks, R25 and R33. -/
theorem ainv_of_idle {a : Arch} (hb : a.busy = false) (hq : a.seq = .none) (hi : a.stepIdx = 0)
    (hc : a.started = true → a.chan.toNat < nCh) (hp : a.started = true → a.dir = .transmit → a.pwr.toNat < nPwr)
    (hh : ∀ e ∈ a.hist, eventLegal hw e) : AInv hw a where
  busy_iff := by simp [hb, hq]
  idle_step := fun _ => hi
  slot_exists := by simp [hb]
  busy_started := by simp [hb]
  busy_ok := by simp [hb]
  chan_in_range := hc
  pwr_in_range := hp
  history := hh

/-- END leaves no sequence, R148. -/
theorem ainv_endStep {a : Arch} (h : AInv hw a) : AInv hw (endStep a) :=
  ainv_of_idle rfl rfl rfl h.chan_in_range h.pwr_in_range h.history

/-- The reset values of R39 are consistent, with any legal history. -/
theorem ainv_reset {es : List Event} (he : ∀ e ∈ es, eventLegal hw e) : AInv hw { Arch.reset with hist := es } :=
  ainv_of_idle rfl rfl rfl (fun hst => absurd hst Bool.false_ne_true) (fun hst => absurd hst Bool.false_ne_true) he

/-! ### The cycles -/

/-- With CS_N = 0 a frame micro-operation runs; its bytes are the running frame, R31 and R87. -/
theorem frameOp_of_selected {s : State} (h : Inv hw s) (hc : s.csN = false) :
    s.busy = true ∧ ∃ op, microOpAt s.toArch = some op ∧ isFrameOp op = true ∧
      frameBytes hw s.toArch op = .ok (runningFrame hw s.toArch) := by
  obtain ⟨hb, hlt⟩ := h.engaged (selected_engaged h hc)
  exact ⟨hb, runningFrame_pos (Nat.zero_lt_of_lt hlt)⟩

/-- What a reset cuts is the cut of a frame that could have been sent, R201. -/
theorem cutEvents_legal {s : State} (h : Inv hw s) : ∀ e ∈ cutEvents hw s, eventLegal hw e := by
  intro e he
  cases hc : s.csN with
  | true => simp [cutEvents, hc] at he
  | false =>
    obtain ⟨hb, op, _, hf, hl⟩ := frameOp_of_selected h hc
    obtain ⟨l, hl', hleg, _⟩ := frameBytes_ok hw (handle_ok h hb) hf
    obtain rfl : runningFrame hw s.toArch = l := Except.ok.inj (hl.symm.trans hl')
    have he : e = truncation (runningFrame hw s.toArch) (bitsDriven hw (runningFrame hw s.toArch) s) := by
      simpa [cutEvents, hc] using he
    rw [he]
    exact ⟨_, hleg, cut_legal _ (bits_le h hc)⟩

/-- RST leaves the reset values and a legal history, R200 to R202. -/
theorem inv_resetCycle {s : State} (h : Inv hw s) : Inv hw (resetCycle hw s) := by
  have hist : ∀ e ∈ s.hist ++ cutEvents hw s ++ [.reset], eventLegal hw e := by
    intro e he
    simp only [List.mem_append, List.mem_singleton] at he
    rcases he with (he | he) | rfl
    · exact h.history e he
    · exact cutEvents_legal h e he
    · trivial
  exact inv_boundary (ainv_reset hist) rfl rfl rfl rfl rfl rfl (fun hne => absurd rfl hne) (Nat.succ_pos _)

/-- A cycle of SETTLE keeps the invariant, R142. -/
theorem inv_settleCycle {s : State} (h : Inv hw s) (hb : s.busy = true) (hop : microOpAt s.toArch = some .settle)
    (hp : s.phase = .boundary) : Inv hw (settleCycle hw s) := by
  unfold settleCycle
  split
  · next hn => exact inv_update_boundary h hp (inv_a (s := s) h) rfl (fun _ => hop) hn
  · exact inv_update_boundary h hp (ainv_settleStep (inv_a h) hb hop) rfl (fun hne => absurd rfl hne) (Nat.succ_pos _)

/-- The cycle of END keeps the invariant: no settle delay runs in it. -/
theorem inv_endCycle {s : State} (h : Inv hw s) (hop : microOpAt s.toArch = some .finish) (hp : s.phase = .boundary) :
    Inv hw (endCycle hw s) :=
  inv_update_boundary h hp (ainv_endStep (inv_a h)) rfl
    (fun hne => absurd (settleCnt_zero h (by rw [hop]; decide)) hne) h.settle_count

theorem inv_sequencerCycle {s u : State} (h : Inv hw s) (hb : s.busy = true) (hu : sequencerCycle hw s = .next u) :
    Inv hw u := by
  obtain ⟨hop, hp, rfl⟩ | ⟨hop, hp, rfl⟩ | ⟨op, l, hop, _, hl, hf⟩ := sequencerCycle_cases hu
  · exact inv_settleCycle h hb hop hp
  · exact inv_endCycle h hop hp
  · exact inv_frameCycle h hb hop hl hf

/-- A presentation moves the transaction level only. -/
theorem exec_toArch {i : Instr} {s u : State} (hx : exec i s = .next u) : ∃ a, u = { s with toArch := a } := by
  obtain ⟨_, rfl⟩ | ⟨_, _, _, rfl⟩ | ⟨_, _, _, _, _, _, _, _, rfl⟩ | ⟨_, _, _, _, _, _, _, _, rfl⟩ | ⟨_, _, _, _, _, rfl⟩ :=
    exec_cases hx <;> exact ⟨_, rfl⟩

theorem inv_presentation {i : Instr} {s u : State} (h : Inv hw s) (hb : s.busy = false) (hx : exec i s = .next u) :
    Inv hw (linesAfterPresentation hw u) := by
  refine inv_update_ready h hb (by simpa using ainv_exec (inv_a h) hx) ?_
  obtain ⟨a, rfl⟩ := exec_toArch hx
  unfold linesAfterPresentation
  split <;> rfl

/-- A cycle keeps the invariant, whatever the inputs. -/
theorem inv_cycle {s t : State} (h : Inv hw s) (ht : cycle hw s = .next t) : Inv hw t := by
  obtain ⟨_, rfl⟩ | ⟨_, hb, u, hu, rfl⟩ | ⟨_, hb, _, u, hx, rfl⟩ | ⟨_, hb, _, rfl⟩ := cycle_cases ht
  · exact inv_pass s (inv_resetCycle h)
  · exact inv_pass s (inv_sequencerCycle h hb hu)
  · exact inv_pass s (inv_presentation h hb hx)
  · exact inv_pass s (inv_update_ready h hb (inv_a (s := s) h) rfl)

/-- Settles O30: reset, sequencer cycle, presentation and idle cycle each keep the invariant. -/
theorem stepKeepsTheInvariant : Obligations.StepKeepsTheInvariant := fun _ _ h ht => inv_cycle h ht

/-- Settles O29: the reset values meet the invariant and the inputs are no part of it. -/
theorem resetMeetsTheInvariant : Obligations.ResetMeetsTheInvariant := fun p ps =>
  inv_ports p ps (inv_boundary (ainv_reset (es := []) (by simp)) rfl rfl rfl rfl rfl rfl (fun hne => absurd rfl hne)
    (Nat.succ_pos _))

/-- A reachable state meets the invariant, by induction on the length of the run. -/
theorem inv_of_reachable {s : State} (h : Reachable s) : Inv Config.hardware s := by
  obtain ⟨n, p, ps, hr⟩ := h
  induction n generalizing s with
  | zero => rw [← reaches_zero.mp hr]; exact resetMeetsTheInvariant p ps
  | succ n ih =>
    obtain ⟨u, hu, ht⟩ := reaches_succ.mp hr
    exact stepKeepsTheInvariant u s (ih hu) ht

/-- Settles O32: the handle's clauses are part of the invariant, which every reachable state meets. -/
theorem handleIsValidInReachableStates : Obligations.HandleIsValidInReachableStates := by
  intro s hs
  have h := inv_of_reachable hs
  exact ⟨fun hst => Nat.le_of_lt_succ (h.chan_in_range hst), fun hst hd => Nat.le_of_lt_succ (h.pwr_in_range hst hd),
    h.busy_iff, fun hb => ⟨h.busy_started hb, h.busy_ok hb⟩⟩

/-- Settles O35: CS_N and SCLK follow the stage of the frame, and a stage with CS_N = 0 lies inside a frame that runs. -/
theorem deviceIsSelectedOnlyInsideAFrame : Obligations.DeviceIsSelectedOnlyInsideAFrame := by
  intro s h
  refine ⟨fun hc => ?_, fun hc => ?_, fun hb => ?_⟩
  · obtain ⟨hb, op, hop, _, hl⟩ := frameOp_of_selected h hc
    have hlt := (h.engaged (selected_engaged h hc)).2
    exact ⟨hb, op, _, hop, hl, List.ne_nil_of_length_pos (Nat.zero_lt_of_lt hlt)⟩
  · have hp : s.phase ≠ .trail := by
      intro hp
      have := h.chip_select
      simp [hp, hc, selected] at this
    rw [h.clock, if_neg hp]
  · exact (inv_rest h (inv_ready h hb).1).csN

end Sys2Proof.Proofs
end

section
/-! SUPPORT. A reset inside a frame (R201): the cut records exactly the bits driven. -/

namespace Sys2Proof.Proofs

open Sys2Proof.Machine Sys2Proof.Safety Sys2Proof.Laws

variable {hw : Hardware}

/-- A cut of a frame after `n` of its bits counts `n` bits, in whole bytes and the rest. -/
theorem cut_bits (f : List Byte) {n : Nat} (hn : n ≤ 8 * f.length) :
    8 * (f.take (n / 8)).length + (Fin.ofNat 8 n).val = n := by
  rw [List.length_take, Fin.val_ofNat]
  omega

/-- A cut that has all bytes has no further bits. -/
theorem cut_whole (f : List Byte) {n : Nat} (hn : n ≤ 8 * f.length) (h : f.take (n / 8) = f) : Fin.ofNat 8 n = 0 := by
  have hcount := cut_bits f hn
  rw [h] at hcount
  exact Fin.ext (by rw [Fin.val_zero]; omega)

/-- The bit in progress counts only where it is on MOSI: with CPHA = 1 from its leading edge on (R151). -/
theorem cutBit_cases (hw : Hardware) (s : State) :
    cutBit hw s = 0 ∨ (cutBit hw s = 1 ∧ (s.phase = .trail ∨ hw.cpha = false)) := by
  unfold cutBit
  split
  · next h => exact .inr ⟨rfl, by simpa using (Bool.and_eq_true_iff.mp h).2⟩
  · exact .inl rfl

theorem bitsDriven_of_wait {s : State} (h : Inv hw s) (l : List Byte) (hp : s.phase = .select ∨ s.phase = .gap) :
    bitsDriven hw l s = 8 * s.byteIdx.toNat := by
  rcases hp with hp | hp
  · simp [bitsDriven, hp, (h.at_select hp).1]
  · simp [bitsDriven, hp]

theorem bitsDriven_of_shift (l : List Byte) {s : State} (hp : s.phase = .lead ∨ s.phase = .trail) :
    bitsDriven hw l s = 8 * s.byteIdx.toNat + (7 - s.bitIdx.toNat) + cutBit hw s := by
  rcases hp with hp | hp <;> simp only [bitsDriven, hp]

theorem bitsDriven_of_hold (l : List Byte) {s : State} (hp : s.phase = .hold) : bitsDriven hw l s = 8 * l.length := by
  simp only [bitsDriven, hp]

/-- Settles O28: the cut is the running frame's, after the bits driven so far. -/
theorem resetInsideAFrameTruncatesIt : Obligations.ResetInsideAFrameTruncatesIt := by
  intro s h hr hc
  obtain ⟨_, op, hop, _, hl⟩ := frameOp_of_selected h hc
  have hle := bits_le h hc
  generalize hf : runningFrame Config.hardware s.toArch = f at hl hle
  generalize hn : bitsDriven Config.hardware f s = n at hle
  have hcount := cut_bits f hle
  refine ⟨_, op, f, f.take (n / 8), Fin.ofNat 8 n, cycle_of_rst hr, rfl, hop, hl, ?_, List.take_prefix _ _,
    cut_whole f hle, fun hp => ?_, fun hp => ?_, fun hp => ?_⟩
  · simp [resetCycle, resetByRst, cutEvents, hc, truncation, hf, hn]
  · rw [hcount, ← hn, bitsDriven_of_wait h f hp]
  · rw [hcount, ← hn, bitsDriven_of_shift f hp]
    have hbit := s.bitIdx.isLt
    obtain hcut | ⟨hcut, hmosi⟩ := cutBit_cases Config.hardware s
    · exact .inl (by omega)
    · exact .inr ⟨by omega, hmosi⟩
  · rw [← hn, bitsDriven_of_hold f hp, Nat.mul_div_cancel_left _ (by decide), List.take_length]

end Sys2Proof.Proofs
end

section
/-! SUPPORT. What a presentation changes and what it answers, over words: the first cause of R176 decides. -/

namespace Sys2Proof.Proofs

open Sys2Proof.Machine Sys2Proof.Safety Sys2Proof.Laws

/-- Settles O18: whatever a presentation does, it writes no pin, no counter and no event. -/
theorem presentationFrame : Obligations.PresentationFrame := by
  intro i s t hx
  obtain ⟨_, rfl⟩ | ⟨_, code, _, rfl⟩ | ⟨_, _, ch, d, pw, rfl, _, _, rfl⟩ | ⟨_, _, _, ch, d, pw, rfl, _, rfl⟩ |
    ⟨_, _, _, x, rfl, rfl⟩ := exec_cases hx
  · exact ⟨rfl, rfl, fun _ => ⟨rfl, rfl, rfl⟩, fun _ _ => rfl, fun _ => ⟨rfl, rfl, rfl⟩⟩
  · exact ⟨rfl, rfl, fun _ => ⟨rfl, rfl, rfl⟩, fun _ _ => rfl, fun _ => ⟨rfl, rfl, rfl⟩⟩
  · exact ⟨rfl, rfl, fun h => absurd rfl (h ch d pw), fun h => absurd rfl (h ch d pw), fun h => absurd h Bool.false_ne_true⟩
  · exact ⟨rfl, rfl, fun _ => ⟨rfl, rfl, rfl⟩, fun _ h => absurd rfl (h ch d pw), fun h => absurd h Bool.false_ne_true⟩
  · exact ⟨rfl, rfl, fun _ => ⟨rfl, rfl, rfl⟩, fun _ _ => rfl, fun h => absurd h Bool.false_ne_true⟩

/-- An illegal word answers as `badWord` does, R129. -/
theorem exec_of_illegal {i : Instr} (h : i.illegal = true) (s : State) : exec i s = badWord s := by
  cases i with
  | start ch d pw => cases h
  | chch ch d pw => cases h
  | ka x => cases h
  | illegalOp00 hi => rfl
  | illegalRsv12 hi lo => rfl
  | illegalRsv13 hi lo => rfl
  | illegalRsv14 hi lo => rfl
  | illegalRsv15 lo => rfl

/-- The word's first cause decides its presentation: the code it raises, or the acceptance. -/
def AnswersFirstCause (w : CmdWord) (s : State) (r : Result) : Prop :=
  match firstCause w s with
  | some code => r = .next { s with err := code }
  | none => ∃ t, r = .next t ∧ t.err = .ok ∧ t.busy = true

/-- A presentation whose ordered checks fail exactly as the causes of R176 apply. -/
theorem answersFirstCause_present {w : CmdWord} {s : State} (hb : s.busy = false) {checks : List (Bool × ErrCode)}
    {accept : Arch → Arch} (hc : firstCause w s = firstError checks)
    (ha : firstError checks = none → (accept s.toArch).err = .ok ∧ (accept s.toArch).busy = true) :
    AnswersFirstCause w s (present checks accept s) := by
  unfold AnswersFirstCause
  rw [hc]
  cases he : firstError checks with
  | some code => exact present_of_error hb he
  | none => exact ⟨_, present_of_none hb he, ha he⟩

/-- A word with OP = 00 or RSV not 0 is illegal, R84. -/
theorem decodeWord_illegal {w : CmdWord} (h : opField w = 0 ∨ rsvField w ≠ 0) : (decodeWord w).illegal = true := by
  by_cases hr : rsvField w = 0
  · have ho : opField w = 0 := h.resolve_right (fun hne => hne hr)
    rw [decodeWord_of_rsv_zero hr]
    simp [decodeOp, ho, Instr.illegal]
  · exact decodeWord_illegal_of_rsv hr

/-- The channel check fails exactly for the ordinals above 16, R173. -/
theorem channelInRange_eq (c : BitVec 5) : channelInRange c = !decide (16 < c.toNat) := by
  rw [channelInRange, ← decide_not]; exact decide_eq_decide.mpr (by simp only [nCh]; omega)

/-- The power check fails exactly for the ordinals above 10 of a Transmit, R174. -/
theorem powerAcceptable_eq (b : BitVec 1) (p : BitVec 4) :
    powerAcceptable (.ofBit b) p = !(b == 1 && decide (10 < p.toNat)) := by
  obtain rfl | rfl := BitVec.eq_zero_or_eq_one b
  · rfl
  · show decide (p.toNat < nPwr) = !(true && decide (10 < p.toNat))
    rw [Bool.true_and, ← decide_not]
    exact decide_eq_decide.mpr (by simp only [nPwr]; omega)

/-- The causes are the failing checks, so the first cause is the first error. -/
theorem firstError_eq_find? (checks : List (Bool × ErrCode)) :
    firstError checks = ((checks.map (fun c => (!c.1, c.2))).find? (·.1)).map (·.2) := by
  induction checks with
  | nil => rfl
  | cons c rest ih => obtain ⟨b, e⟩ := c; cases b <;> simp [firstError, ih]

section Words

variable {w : CmdWord} (s : State)

theorem firstCause_illegal (h : opField w = 0 ∨ rsvField w ≠ 0) :
    firstCause w s = firstError [(false, .badCommand)] := by
  have : (opField w == 0 || rsvField w != 0) = true := by simpa using h
  simp only [firstCause, causes, List.find?_cons, this]; rfl

theorem firstCause_start (hr : rsvField w = 0) (ho : opField w = 0b01) : firstCause w s = firstError
    [(s.port.busOk, .busUnavailable), (channelInRange (chField w), .invalidChannel),
     (powerAcceptable (.ofBit (dField w)) (pwField w), .invalidPower)] := by
  rw [firstError_eq_find?, channelInRange_eq, powerAcceptable_eq]
  simp [firstCause, causes, hr, ho, List.find?_cons]

theorem firstCause_chch (hr : rsvField w = 0) (ho : opField w = 0b10) : firstCause w s = firstError
    [(s.port.busOk, .busUnavailable), (s.started, .notStarted), (channelInRange (chField w), .invalidChannel)] := by
  rw [firstError_eq_find?, channelInRange_eq]
  simp [firstCause, causes, hr, ho, List.find?_cons]

theorem firstCause_ka (hr : rsvField w = 0) (ho : opField w = 0b11) : firstCause w s = firstError
    [(s.port.busOk, .busUnavailable), (s.started, .notStarted)] := by
  rw [firstError_eq_find?]
  simp [firstCause, causes, hr, ho, List.find?_cons]

end Words

/-- The presentation of any word is decided by its first cause, R176. -/
theorem exec_decodeWord {w : CmdWord} {s : State} (hb : s.busy = false) : AnswersFirstCause w s (exec (decodeWord w) s) := by
  by_cases hill : opField w = 0 ∨ rsvField w ≠ 0
  · rw [exec_of_illegal (decodeWord_illegal hill)]
    exact answersFirstCause_present hb (firstCause_illegal s hill) (fun h => absurd h (by decide))
  · obtain ⟨h0, hr⟩ : opField w ≠ 0 ∧ rsvField w = 0 := by simpa using hill
    have hop : opField w = 0b01 ∨ opField w = 0b10 ∨ opField w = 0b11 := by
      generalize opField w = o at h0
      revert o
      decide
    rw [decodeWord_of_rsv_zero hr]
    obtain ho | ho | ho := hop
    · simp only [decodeOp, ho]
      exact answersFirstCause_present hb (firstCause_start s hr ho) (fun _ => ⟨rfl, rfl⟩)
    · simp only [decodeOp, ho]
      exact answersFirstCause_present hb (firstCause_chch s hr ho) (fun _ => ⟨rfl, rfl⟩)
    · simp only [decodeOp, ho]
      exact answersFirstCause_present hb (firstCause_ka s hr ho) (fun _ => ⟨rfl, rfl⟩)

/-- ERR after a presentation is its result: OK or the first cause's code. -/
theorem err_of_presentation {w : CmdWord} {s u : State} (hb : s.busy = false) (hx : exec (decodeWord w) s = .next u) :
    u.err = (firstCause w s).getD .ok := by
  have h := exec_decodeWord (w := w) hb
  unfold AnswersFirstCause at h
  rw [hx] at h
  cases hc : firstCause w s with
  | some code => simp only [hc, Host.Outcome.next.injEq] at h; rw [h]; rfl
  | none =>
    simp only [hc] at h
    obtain ⟨t, ht, herr, _⟩ := h
    cases ht
    exact herr

/-- A presentation that raises BUSY is one that no cause rejects. -/
theorem firstCause_of_accepted {w : CmdWord} {s u : State} (hb : s.busy = false) (hx : exec (decodeWord w) s = .next u)
    (hu : u.busy = true) : firstCause w s = none := by
  have h := exec_decodeWord (w := w) hb
  unfold AnswersFirstCause at h
  rw [hx] at h
  cases hc : firstCause w s with
  | some code =>
    simp only [hc, Host.Outcome.next.injEq] at h
    have hbusy : u.busy = s.busy := by rw [h]
    rw [hb, hu] at hbusy
    exact absurd hbusy.symm Bool.false_ne_true
  | none => rfl

/-- An acceptance begins at STEP = 0, R110. -/
theorem stepIdx_of_accepted {i : Instr} {s u : State} (hb : s.busy = false) (hx : exec i s = .next u)
    (hu : u.busy = true) : u.stepIdx = 0 := by
  obtain ⟨_, rfl⟩ | ⟨_, code, _, rfl⟩ | ⟨_, _, _, _, _, _, _, _, rfl⟩ | ⟨_, _, _, _, _, _, _, _, rfl⟩ | ⟨_, _, _, _, _, rfl⟩ :=
    exec_cases hx
  · exact absurd (hb.symm.trans hu) Bool.false_ne_true
  · exact absurd (hb.symm.trans hu) Bool.false_ne_true
  · rfl
  · rfl
  · rfl

end Sys2Proof.Proofs
end

section
/-! SUPPORT. What a step without a reset does to the transaction level, and the whole-machine rules that follow. -/

namespace Sys2Proof.Proofs

open Sys2Proof.Machine Sys2Proof.Safety Sys2Proof.Laws

section NoReset

variable {s t : State} (hr : s.port.rst = false) (ht : step s = .next t)
include hr ht

/-- Without a reset a step runs the sequencer, takes a word, or leaves the transaction level alone. -/
theorem step_arch :
    (s.busy = true ∧ presented s = false ∧ ∃ u, sequencerCycle Config.hardware s = .next u ∧ t.toArch = u.toArch) ∨
    (s.busy = false ∧ presented s = true ∧ ∃ u, exec (decodeWord s.port.cmdWord) s = .next u ∧ t.toArch = u.toArch) ∨
    (s.busy = false ∧ presented s = false ∧ t.toArch = s.toArch) := by
  obtain ⟨hr', _⟩ | ⟨_, hb, u, hu, rfl⟩ | ⟨_, hb, hv, u, hx, rfl⟩ | ⟨_, hb, hv, rfl⟩ := cycle_cases ht
  · exact absurd (hr.symm.trans hr') Bool.false_ne_true
  · exact .inl ⟨hb, by simp [presented, Arch.cmdReady, hb], u, hu, rfl⟩
  · exact .inr (.inl ⟨hb, by simp [presented, Arch.cmdReady, hr, hb, hv], u, hx, by simp⟩)
  · exact .inr (.inr ⟨hb, by simp [presented, hv], rfl⟩)

/-- A step without a reset appends at most one event, of a settle delay or a frame. -/
theorem hist_of_step : t.hist = s.hist ∨ t.hist = s.hist ++ [.settle] ∨ ∃ l, t.hist = s.hist ++ [.frame l] := by
  obtain ⟨_, _, u, hu, ha⟩ | ⟨_, _, u, hx, ha⟩ | ⟨_, _, ha⟩ := step_arch hr ht
  · rw [ha]
    obtain h | ⟨l, h⟩ | h | ⟨l, h⟩ | h | ⟨_, h⟩ := sequencerCycle_arch hu
    · exact .inl (by rw [h])
    · exact .inr (.inr ⟨l, by rw [h, appendEvent_hist]⟩)
    · exact .inl (by rw [h, advanceStep_hist])
    · exact .inr (.inr ⟨l, by rw [h, busFrame_hist]⟩)
    · exact .inr (.inl (by rw [h, settleStep_hist]))
    · exact .inl (by rw [h, endStep_hist])
  · exact .inl (by rw [ha, (presentationFrame _ _ _ hx).2.1])
  · exact .inl (by rw [ha])

end NoReset

/-- Settles O34: `hist_of_step` without a reset; with one, the events of `cutEvents` and Reset. -/
theorem historyIsOnlyAppendedTo : Obligations.HistoryIsOnlyAppendedTo := by
  intro s t ht
  have reset (hr : s.port.rst = true) : t.hist = s.hist ++ cutEvents Config.hardware s ++ [.reset] := by
    have hc : Host.Outcome.next _ = .next t := (cycle_of_rst hr).symm.trans ht
    cases hc
    rfl
  refine ⟨fun hr => hist_of_step hr ht, fun hr hc => ?_, fun hr hc => ?_⟩
  · rw [reset hr, cutEvents, hc, if_pos rfl, List.append_nil]
  · have h := reset hr
    rw [cutEvents, hc, if_neg Bool.false_ne_true, List.append_assoc] at h
    exact ⟨_, _, h⟩

/-- Settles O36: of all a step can do, only the acceptance of START and CHCH writes the handle. -/
theorem handleChangesOnlyByStartAndChch : Obligations.HandleChangesOnlyByStartAndChch := by
  intro s t hr ht
  obtain ⟨_, _, u, hu, ha⟩ | ⟨_, hp, u, hx, ha⟩ | ⟨_, _, ha⟩ := step_arch hr ht
  · obtain ⟨hd, hc, hpw, hst, _⟩ := sequencerCycle_frame hu
    rw [ha]
    exact ⟨by simp [hd, hpw, hst], fun h => absurd hc h, fun h => hst.trans h⟩
  · rw [ha]
    obtain ⟨_, rfl⟩ | ⟨_, code, _, rfl⟩ | ⟨_, _, ch, d, pw, hi, _, _, rfl⟩ | ⟨_, _, _, ch, d, pw, hi, _, rfl⟩ |
      ⟨_, _, _, x, hi, rfl⟩ := exec_cases hx
    · simp
    · simp
    · exact ⟨fun _ => ⟨hp, ch, d, pw, hi, rfl, rfl, rfl, rfl⟩, fun _ => ⟨hp, ch, rfl, .inl ⟨d, pw, hi⟩⟩, fun _ => rfl⟩
    · exact ⟨by simp, fun _ => ⟨hp, ch, rfl, .inr ⟨d, pw, hi⟩⟩, fun h => h⟩
    · simp
  · rw [ha]
    simp

/-- Settles O37: the sequencer never writes ERR, and a presentation writes its first cause. -/
theorem errIsWrittenAtPresentationsOnly : Obligations.ErrIsWrittenAtPresentationsOnly := by
  intro s t hr ht
  obtain ⟨_, hp, u, hu, ha⟩ | ⟨hb, hp, u, hx, ha⟩ | ⟨_, hp, ha⟩ := step_arch hr ht
  · rw [ha, hp]
    obtain ⟨_, _, _, _, herr⟩ := sequencerCycle_frame hu
    exact ⟨fun h => absurd h Bool.false_ne_true, fun _ => herr⟩
  · rw [ha, hp]
    exact ⟨fun _ => err_of_presentation hb hx, fun h => absurd h.symm Bool.false_ne_true⟩
  · rw [ha, hp]
    exact ⟨fun h => absurd h Bool.false_ne_true, fun _ => rfl⟩

/-- A sequencer cycle that clears BUSY is that of END, R148. -/
theorem sequencerCycle_of_busy_falls {hw : Hardware} {s u : State} (hb : s.busy = true) (hu : sequencerCycle hw s = .next u)
    (hf : u.busy = false) : microOpAt s.toArch = some .finish ∧ u.toArch = endStep s.toArch := by
  obtain h | ⟨l, h⟩ | h | ⟨l, h⟩ | h | h := sequencerCycle_arch hu
  case inr.inr.inr.inr.inr => exact h
  all_goals
    rw [h] at hf
    exact absurd (hf.symm.trans hb) Bool.false_ne_true

/-- Settles O38: a ready machine rises only by an acceptance, a busy one falls only by END. -/
theorem busyRisesAtAcceptanceAndFallsAtEnd : Obligations.BusyRisesAtAcceptanceAndFallsAtEnd := by
  intro s t hr ht
  refine ⟨fun hb hbt => ?_, fun hb hbt => ?_⟩
  · obtain ⟨hb', _⟩ | ⟨_, hp, u, hx, ha⟩ | ⟨_, _, ha⟩ := step_arch hr ht
    · exact absurd (hb.symm.trans hb') Bool.false_ne_true
    · rw [ha] at hbt ⊢
      exact ⟨hp, firstCause_of_accepted hb hx hbt, stepIdx_of_accepted hb hx hbt⟩
    · rw [ha, hb] at hbt
      exact absurd hbt Bool.false_ne_true
  · obtain ⟨_, _, u, hu, ha⟩ | ⟨hb', _⟩ | ⟨hb', _⟩ := step_arch hr ht
    · rw [ha] at hbt ⊢
      obtain ⟨hop, hend⟩ := sequencerCycle_of_busy_falls hb hu hbt
      rw [hend]
      exact ⟨hop, rfl, rfl, rfl⟩
    · exact absurd (hb'.symm.trans hb) Bool.false_ne_true
    · exact absurd (hb'.symm.trans hb) Bool.false_ne_true

end Sys2Proof.Proofs
end

section
/-! SUPPORT. STATUS (R36): its fields, and the handle fields as one. -/

namespace Sys2Proof.Proofs

open Sys2Proof.Machine Sys2Proof.Laws

section Fields

variable (a : Arch)

theorem status_busy : a.status.extractLsb' 0 1 = BitVec.ofBool a.busy := BitVec.extractLsb'_append_eq_right

theorem status_started : a.status.extractLsb' 1 1 = BitVec.ofBool a.started := by
  unfold Arch.status
  rw [BitVec.extractLsb'_append_eq_of_le (by decide)]
  exact BitVec.extractLsb'_append_eq_right

theorem status_err : a.status.extractLsb' 2 3 = errBits a.err := by
  unfold Arch.status
  iterate 2 rw [BitVec.extractLsb'_append_eq_of_le (by decide)]
  exact BitVec.extractLsb'_append_eq_right

theorem status_dir : a.status.extractLsb' 5 1 = a.dir.bit := by
  unfold Arch.status
  iterate 3 rw [BitVec.extractLsb'_append_eq_of_le (by decide)]
  exact BitVec.extractLsb'_append_eq_right

theorem status_chan : a.status.extractLsb' 6 5 = a.chan := by
  unfold Arch.status
  iterate 4 rw [BitVec.extractLsb'_append_eq_of_le (by decide)]
  exact BitVec.extractLsb'_append_eq_right

theorem status_pwr : a.status.extractLsb' 11 4 = a.pwr := by
  unfold Arch.status
  iterate 5 rw [BitVec.extractLsb'_append_eq_of_le (by decide)]
  exact BitVec.extractLsb'_append_eq_right

theorem status_reserved : a.status.extractLsb' 15 1 = 0 := by
  unfold Arch.status
  iterate 5 rw [BitVec.extractLsb'_append_eq_of_le (by decide)]
  exact BitVec.extractLsb'_append_eq_left

/-- The handle fields stand together. -/
theorem status_handle : a.status.extractLsb' 5 10 = a.pwr ++ a.chan ++ a.dir.bit := by
  rw [← status_pwr a, ← status_chan a, ← status_dir a]
  rw [BitVec.extractLsb'_append_extractLsb'_eq_extractLsb' (start₂ := 11) (start₁ := 6) (by decide),
    BitVec.extractLsb'_append_extractLsb'_eq_extractLsb' (start₂ := 6) (start₁ := 5) (by decide)]

end Fields

/-- A START that raises BUSY commits its operands, R114. -/
theorem handle_of_accepted_start {ch : BitVec 5} {d : Direction} {pw : BitVec 4} {s t : State} (hb : s.busy = false)
    (hx : exec (.start ch d pw) s = .next t) (ht : t.busy = true) : t.dir = d ∧ t.chan = ch ∧ t.pwr = pw := by
  obtain ⟨_, rfl⟩ | ⟨_, code, _, rfl⟩ | ⟨_, _, _, _, _, hi, _, _, rfl⟩ | ⟨_, _, _, _, _, _, hi, _⟩ | ⟨_, _, _, _, hi, _⟩ :=
    exec_cases hx
  · exact absurd (hb.symm.trans ht) Bool.false_ne_true
  · exact absurd (hb.symm.trans ht) Bool.false_ne_true
  · cases hi; exact ⟨rfl, rfl, rfl⟩
  · cases hi
  · cases hi

/-- A CHCH that raises BUSY commits its channel, R120. -/
theorem chan_of_accepted_chch {ch : BitVec 5} {d : BitVec 1} {pw : BitVec 4} {s t : State} (hb : s.busy = false)
    (hx : exec (.chch ch d pw) s = .next t) (ht : t.busy = true) : t.chan = ch := by
  obtain ⟨_, rfl⟩ | ⟨_, code, _, rfl⟩ | ⟨_, _, _, _, _, hi, _⟩ | ⟨_, _, _, _, _, _, hi, _, rfl⟩ | ⟨_, _, _, _, hi, _⟩ :=
    exec_cases hx
  · exact absurd (hb.symm.trans ht) Bool.false_ne_true
  · exact absurd (hb.symm.trans ht) Bool.false_ne_true
  · cases hi
  · cases hi; rfl
  · cases hi

/-- Settles O21: the fields of STATUS, with the handle in them from its acceptance on. -/
theorem statusWordFields : Obligations.StatusWordFields := by
  refine ⟨fun a => ⟨status_busy a, status_started a, status_err a, status_dir a, status_chan a, status_pwr a,
    status_reserved a⟩, fun _ => rfl, fun _ _ => rfl, fun ch d pw s t hb hx ht => ?_, fun ch d pw s t hb hx ht => ?_,
    fun s t hb hr ht => ?_⟩
  · obtain ⟨hd, hc, hp⟩ := handle_of_accepted_start hb hx ht
    rw [status_dir, status_chan, status_pwr, hd, hc, hp]
    exact ⟨rfl, rfl, rfl⟩
  · rw [status_chan, chan_of_accepted_chch hb hx ht]
  · obtain ⟨_, _, u, hu, ha⟩ | ⟨hb', _⟩ | ⟨hb', _⟩ := step_arch hr ht
    · obtain ⟨hd, hc, hp, _⟩ := sequencerCycle_frame hu
      rw [ha, status_handle, status_handle, hd, hc, hp]
    · exact absurd (hb'.symm.trans hb) Bool.false_ne_true
    · exact absurd (hb'.symm.trans hb) Bool.false_ne_true

end Sys2Proof.Proofs
end

section
/-! SUPPORT. The machine never stops in a state that meets the invariant (R51, R84, R149, R156): an engaged engine has a byte to
load, and between frames SP names a micro-operation. -/

namespace Sys2Proof.Proofs

open Sys2Proof.Machine Sys2Proof.Safety Sys2Proof.Laws

variable {hw : Hardware}

theorem beginByte_next {l : List Byte} {v : State} (h : v.byteIdx.toNat < l.length) : ∃ u, beginByte hw l v = .next u := by
  rw [beginByte, List.getElem?_eq_getElem h]
  exact ⟨_, rfl⟩

/-- BYTE_IDX does not wrap below the longest frame, R154. -/
theorem byteIdx_succ {i : BitVec 6} {n : Nat} (hn : n ≤ blobLen) (hi : i.toNat + 1 < n) : (i + 1).toNat = i.toNat + 1 := by
  have hn : n ≤ 48 := hn
  bv_omega

/-- A frame that has another byte gets to it, at once or over a gap, R150. -/
theorem nextByte_next {l : List Byte} {s : State} (hlen : l.length ≤ blobLen) (h : s.byteIdx.toNat + 1 < l.length) :
    ∃ u, nextByte hw l s = .next u := by
  unfold nextByte
  dsimp only
  split
  · exact beginByte_next (by rw [byteIdx_succ hlen h]; exact h)
  · exact ⟨_, rfl⟩

theorem trailingEdge_next {l : List Byte} {s : State} (hlen : l.length ≤ blobLen) : ∃ u, trailingEdge hw l s = .next u := by
  unfold trailingEdge
  split
  · exact ⟨_, rfl⟩
  · split
    · next h => exact nextByte_next hlen h
    · exact ⟨_, rfl⟩

/-- A frame cycle faults only where the engine is past the frame's last byte. -/
theorem frameCycle_next {l : List Byte} {s : State} (hlen : l.length ≤ blobLen)
    (h : s.phase ≠ .boundary → s.byteIdx.toNat < l.length) : ∃ u, frameCycle hw l s = .next u := by
  unfold frameCycle
  split
  · exact ⟨_, rfl⟩
  · next hp =>
    split
    · exact ⟨_, rfl⟩
    · exact beginByte_next (h (by rw [hp]; decide))
  · split <;> exact ⟨_, rfl⟩
  · split
    · exact ⟨_, rfl⟩
    · exact trailingEdge_next hlen
  · next hp =>
    split
    · exact ⟨_, rfl⟩
    · exact beginByte_next (h (by rw [hp]; decide))
  · split <;> exact ⟨_, rfl⟩
  · exact ⟨_, rfl⟩

/-- A micro-operation that emits no frame runs between frames, R150. -/
theorem boundary_of_not_frameOp {s : State} (h : Inv hw s) {op : MicroOp} (hop : microOpAt s.toArch = some op)
    (hf : isFrameOp op = false) : s.phase = .boundary := by
  by_contra hp
  obtain ⟨_, hlt⟩ := h.engaged hp
  obtain ⟨op', hop', hf', _⟩ := runningFrame_pos (Nat.zero_lt_of_lt hlt)
  obtain rfl : op = op' := Option.some.inj (hop.symm.trans hop')
  exact absurd (hf.symm.trans hf') Bool.false_ne_true

/-- A running sequence always gets on, R149. -/
theorem sequencerCycle_next {s : State} (h : Inv hw s) (hb : s.busy = true) : ∃ u, sequencerCycle hw s = .next u := by
  obtain ⟨op, hop⟩ := Option.isSome_iff_exists.mp (h.slot_exists hb)
  have frame (hf : isFrameOp op = true) : ∃ u, sequencerCycle hw s = .next u := by
    obtain ⟨l, hl, hfo⟩ := frameOp_of_inv h hb hop hf
    rw [sequencerCycle_of_frame hop hl]
    exact frameCycle_next hfo.short fun hp => runningFrame_eq hop hl ▸ (h.engaged hp).2
  cases op with
  | settle => exact ⟨_, sequencerCycle_of_settle hop (boundary_of_not_frameOp h hop rfl)⟩
  | finish => exact ⟨_, sequencerCycle_of_finish hop (boundary_of_not_frameOp h hop rfl)⟩
  | fStop => exact frame rfl
  | fBlob => exact frame rfl
  | fPower => exact frame rfl
  | fChannel => exact frame rfl
  | fMode => exact frame rfl

/-- Settles O31: reset, sequencer cycle, presentation and idle cycle each answer a next state. -/
theorem invariantStatesNeverStop : Obligations.InvariantStatesNeverStop := by
  intro s h
  cases hr : s.port.rst with
  | true => exact ⟨_, cycle_of_rst hr⟩
  | false =>
    cases hb : s.busy with
    | true =>
      obtain ⟨u, hu⟩ := sequencerCycle_next h hb
      exact ⟨passInputs s u, by rw [step, cycle_of_busy hr hb, hu]; rfl⟩
    | false =>
      cases hv : s.port.cmdValid with
      | true =>
        obtain ⟨u, hu⟩ := exec_next (decodeWord s.port.cmdWord) s
        exact ⟨_, cycle_of_presented hr hb hv hu⟩
      | false => exact ⟨_, cycle_of_idle hr hb hv⟩

end Sys2Proof.Proofs
end

section
/-! SUPPORT. The frame on the wire (R54, R55, R150, R151), from every state in which a frame starts. -/

namespace Sys2Proof.Proofs

open Sys2Proof.Machine Sys2Proof.Safety Sys2Proof.Laws

/-- Settles O43: the run of the frame from the boundary, `frame_run`, samples its bits and ends in `busFrame`. -/
theorem wireCarriesTheFrame : Obligations.WireCarriesTheFrame := by
  intro s op l hi hb hq hp hop hl
  obtain ⟨l', hl', hf⟩ := frameOp_of_inv hi hb hop (frameBytes_isFrameOp hl)
  obtain rfl : l = l' := Except.ok.inj (hl.symm.trans hl')
  have hsettle : s.settleCnt = 0 := settleCnt_zero hi (by rw [hop]; rintro ⟨⟩; cases hl)
  obtain ⟨n, t, hr, ht, _, hn⟩ := frame_run hf (atBoundary_of_inv hi hq hp hsettle)
  exact ⟨n, t, hr.reaches, hr.2, ht.arch, ht.phase, hn⟩

end Sys2Proof.Proofs
end

section
/-! SUPPORT. A busy machine holds the word and the handle (R111). -/

namespace Sys2Proof.Proofs

open Sys2Proof.Machine Sys2Proof.Laws

theorem badWord_of_busy {s : State} (hb : s.busy = true) : badWord s = .next s := present_of_busy hb

/-- While BUSY = 1 every instruction holds (log 14). -/
theorem exec_of_busy (i : Instr) {s : State} (hb : s.busy = true) : exec i s = .next s := by
  cases i with
  | start ch d pw => exact present_of_busy hb
  | chch ch d pw => exact present_of_busy hb
  | ka x => exact present_of_busy hb
  | illegalOp00 hi => exact badWord_of_busy hb
  | illegalRsv12 hi lo => exact badWord_of_busy hb
  | illegalRsv13 hi lo => exact badWord_of_busy hb
  | illegalRsv14 hi lo => exact badWord_of_busy hb
  | illegalRsv15 lo => exact badWord_of_busy hb

/-- Whatever a step does, the port has the levels of the next cycle after it (log 1). -/
theorem port_of_step {s t : State} (ht : step s = .next t) : t.port = nextPort s := by
  obtain ⟨_, _, rfl⟩ := mapNext_eq_next.mp ht
  rfl

/-- Where no inputs are planned, a word that is not taken stays at the port with its CMD_VALID (R111, log 1). -/
theorem nextPort_of_not_presented {s : State} (hu : s.upcoming = []) (hp : presented s = false) :
    nextPort s = { s.port with rst := false } := by
  simp [nextPort, heldInputs, hu, hp]

/-- Settles O19: a busy machine takes no word, and its step is a sequencer cycle. -/
theorem busyMachineHoldsTheWord : Obligations.BusyMachineHoldsTheWord := by
  refine ⟨fun i s hb => exec_of_busy i hb, fun s t hb hr ht => ?_⟩
  obtain ⟨_, hp, u, hu, ha⟩ | ⟨hb', _⟩ | ⟨hb', _⟩ := step_arch hr ht
  · obtain ⟨hd, hc, hpw, hst, herr⟩ := sequencerCycle_frame hu
    rw [ha, port_of_step ht]
    refine ⟨hd, hc, hpw, hst, herr, fun hup => ?_⟩
    rw [nextPort_of_not_presented hup hp]
    exact ⟨rfl, rfl⟩
  · exact absurd (hb'.symm.trans hb) Bool.false_ne_true
  · exact absurd (hb'.symm.trans hb) Bool.false_ne_true

end Sys2Proof.Proofs
end

section
/-! SUPPORT. Decoder and encoder are inverse to each other (R80 to R85): what the decoder answers, row by row of the opcode table,
and when; how a word is cut into its fields and put together from them. -/

namespace Sys2Proof.Proofs

open Sys2Proof.Laws

/-! ### The decoder, row by row -/

section Rows

variable {w : CmdWord}

theorem decodeWord_start (hr : rsvField w = 0) (ho : opField w = 0b01) :
    decodeWord w = .start (chField w) (.ofBit (dField w)) (pwField w) := by
  rw [decodeWord_of_rsv_zero hr]; simp [decodeOp, ho]

theorem decodeWord_chch (hr : rsvField w = 0) (ho : opField w = 0b10) :
    decodeWord w = .chch (chField w) (dField w) (pwField w) := by
  rw [decodeWord_of_rsv_zero hr]; simp [decodeOp, ho]

theorem decodeWord_ka (hr : rsvField w = 0) (ho : opField w = 0b11) : decodeWord w = .ka (w.extractLsb' 2 10) := by
  rw [decodeWord_of_rsv_zero hr]; simp [decodeOp, ho]

theorem decodeWord_illegalOp00 (hr : rsvField w = 0) (ho : opField w = 0b00) :
    decodeWord w = .illegalOp00 (w.extractLsb' 2 14) := by
  rw [decodeWord_of_rsv_zero hr]; simp [decodeOp, ho]

theorem decodeWord_illegalRsv12 (h12 : w.getLsbD 12 = true) :
    decodeWord w = .illegalRsv12 (w.extractLsb' 13 3) (w.extractLsb' 0 12) := if_pos h12

theorem decodeWord_illegalRsv13 (h12 : w.getLsbD 12 = false) (h13 : w.getLsbD 13 = true) :
    decodeWord w = .illegalRsv13 (w.extractLsb' 14 2) (w.extractLsb' 0 13) := by
  simp only [decodeWord, h12, h13, Bool.false_eq_true, if_false, if_true]

theorem decodeWord_illegalRsv14 (h12 : w.getLsbD 12 = false) (h13 : w.getLsbD 13 = false) (h14 : w.getLsbD 14 = true) :
    decodeWord w = .illegalRsv14 (w.extractLsb' 15 1) (w.extractLsb' 0 14) := by
  simp only [decodeWord, h12, h13, h14, Bool.false_eq_true, if_false, if_true]

theorem decodeWord_illegalRsv15 (h12 : w.getLsbD 12 = false) (h13 : w.getLsbD 13 = false) (h14 : w.getLsbD 14 = false)
    (h15 : w.getLsbD 15 = true) : decodeWord w = .illegalRsv15 (w.extractLsb' 0 15) := by
  simp only [decodeWord, h12, h13, h14, h15, Bool.false_eq_true, if_false, if_true]

end Rows

/-- Settles O6: with RSV = 0 the decoder reads the OP field. -/
theorem opFieldSelectsTheCommand : Obligations.OpFieldSelectsTheCommand := fun _ hr =>
  ⟨decodeWord_start hr, decodeWord_chch hr, fun ho => ⟨_, decodeWord_ka hr ho⟩, fun ho => decodeWord_illegal (.inl ho)⟩

/-! ### Parts of a word -/

section Parts

variable {a n m : Nat}

theorem extractLsb'_middle (hi : BitVec a) (x : BitVec n) (lo : BitVec m) : (hi ++ x ++ lo).extractLsb' m n = x := by
  rw [BitVec.extractLsb'_append_eq_of_le le_rfl, Nat.sub_self, BitVec.extractLsb'_append_eq_right]

theorem extractLsb'_top (hi : BitVec a) (x : BitVec n) (lo : BitVec m) : (hi ++ x ++ lo).extractLsb' (m + n) a = hi := by
  rw [BitVec.extractLsb'_append_eq_of_le (Nat.le_add_right m n), Nat.add_sub_cancel_left, BitVec.extractLsb'_append_eq_left]

theorem append_three_parts (w : BitVec (a + n + m)) :
    w.extractLsb' (m + n) a ++ w.extractLsb' m n ++ w.extractLsb' 0 m = w := by
  rw [BitVec.extractLsb'_append_extractLsb'_eq_extractLsb' rfl, BitVec.extractLsb'_append_extractLsb']

theorem getLsbD_append_lt {j : Nat} (hi : BitVec a) (lo : BitVec m) (hj : j < m) :
    (hi ++ lo).getLsbD j = lo.getLsbD j := by
  rw [BitVec.getLsbD_append, if_pos hj]

theorem getLsbD_append_width (hi : BitVec a) (lo : BitVec m) : (hi ++ lo).getLsbD m = hi.getLsbD 0 := by
  rw [BitVec.getLsbD_append, if_neg (lt_irrefl m), Nat.sub_self]

theorem getLsbD_set_bit (hi : BitVec a) (lo : BitVec m) : (hi ++ 1#1 ++ lo).getLsbD m = true :=
  (getLsbD_append_width _ lo).trans (getLsbD_append_lt hi 1#1 Nat.one_pos)

theorem extractLsb'_one_of_getLsbD {w : BitVec a} (h : w.getLsbD n = true) : w.extractLsb' n 1 = 1#1 := by
  rwa [BitVec.getLsbD_eq_extractLsb', beq_iff_eq] at h

/-- A word with a bit set is what is above the bit, the bit, and what is below it. -/
theorem append_set_bit {w : BitVec (a + 1 + m)} (h : w.getLsbD m = true) :
    w.extractLsb' (m + 1) a ++ 1#1 ++ w.extractLsb' 0 m = w := by
  rw [← extractLsb'_one_of_getLsbD h, append_three_parts]

theorem extractLsb'_eq_zero_iff {w : BitVec a} {i : Nat} :
    w.extractLsb' i n = 0 ↔ ∀ j < n, w.getLsbD (i + j) = false := by
  constructor
  · intro h j hj
    have hj' := BitVec.getLsbD_extractLsb' i n w j
    rw [h] at hj'
    simpa [hj] using hj'.symm
  · intro h
    refine BitVec.eq_of_getLsbD_eq fun j hj => ?_
    simp [BitVec.getLsbD_extractLsb', h j hj]

theorem getLsbD_append_of_extractLsb'_zero {i j : Nat} (hi : BitVec a) {lo : BitVec m} (h : lo.extractLsb' i n = 0)
    (hm : i + n ≤ m) (hj : j < n) : (hi ++ lo).getLsbD (i + j) = false := by
  rw [getLsbD_append_lt hi lo (by omega)]
  exact extractLsb'_eq_zero_iff.mp h j hj

theorem extractLsb'_low_eq_zero {i : Nat} {w : BitVec a} (hm : i + n ≤ m) (h : ∀ j < n, w.getLsbD (i + j) = false) :
    (w.extractLsb' 0 m).extractLsb' i n = 0 := by
  rw [BitVec.extractLsb'_extractLsb'_of_le hm]
  exact extractLsb'_eq_zero_iff.mpr h

end Parts

theorem opField_append (hi : BitVec 14) (o : BitVec 2) : opField (hi ++ o) = o := BitVec.extractLsb'_append_eq_right

theorem rsvField_append (hi : BitVec 14) (o : BitVec 2) : rsvField (hi ++ o) = hi.extractLsb' 10 4 :=
  BitVec.extractLsb'_append_eq_of_le (by decide)

theorem append_opField (w : CmdWord) : w.extractLsb' 2 14 ++ opField w = w := BitVec.extractLsb'_append_extractLsb'

theorem rsvField_append_opField (w : CmdWord) : rsvField w ++ w.extractLsb' 2 10 ++ opField w = w :=
  append_three_parts (a := 4) (n := 10) (m := 2) w

section Fields

variable (r p : BitVec 4) (c : BitVec 5) (d : BitVec 1) (o : BitVec 2)

theorem dField_fields : dField (r ++ p ++ c ++ d ++ o) = d := extractLsb'_middle (r ++ p ++ c) d o

theorem chField_fields : chField (r ++ p ++ c ++ d ++ o) = c :=
  (BitVec.extractLsb'_append_eq_of_le (by decide)).trans (extractLsb'_middle (r ++ p) c d)

theorem pwField_fields : pwField (r ++ p ++ c ++ d ++ o) = p :=
  ((BitVec.extractLsb'_append_eq_of_le (by decide)).trans (BitVec.extractLsb'_append_eq_of_le (by decide))).trans
    (extractLsb'_middle r p c)

theorem rsvField_fields : rsvField (r ++ p ++ c ++ d ++ o) = r :=
  ((rsvField_append _ o).trans (BitVec.extractLsb'_append_eq_of_le (by decide))).trans (extractLsb'_top r p c)

end Fields

theorem ofBit_bit (d : Direction) : Direction.ofBit d.bit = d := by cases d <;> rfl

theorem bit_ofBit (b : BitVec 1) : (Direction.ofBit b).bit = b := by
  obtain rfl | rfl := BitVec.eq_zero_or_eq_one b <;> rfl

/-! ### Both round trips -/

/-- Settles O3, row by row: the word's fields are the operands, and its RSV bits are those the row is chosen by. -/
theorem decodeOfEncodeIsTheInstruction : Obligations.DecodeOfEncodeIsTheInstruction := by
  intro i hwf
  cases i with
  | start ch d pw =>
    have h := decodeWord_start (rsvField_fields 0 pw ch d.bit 0b01) (opField_append _ _)
    rwa [chField_fields, dField_fields, pwField_fields, ofBit_bit] at h
  | chch ch d pw =>
    have h := decodeWord_chch (rsvField_fields 0 pw ch d 0b10) (opField_append _ _)
    rwa [chField_fields, dField_fields, pwField_fields] at h
  | ka x =>
    exact (decodeWord_ka ((rsvField_append _ _).trans BitVec.extractLsb'_append_eq_left) (opField_append _ _)).trans
      (congrArg Instr.ka (extractLsb'_middle 0#4 x 0b11#2))
  | illegalOp00 hi =>
    have hr : rsvField (hi ++ 0b00#2) = 0 := (rsvField_append _ _).trans (beq_iff_eq.mp hwf)
    exact (decodeWord_illegalOp00 hr (opField_append _ _)).trans
      (congrArg Instr.illegalOp00 BitVec.extractLsb'_append_eq_left)
  | illegalRsv12 hi lo =>
    exact (decodeWord_illegalRsv12 (getLsbD_set_bit hi lo)).trans
      (congrArg₂ Instr.illegalRsv12 (extractLsb'_top hi 1 lo) BitVec.extractLsb'_append_eq_right)
  | illegalRsv13 hi lo =>
    have hlo {j : Nat} := getLsbD_append_of_extractLsb'_zero (j := j) (hi ++ 1#1) (beq_iff_eq.mp hwf) (by decide)
    exact (decodeWord_illegalRsv13 (hlo Nat.one_pos) (getLsbD_set_bit hi lo)).trans
      (congrArg₂ Instr.illegalRsv13 (extractLsb'_top hi 1 lo) BitVec.extractLsb'_append_eq_right)
  | illegalRsv14 hi lo =>
    have hlo {j : Nat} := getLsbD_append_of_extractLsb'_zero (j := j) (hi ++ 1#1) (beq_iff_eq.mp hwf) (by decide)
    exact (decodeWord_illegalRsv14 (hlo Nat.two_pos) (hlo Nat.one_lt_two) (getLsbD_set_bit hi lo)).trans
      (congrArg₂ Instr.illegalRsv14 (extractLsb'_top hi 1 lo) BitVec.extractLsb'_append_eq_right)
  | illegalRsv15 lo =>
    have hlo {j : Nat} := getLsbD_append_of_extractLsb'_zero (j := j) 1#1 (beq_iff_eq.mp hwf) (by decide)
    exact (decodeWord_illegalRsv15 (hlo (j := 0) (by decide)) (hlo (j := 1) (by decide)) (hlo (j := 2) (by decide))
      (getLsbD_append_width 1#1 lo)).trans (congrArg Instr.illegalRsv15 BitVec.extractLsb'_append_eq_right)

theorem opField_cases (w : CmdWord) : opField w = 0b00 ∨ opField w = 0b01 ∨ opField w = 0b10 ∨ opField w = 0b11 := by
  generalize opField w = o
  revert o
  decide

theorem encode_decodeWord_of_rsv_zero {w : CmdWord} (hr : rsvField w = 0) :
    (decodeWord w).wf = true ∧ encode (decodeWord w) = w := by
  have hfields := word_eq_fields w
  have hop := append_opField w
  have hmid := rsvField_append_opField w
  rw [hr] at hfields hmid
  obtain ho | ho | ho | ho := opField_cases w
  · have hwf := rsvField_append (w.extractLsb' 2 14) (opField w)
    rw [hop, hr] at hwf
    rw [decodeWord_illegalOp00 hr ho]
    rw [ho] at hop
    exact ⟨beq_iff_eq.mpr hwf.symm, hop⟩
  · rw [decodeWord_start hr ho]
    rw [ho, ← bit_ofBit (dField w)] at hfields
    exact ⟨rfl, hfields.symm⟩
  · rw [decodeWord_chch hr ho]
    rw [ho] at hfields
    exact ⟨rfl, hfields.symm⟩
  · rw [decodeWord_ka hr ho]
    rw [ho] at hmid
    exact ⟨rfl, hmid⟩

/-- Either RSV = 0, or one of its bits is the lowest that is set. -/
theorem rsvField_zero_or_lowest (w : CmdWord) : rsvField w = 0 ∨ w.getLsbD 12 = true ∨
    (w.getLsbD 12 = false ∧ w.getLsbD 13 = true) ∨
    (w.getLsbD 12 = false ∧ w.getLsbD 13 = false ∧ w.getLsbD 14 = true) ∨
    (w.getLsbD 12 = false ∧ w.getLsbD 13 = false ∧ w.getLsbD 14 = false ∧ w.getLsbD 15 = true) := by
  rw [rsvField_eq_zero_iff]
  generalize w.getLsbD 12 = b12, w.getLsbD 13 = b13, w.getLsbD 14 = b14, w.getLsbD 15 = b15
  revert b12 b13 b14 b15
  decide

/-- Settles O4: with RSV = 0 by the OP field, otherwise by the lowest RSV bit that is set. -/
theorem encodeOfDecodeIsTheWord : Obligations.EncodeOfDecodeIsTheWord := by
  intro w
  obtain hr | h12 | ⟨h12, h13⟩ | ⟨h12, h13, h14⟩ | ⟨h12, h13, h14, h15⟩ := rsvField_zero_or_lowest w
  · exact encode_decodeWord_of_rsv_zero hr
  · rw [decodeWord_illegalRsv12 h12]
    exact ⟨rfl, append_set_bit (a := 3) (m := 12) h12⟩
  · rw [decodeWord_illegalRsv13 h12 h13]
    exact ⟨beq_iff_eq.mpr (extractLsb'_low_eq_zero (by decide) fun j hj => by interval_cases j; assumption),
      append_set_bit (a := 2) (m := 13) h13⟩
  · rw [decodeWord_illegalRsv14 h12 h13 h14]
    exact ⟨beq_iff_eq.mpr (extractLsb'_low_eq_zero (by decide) fun j hj => by interval_cases j <;> assumption),
      append_set_bit (a := 1) (m := 14) h14⟩
  · rw [decodeWord_illegalRsv15 h12 h13 h14 h15]
    have hw : w.extractLsb' 15 1 ++ w.extractLsb' 0 15 = w := BitVec.extractLsb'_append_extractLsb'
    rw [extractLsb'_one_of_getLsbD h15] at hw
    exact ⟨beq_iff_eq.mpr (extractLsb'_low_eq_zero (by decide) fun j hj => by interval_cases j <;> assumption), hw⟩

end Sys2Proof.Proofs
end

section
/-! SUPPORT. The rows of the opcode map by their masks (R84): which of them a word matches. -/

namespace Sys2Proof.Proofs

open Sys2Proof.Laws

/-- The three legal rows of the opcode map, whether a word matches each. -/
def legalRows (w : CmdWord) : List Bool :=
  [decide (w &&& 0xF003 = 0x0001), decide (w &&& 0xF003 = 0x0002), decide (w &&& 0xF003 = 0x0003)]

/-- The five illegal rows of the opcode map, whether a word matches each. -/
def illegalRows (w : CmdWord) : List Bool :=
  [decide (w &&& 0x0003 = 0x0000), decide (w &&& 0x1000 = 0x1000), decide (w &&& 0x2000 = 0x2000),
    decide (w &&& 0x4000 = 0x4000), decide (w &&& 0x8000 = 0x8000)]

theorem and_legalMask (w : CmdWord) : w &&& 0xF003 = rsvField w ++ 0#10 ++ opField w := by
  have hmask : (0xF003 : CmdWord) = BitVec.allOnes 4 ++ 0#10 ++ BitVec.allOnes 2 := by decide
  conv_lhs => rw [← rsvField_append_opField w, hmask]
  rw [BitVec.and_append, BitVec.and_append, BitVec.and_allOnes, BitVec.and_allOnes, BitVec.and_zero]

theorem and_opMask (w : CmdWord) : w &&& 0x0003 = 0#14 ++ opField w := by
  have hmask : (0x0003 : CmdWord) = 0#14 ++ BitVec.allOnes 2 := by decide
  conv_lhs => rw [← append_opField w, hmask]
  rw [BitVec.and_append, BitVec.and_allOnes, BitVec.and_zero]

/-- A legal row is matched by RSV = 0 and its OP code. -/
theorem legalRow_iff (w : CmdWord) (op : BitVec 2) : w &&& 0xF003 = 0#4 ++ 0#10 ++ op ↔ rsvField w = 0 ∧ opField w = op := by
  rw [and_legalMask]
  constructor
  · intro h
    have hr := congrArg rsvField h
    have ho := congrArg opField h
    rw [rsvField_append, rsvField_append] at hr
    rw [opField_append, opField_append] at ho
    exact ⟨(BitVec.extractLsb'_append_eq_left.symm.trans hr).trans BitVec.extractLsb'_append_eq_left, ho⟩
  · rintro ⟨hr, ho⟩
    rw [hr, ho]; rfl

theorem op00Row_iff (w : CmdWord) : w &&& 0x0003 = 0x0000 ↔ opField w = 0 := by
  rw [and_opMask]; exact BitVec.append_right_inj 0#14 (t₂ := 0#2)

theorem rsvRow_iff {n i : Nat} (hi : i < n) (w : BitVec n) :
    w &&& BitVec.twoPow n i = BitVec.twoPow n i ↔ w.getLsbD i = true := by
  constructor
  · intro h
    have hbit := congrArg (·.getLsbD i) h
    simpa [hi] using hbit
  · intro h
    rw [BitVec.and_twoPow, if_pos h]

/-- Some illegal row is matched exactly by the words with OP = 00 or RSV not 0, R84. -/
theorem true_mem_illegalRows_iff (w : CmdWord) : true ∈ illegalRows w ↔ opField w = 0 ∨ rsvField w ≠ 0 := by
  have h12 : w &&& 0x1000 = 0x1000 ↔ w.getLsbD 12 = true := rsvRow_iff (i := 12) (by decide) w
  have h13 : w &&& 0x2000 = 0x2000 ↔ w.getLsbD 13 = true := rsvRow_iff (i := 13) (by decide) w
  have h14 : w &&& 0x4000 = 0x4000 ↔ w.getLsbD 14 = true := rsvRow_iff (i := 14) (by decide) w
  have h15 : w &&& 0x8000 = 0x8000 ↔ w.getLsbD 15 = true := rsvRow_iff (i := 15) (by decide) w
  rw [ne_eq, rsvField_eq_zero_iff]
  simp only [illegalRows, op00Row_iff, h12, h13, h14, h15]
  generalize w.getLsbD 12 = b12, w.getLsbD 13 = b13, w.getLsbD 14 = b14, w.getLsbD 15 = b15, opField w = o
  revert b12 b13 b14 b15 o
  decide

theorem legalRows_eq (w : CmdWord) : legalRows w =
    [decide (rsvField w = 0 ∧ opField w = 0b01), decide (rsvField w = 0 ∧ opField w = 0b10),
     decide (rsvField w = 0 ∧ opField w = 0b11)] := by
  have h1 : w &&& 0xF003 = 0x0001 ↔ _ := legalRow_iff w 0b01
  have h2 : w &&& 0xF003 = 0x0002 ↔ _ := legalRow_iff w 0b10
  have h3 : w &&& 0xF003 = 0x0003 ↔ _ := legalRow_iff w 0b11
  simp only [legalRows, h1, h2, h3]

theorem count_legalRows_of_illegal {w : CmdWord} (h : opField w = 0 ∨ rsvField w ≠ 0) : (legalRows w).count true = 0 := by
  rw [legalRows_eq]
  obtain ho | hr := h
  · simp [ho]
  · simp only [hr, false_and, decide_false]; rfl

theorem count_legalRows_of_legal {w : CmdWord} (hr : rsvField w = 0) (ho : opField w ≠ 0) :
    (legalRows w).count true = 1 := by
  rw [legalRows_eq]
  obtain h0 | h1 | h2 | h3 := opField_cases w
  · exact absurd h0 ho
  · simp [hr, h1]
  · simp [hr, h2]
  · simp [hr, h3]

theorem decodeWord_legal {w : CmdWord} (hr : rsvField w = 0) (ho : opField w ≠ 0) : (decodeWord w).illegal = false := by
  obtain h0 | h1 | h2 | h3 := opField_cases w
  · exact absurd h0 ho
  · rw [decodeWord_start hr h1]; rfl
  · rw [decodeWord_chch hr h2]; rfl
  · rw [decodeWord_ka hr h3]; rfl

/-- Settles O5: what decides is whether OP = 00 or RSV is not 0. -/
theorem everyWordIsLegalOrIllegalNeverBoth : Obligations.EveryWordIsLegalOrIllegalNeverBoth := by
  intro w
  show ((legalRows w).count true = 1 ∧ (illegalRows w).count true = 0 ∧ _) ∨
    ((legalRows w).count true = 0 ∧ 1 ≤ (illegalRows w).count true ∧ _)
  by_cases h : opField w = 0 ∨ rsvField w ≠ 0
  · exact .inr ⟨count_legalRows_of_illegal h, List.one_le_count_iff.mpr ((true_mem_illegalRows_iff w).mpr h),
      decodeWord_illegal h⟩
  · obtain ⟨ho, hr⟩ : opField w ≠ 0 ∧ rsvField w = 0 := by simpa using h
    exact .inl ⟨count_legalRows_of_legal hr ho, List.count_eq_zero.mpr (mt (true_mem_illegalRows_iff w).mp h),
      decodeWord_legal hr ho⟩

end Sys2Proof.Proofs
end

section
/-! SUPPORT. The assembler and the disassembler (R89 to R91): the words they make and take. -/

namespace Sys2Proof.Proofs

open Sys2Proof.Machine Sys2Proof.Safety Sys2Proof.Laws

theorem assemble_start_of_fits {ch pw : Nat} (d : Direction) (hch : ch ≤ 31) (hpw : pw ≤ 15) :
    assemble (.start ch d (some pw)) = .ok (encode (.start (BitVec.ofNat 5 ch) d (BitVec.ofNat 4 pw))) := by
  simp only [assemble, Nat.not_lt.mpr hch, Nat.not_lt.mpr hpw, if_false]

theorem assemble_chch_of_fits {ch : Nat} (hch : ch ≤ 31) :
    assemble (.chch ch) = .ok (encode (.chch (BitVec.ofNat 5 ch) 0 0)) := by
  simp only [assemble, Nat.not_lt.mpr hch, if_false]

theorem fits_of_assemble_start {ch pw : Nat} {d : Direction} {w : CmdWord}
    (h : assemble (.start ch d (some pw)) = .ok w) : ch ≤ 31 ∧ pw ≤ 15 := by
  simp only [assemble] at h
  split at h
  · cases h
  · split at h
    · cases h
    · omega

theorem fits_of_assemble_chch {ch : Nat} {w : CmdWord} (h : assemble (.chch ch) = .ok w) : ch ≤ 31 := by
  simp only [assemble] at h
  split at h
  · cases h
  · omega

/-- Settles O8: the assembler's bounds are those of the fields. -/
theorem assemblerRefusesWhatDoesNotFit : Obligations.AssemblerRefusesWhatDoesNotFit :=
  ⟨fun _ d _ => ⟨fun ⟨_, h⟩ => fits_of_assemble_start h, fun ⟨hch, hpw⟩ => ⟨_, assemble_start_of_fits d hch hpw⟩⟩,
   fun _ => ⟨fun ⟨_, h⟩ => fits_of_assemble_chch h, fun hch => ⟨_, assemble_chch_of_fits hch⟩⟩,
   fun _ => rfl⟩

theorem assemble_start_toNat (ch : BitVec 5) (d : Direction) (pw : BitVec 4) :
    assemble (.start ch.toNat d (some pw.toNat)) = .ok (encode (.start ch d pw)) := by
  rw [assemble_start_of_fits d (Nat.le_of_lt_succ ch.isLt) (Nat.le_of_lt_succ pw.isLt), BitVec.ofNat_toNat, BitVec.ofNat_toNat,
    BitVec.setWidth_eq, BitVec.setWidth_eq]

theorem assemble_chch_toNat (ch : BitVec 5) : assemble (.chch ch.toNat) = .ok (encode (.chch ch 0 0)) := by
  rw [assemble_chch_of_fits (Nat.le_of_lt_succ ch.isLt), BitVec.ofNat_toNat, BitVec.setWidth_eq]

theorem assemble_word_toNat (w : CmdWord) : assemble (.word w.toNat) = .ok w := by
  simp only [assemble, w.isLt, if_true, BitVec.ofNat_toNat, BitVec.setWidth_eq]

/-- An illegal word is shown as a raw word, R89. -/
theorem disassemble_of_illegal {w : CmdWord} (h : (decodeWord w).illegal = true) : disassemble w = .word w.toNat := by
  unfold disassemble
  generalize decodeWord w = i at h
  cases i with
  | start ch d pw => cases h
  | chch ch d pw => cases h
  | ka x => cases h
  | illegalOp00 hi => rfl
  | illegalRsv12 hi lo => rfl
  | illegalRsv13 hi lo => rfl
  | illegalRsv14 hi lo => rfl
  | illegalRsv15 lo => rfl

theorem legal_cases {i : Instr} (h : i.illegal = false) :
    (∃ ch d pw, i = .start ch d pw) ∨ (∃ ch d pw, i = .chch ch d pw) ∨ ∃ x, i = .ka x := by
  cases i with
  | start ch d pw => exact .inl ⟨ch, d, pw, rfl⟩
  | chch ch d pw => exact .inr (.inl ⟨ch, d, pw, rfl⟩)
  | ka x => exact .inr (.inr ⟨x, rfl⟩)
  | illegalOp00 hi => cases h
  | illegalRsv12 hi lo => cases h
  | illegalRsv13 hi lo => cases h
  | illegalRsv14 hi lo => cases h
  | illegalRsv15 lo => cases h

/-- Settles O7: an illegal word comes back whole, a legal one without the operands its command ignores. -/
theorem disassemblyAssemblesToTheSameCommand : Obligations.DisassemblyAssemblesToTheSameCommand := by
  intro w
  cases hill : (decodeWord w).illegal with
  | true => exact ⟨w, by rw [disassemble_of_illegal hill, assemble_word_toNat], fun _ => rfl⟩
  | false =>
    obtain ⟨ch, d, pw, hd⟩ | ⟨ch, d, pw, hd⟩ | ⟨x, hd⟩ := legal_cases hill
    · refine ⟨encode (.start ch d pw), ?_, fun s => ?_⟩
      · simp only [disassemble, hd, assemble_start_toNat]
      · rw [decodeOfEncodeIsTheInstruction _ rfl, hd]
    · refine ⟨encode (.chch ch 0 0), ?_, fun s => ?_⟩
      · simp only [disassemble, hd, assemble_chch_toNat]
      · rw [decodeOfEncodeIsTheInstruction _ rfl, hd]; rfl
    · refine ⟨encode (.ka 0), ?_, fun s => ?_⟩
      · simp only [disassemble, hd]; rfl
      · rw [decodeOfEncodeIsTheInstruction _ rfl, hd]; rfl

/-- A word with a cause of R176 is rejected with the code of its first cause. -/
theorem exec_of_firstCause {w : CmdWord} {s : State} {code : ErrCode} (hb : s.busy = false)
    (hc : firstCause w s = some code) : exec (decodeWord w) s = .next { s with err := code } := by
  have h := exec_decodeWord (w := w) hb
  rwa [AnswersFirstCause, hc] at h

/-- Settles O1: the lines assemble to their words by evaluation; the words' first causes reject them. -/
theorem encodingExamplesAsListed : Obligations.EncodingExamplesAsListed := by
  refine ⟨rfl, rfl, rfl, rfl, rfl, rfl, rfl, rfl, rfl, rfl, rfl, fun s hb hbus => ⟨?_, ?_, ?_, ?_, fun hst => ?_⟩⟩
  · refine exec_of_firstCause hb ?_
    rw [firstCause_start s (by decide) (by decide), hbus]; rfl
  · refine exec_of_firstCause hb ?_
    rw [firstCause_start s (by decide) (by decide), hbus]; rfl
  · exact exec_of_firstCause hb (firstCause_illegal s (.inl (by decide)))
  · exact exec_of_firstCause hb (firstCause_illegal s (.inr (by decide)))
  · rw [decodeWord_ka (by decide) (by decide)]
    exact present_of_none hb (by rw [hbus, hst]; rfl)

/-- Settles O2, by evaluation of the decoder on each of the twelve words. -/
theorem wordsDecodeToTheirInstructions : Obligations.WordsDecodeToTheirInstructions :=
  ⟨rfl, rfl, rfl, rfl, rfl, rfl, rfl, rfl, rfl, rfl, rfl, rfl⟩

end Sys2Proof.Proofs
end

section
/-! SUPPORT. The step pointer inside its sequence (R27, R86). -/

namespace Sys2Proof.Proofs

open Sys2Proof.Machine Sys2Proof.Safety Sys2Proof.Laws

theorem stepIdx_lt_length {hw : Hardware} {s : State} (h : Inv hw s) {q : SeqId} (hs : s.seq = q) (hq : q ≠ .none) :
    s.stepIdx.toNat < (seqRom q).length := by
  subst hs
  have hslot := h.slot_exists (h.busy_iff.mpr hq)
  rwa [microOpAt, Option.isSome_iff_ne_none, ne_eq, List.getElem?_eq_none_iff, Nat.not_le] at hslot

/-- Settles O33: SP names a slot of the sequence ROM, and the sequences have 7, 5 and 2 slots. -/
theorem stepPointerStaysInItsSequence : Obligations.StepPointerStaysInItsSequence := fun _ h =>
  ⟨h.idle_step,
   fun hq => Nat.le_of_lt_succ (stepIdx_lt_length h hq (by decide)),
   fun hq => Nat.le_of_lt_succ (stepIdx_lt_length h hq (by decide)),
   fun hq => Nat.le_of_lt_succ (stepIdx_lt_length h hq (by decide))⟩

end Sys2Proof.Proofs
end

section
/-! SUPPORT. What a presentation answers and what the step makes of it (R110, R112): the acceptances of START, CHCH and KA, the
illegal words, and the step that takes a word. -/

namespace Sys2Proof.Proofs

open Sys2Proof.Machine Sys2Proof.Safety Sys2Proof.Laws

/-- A word is presented to a ready machine without a reset, R110. -/
theorem ready_of_presented {s : State} (h : presented s = true) :
    s.port.rst = false ∧ s.busy = false ∧ s.port.cmdValid = true := by
  simpa [presented, Arch.cmdReady, and_assoc] using h

/-- The step that takes a word executes it; only MOSI and the inputs follow. -/
theorem step_of_takes {w : CmdWord} {s u : State} (h : takes w s) (hx : exec (decodeWord w) s = .next u) :
    step s = .next (passInputs s (linesAfterPresentation Config.hardware u)) := by
  obtain ⟨hp, rfl⟩ := h
  obtain ⟨hr, hb, hv⟩ := ready_of_presented hp
  exact cycle_of_presented hr hb hv hx

/-- Settles O24: the presentation's cycle, with `linesAfterPresentation` written out. -/
theorem stepRunsThePresentedInstruction : Obligations.StepRunsThePresentedInstruction := fun _ _ _ => step_of_takes

/-- Settles O9: no check of START fails. -/
theorem acceptedStartCommitsItsOperands : Obligations.AcceptedStartCommitsItsOperands := by
  intro ch d pw s hb hbus hc hp
  have hch : channelInRange ch = true := channelInRange_iff.mpr (Nat.lt_succ_of_le hc)
  have hpw : powerAcceptable d pw = true := powerAcceptable_iff.mpr fun hd => Nat.lt_succ_of_le (hp hd)
  exact present_of_none hb (by simp [firstError, hbus, hch, hpw])

/-- Settles O10: no check of CHCH fails. -/
theorem acceptedChchCommitsItsChannel : Obligations.AcceptedChchCommitsItsChannel := by
  intro ch _ _ s hb hbus hst hc
  have hch : channelInRange ch = true := channelInRange_iff.mpr (Nat.lt_succ_of_le hc)
  exact present_of_none hb (by simp [firstError, hbus, hst, hch])

/-- Settles O11: no check of KA fails. -/
theorem acceptedKaCommitsNoHandleRegister : Obligations.AcceptedKaCommitsNoHandleRegister := by
  intro _ s hb hbus hst
  exact present_of_none hb (by simp [firstError, hbus, hst])

/-- Settles O13: BAD_COMMAND is the first cause of an illegal word, whatever the state. -/
theorem illegalWordsRaiseBadCommand : Obligations.IllegalWordsRaiseBadCommand := by
  have bad {w : CmdWord} {s : State} (hb : s.busy = false) (hill : opField w = 0b00 ∨ rsvField w ≠ 0) :
      exec (decodeWord w) s = .next { s with err := .badCommand } :=
    exec_of_firstCause hb (firstCause_illegal s hill)
  exact ⟨fun _ _ => bad, rfl, fun _ hb _ => bad hb (.inr (by decide)), _, bad rfl (.inl (by decide)), by decide⟩

end Sys2Proof.Proofs
end

section
/-! SUPPORT. A step reads MISO nowhere (R131, R153): the sequencer reads no input level at all, a presentation reads BUS_OK and
the word. -/

namespace Sys2Proof.Proofs

open Sys2Proof.Machine Sys2Proof.Laws

variable {hw : Hardware}

/-- A sequencer cycle does not depend on the inputs, R141. -/
theorem sequencerCycle_setPort (p : Inputs) (s : State) :
    sequencerCycle hw (setPort p s) = mapNext (setPort p) (sequencerCycle hw s) := by
  have frame (bytes : Except Fault (List Byte)) :
      frameOpCycle hw bytes (setPort p s) = mapNext (setPort p) (frameOpCycle hw bytes s) := by
    cases bytes with
    | error f => rfl
    | ok l => exact frameCycle_setPort p l s
  have settle : settleCycle hw (setPort p s) = setPort p (settleCycle hw s) := by
    unfold settleCycle setPort; dsimp only; split <;> rfl
  have hop : microOpAt (setPort p s).toArch = microOpAt s.toArch := rfl
  have hp : (setPort p s).phase = s.phase := rfl
  unfold sequencerCycle
  rw [hop, hp]
  split
  · rfl
  · split
    · rw [settle]; rfl
    · rfl
  · split <;> rfl
  all_goals exact frame _

theorem present_setPort (p : Inputs) (checks : List (Bool × ErrCode)) (accept : Arch → Arch) (s : State) :
    present checks accept (setPort p s) = mapNext (setPort p) (present checks accept s) := by
  unfold present
  rw [show (setPort p s).busy = s.busy from rfl]
  split
  · rfl
  · split <;> rfl

/-- Of the inputs an instruction reads BUS_OK only, R171. -/
theorem exec_setPort {p : Inputs} {s : State} (hbus : p.busOk = s.port.busOk) (i : Instr) :
    exec i (setPort p s) = mapNext (setPort p) (exec i s) := by
  have bad : badWord (setPort p s) = mapNext (setPort p) (badWord s) := present_setPort p _ _ s
  have hbus' : (setPort p s).port.busOk = s.port.busOk := hbus
  cases i with
  | start ch d pw => simp only [exec, execStart, hbus']; exact present_setPort p _ _ s
  | chch ch d pw => simp only [exec, execChch, hbus']; exact present_setPort p _ _ s
  | ka x => simp only [exec, execKa, hbus']; exact present_setPort p _ _ s
  | illegalOp00 hi => exact bad
  | illegalRsv12 hi lo => exact bad
  | illegalRsv13 hi lo => exact bad
  | illegalRsv14 hi lo => exact bad
  | illegalRsv15 lo => exact bad

theorem linesAfterPresentation_setPort (p : Inputs) (u : State) :
    linesAfterPresentation hw (setPort p u) = setPort p (linesAfterPresentation hw u) := by
  unfold linesAfterPresentation
  rw [show (setPort p u).busy = u.busy from rfl]
  split <;> rfl

/-- Of the inputs a cycle reads RST, BUS_OK, CMD_VALID and CMD_WORD only, R32. -/
theorem cycleCore_setPort {p : Inputs} {s : State} (hrst : p.rst = s.port.rst) (hbus : p.busOk = s.port.busOk)
    (hvalid : p.cmdValid = s.port.cmdValid) (hword : p.cmdWord = s.port.cmdWord) :
    cycleCore hw (setPort p s) = mapNext (setPort p) (cycleCore hw s) := by
  have hport : (setPort p s).port = p := rfl
  unfold cycleCore
  rw [hport, hrst, hvalid, show (setPort p s).busy = s.busy from rfl]
  split
  · rfl
  · split
    · exact sequencerCycle_setPort p s
    · split
      · obtain ⟨u, hu⟩ := exec_next (decodeWord s.port.cmdWord) s
        rw [presentationCycle, presentationCycle, hport, hword, exec_setPort hbus, hu]
        exact congrArg _ (linesAfterPresentation_setPort p u)
      · rfl

/-- Settles O40: the cycle is the same before the inputs pass on, and then only the pins can differ. -/
theorem misoIsNeverSampled : Obligations.MisoIsNeverSampled := by
  intro s t b ht
  obtain ⟨u, hu, rfl⟩ := mapNext_eq_next.mp ht
  have hcore := cycleCore_setPort (hw := Config.hardware) (p := { s.port with miso := b }) (s := s) rfl rfl rfl rfl
  rw [hu] at hcore
  exact ⟨_, mapNext_eq_next.mpr ⟨_, hcore, rfl⟩, rfl⟩

end Sys2Proof.Proofs
end

section
/-! SUPPORT. The run of a sequence (R86, R141): from a boundary, the micro-operations that are left add their events to HIST in
order and END leaves the machine ready. -/

namespace Sys2Proof.Proofs

open Sys2Proof.Machine Sys2Proof.Safety Sys2Proof.Laws

variable {hw : Hardware}

/-- What a micro-operation adds to HIST, R87 and R142 to R148. -/
def opEvents (hw : Hardware) (a : Arch) : MicroOp → List Event
  | .settle => [.settle]
  | .fStop => [.frame [hw.stopCode]]
  | .fBlob => [.frame hw.blob.toList]
  | .fPower => [.frame [hw.powerReg, powerByte hw a.dir a.pwr]]
  | .fChannel => [.frame [hw.channelReg, channelByte hw a.chan]]
  | .fMode => [.frame [sel a.dir hw.txCode hw.rxCode]]
  | .finish => []

theorem opEvents_of_frame {a : Arch} (ha : HandleOk a) {op : MicroOp} {l : List Byte} (hl : frameBytes hw a op = .ok l) :
    opEvents hw a op = [.frame l] := by
  cases op with
  | settle => cases hl
  | finish => cases hl
  | fStop => cases hl; rfl
  | fBlob => cases (blobBytes_eq hw).symm.trans hl; rfl
  | fPower => cases (powerBytes_eq hw a ha.2).symm.trans hl; rfl
  | fChannel => cases (channelBytes_eq hw a ha.1).symm.trans hl; rfl
  | fMode => cases hl; rfl

/-- A micro-operation other than END adds its events and advances STEP, R141. -/
theorem microStep_of_not_finish {a : Arch} (ha : HandleOk a) {op : MicroOp} (hop : microOpAt a = some op)
    (hne : op ≠ .finish) : microStep hw a = .ok (advanceStep { a with hist := a.hist ++ opEvents hw a op }) := by
  cases hf : isFrameOp op with
  | true =>
    obtain ⟨l, hl, _⟩ := frameBytes_ok hw ha hf
    rw [microStep_of_frame hop hl, opEvents_of_frame ha hl]
    rfl
  | false =>
    cases op with
    | settle => exact microStep_of_settle hop
    | finish => exact absurd rfl hne
    | fStop => cases hf
    | fBlob => cases hf
    | fPower => cases hf
    | fChannel => cases hf
    | fMode => cases hf

/-- Where SP names a micro-operation, STEP is inside its sequence, R86. -/
theorem stepIdx_lt_of_slot {a : Arch} {op : MicroOp} (hop : microOpAt a = some op) :
    a.stepIdx.toNat < (seqRom a.seq).length := (List.getElem?_eq_some_iff.mp hop).1

/-- STEP does not wrap as it advances, R27. -/
theorem stepIdx_advance {a : Arch} {op : MicroOp} (hop : microOpAt a = some op) :
    (advanceStep a).stepIdx.toNat = a.stepIdx.toNat + 1 := by
  have hlt := stepIdx_lt_of_slot hop
  have hlen := seqRom_length_le a.seq
  show (a.stepIdx + 1).toNat = _
  bv_omega

/-- A run keeps the invariant. -/
theorem inv_runsTo {n : Nat} {s t : State} {bits : List Bool} (hi : Inv hw s) (h : RunsTo hw n s t bits) : Inv hw t := by
  obtain ⟨hr, -⟩ := h
  induction n generalizing t with
  | zero => cases hr; exact hi
  | succ n ih =>
    obtain ⟨u, hu, ht⟩ := runWith_succ.mp hr
    exact inv_cycle (ih hu) ht

/-- From a boundary to the end of the sequence, by induction on the micro-operations that are left. -/
theorem sequence_run {ops : List MicroOp} {s : State} (hi : Inv hw s) (hb : s.busy = true) (hs : AtBoundary hw s.toArch s)
    (hops : (seqRom s.seq).drop s.stepIdx.toNat = ops) :
    ∃ n t bits, RunsTo hw n s t bits ∧
      AtBoundary hw (endStep { s.toArch with hist := s.hist ++ ops.flatMap (opEvents hw s.toArch) }) t := by
  induction ops generalizing s with
  | nil =>
    obtain ⟨op, hop⟩ := Option.isSome_iff_exists.mp (hi.slot_exists hb)
    exact absurd (List.drop_eq_nil_iff.mp hops) (Nat.not_le.mpr (stepIdx_lt_of_slot hop))
  | cons op rest ih =>
    have hop : microOpAt s.toArch = some op := by
      rw [microOpAt, ← List.head?_drop, hops]; rfl
    have hrest : (seqRom s.seq).drop (s.stepIdx.toNat + 1) = rest := by rw [← List.tail_drop, hops]; rfl
    obtain ⟨n, t, bits, a, _, hr, hm, ht⟩ := refinesMicroStep_of_inv hi hb hs
    by_cases hf : op = .finish
    · subst hf
      have hlast : rest = [] := by
        obtain ⟨_, hlen⟩ | ⟨hne, _⟩ := seqRom_slot hop
        · rw [← hrest, List.drop_eq_nil_of_le hlen.ge]
        · exact absurd rfl hne
      obtain rfl : endStep s.toArch = a := Except.ok.inj ((microStep_of_finish hop).symm.trans hm)
      exact ⟨n, t, bits, hr, by simpa [hlast, opEvents] using ht⟩
    · have ha := Except.ok.inj ((microStep_of_not_finish (handle_ok hi hb) hop hf).symm.trans hm)
      have harch : t.toArch = _ := ht.arch.trans ha.symm
      rw [← ht.arch] at ht
      have hidx : t.stepIdx.toNat = s.stepIdx.toNat + 1 := by rw [harch]; exact stepIdx_advance (a := s.toArch) hop
      obtain ⟨m, u, bits', hr', hu⟩ := ih (inv_runsTo hi hr) (by rw [harch]; exact hb) ht
        (by rw [hidx, harch]; exact hrest)
      refine ⟨n + m, u, bits ++ bits', hr.trans hr', ?_⟩
      rw [List.flatMap_cons, ← List.append_assoc]
      rw [harch] at hu
      exact hu

end Sys2Proof.Proofs
end

section
/-! SUPPORT. The commands over words (40_commands.md): a rejected word writes ERR, an accepted one runs its sequence. -/

namespace Sys2Proof.Proofs

open Sys2Proof.Machine Sys2Proof.Safety Sys2Proof.Laws

/-- A word with a cause of R176 is rejected with its code, R177. -/
theorem rejects_of_firstCause {w : CmdWord} {s : State} {code : ErrCode} (ht : takes w s)
    (hc : firstCause w s = some code) : Rejects s code := by
  obtain ⟨_, hb, _⟩ := ready_of_presented ht.1
  exact ⟨_, step_of_takes ht (exec_of_firstCause hb hc), by simp⟩

/-- An accepted word begins its sequence at the boundary, and the whole sequence runs, R110 and R141. -/
theorem runsCommand_of_accepted {w : CmdWord} {s : State} {a : Arch} (hi : Inv Config.hardware s) (hq : quiet s = true)
    (ht : takes w s) (hx : exec (decodeWord w) s = .next { s with toArch := a }) (hb : a.busy = true) (h0 : a.stepIdx = 0) :
    RunsCommand s a ((seqRom a.seq).flatMap (opEvents Config.hardware a)) := by
  obtain ⟨_, hready, _⟩ := ready_of_presented ht.1
  obtain ⟨hp, hs⟩ := inv_ready hi hready
  have hstep := step_of_takes ht hx
  refine ⟨_, hstep, by simp, ?_⟩
  obtain ⟨n, u, _, hr, hu⟩ := sequence_run (ops := seqRom a.seq) (inv_cycle hi hstep) (by simpa using hb)
    (atBoundary_of_inv (inv_cycle hi hstep) (quiet_passInputs _ hq) (by simpa using hp) (by simpa using hs))
    (by simp [h0])
  exact ⟨n, u, hr.reaches, hu.csN, by simpa [endStep] using hu.arch⟩

/-- The two causes every command has in common, R175 and R171: a command's rule `P` starts where neither applies. -/
theorem rejects_badCommand_busUnavailable_or {w : CmdWord} {s : State} {P : Prop} (ht : takes w s) (ho : opField w ≠ 0)
    (hP : rsvField w = 0 → s.port.busOk = true → P) :
    if rsvField w ≠ 0 then Rejects s .badCommand else if s.port.busOk = false then Rejects s .busUnavailable else P := by
  split
  · next hr => exact rejects_of_firstCause ht (firstCause_illegal s (.inr hr))
  · next hr =>
    split
    · next hbus => exact rejects_of_firstCause ht (by simpa [firstCause, causes, not_not.mp hr, hbus] using ho)
    · next hbus => exact hP (not_not.mp hr) (by simpa using hbus)

/-- Settles O46: `firstCause_start` rejects in R114's order; otherwise the word's START is accepted and S_START runs. -/
theorem startRunsAsItsRuleSays : Obligations.StartRunsAsItsRuleSays := by
  intro w s hi hq ht ho c d p
  obtain ⟨_, hb, _⟩ := ready_of_presented ht.1
  refine rejects_badCommand_busUnavailable_or ht (by rw [ho]; decide) fun hr hbus => ?_
  have hcause := firstCause_start s hr ho
  split
  · next hc => exact rejects_of_firstCause ht (by rw [hcause, hbus, channelInRange_eq, decide_eq_true hc]; rfl)
  · next hc =>
    have hc : c.toNat ≤ 16 := Nat.not_lt.mp hc
    split
    · next hp =>
      have hch : channelInRange c = true := channelInRange_iff.mpr (Nat.lt_succ_of_le hc)
      have hpw : powerAcceptable d p = false := by
        rw [Bool.eq_false_iff, ne_eq, powerAcceptable_iff]
        exact fun h => absurd (h hp.1) (Nat.not_lt.mpr hp.2)
      exact rejects_of_firstCause ht (by rw [hcause, hbus, hch, hpw]; rfl)
    · next hp =>
      have hp : d = .transmit → p.toNat ≤ 10 := fun hd => Nat.not_lt.mp fun h => hp ⟨hd, h⟩
      exact runsCommand_of_accepted hi hq ht
        (by rw [decodeWord_start hr ho]; exact acceptedStartCommitsItsOperands c d p s hb hbus hc hp) rfl rfl

/-- Settles O47: `firstCause_chch` rejects in R120's order; otherwise the word's CHCH is accepted and S_CHCH runs. -/
theorem chchRunsAsItsRuleSays : Obligations.ChchRunsAsItsRuleSays := by
  intro w s hi hq ht ho c
  obtain ⟨_, hb, _⟩ := ready_of_presented ht.1
  refine rejects_badCommand_busUnavailable_or ht (by rw [ho]; decide) fun hr hbus => ?_
  have hcause := firstCause_chch s hr ho
  split
  · next hst => exact rejects_of_firstCause ht (by rw [hcause, hbus, hst]; rfl)
  · next hst =>
    have hst : s.started = true := by simpa using hst
    split
    · next hc => exact rejects_of_firstCause ht (by rw [hcause, hbus, hst, channelInRange_eq, decide_eq_true hc]; rfl)
    · next hc =>
      exact runsCommand_of_accepted hi hq ht
        (by rw [decodeWord_chch hr ho]; exact acceptedChchCommitsItsChannel c _ _ s hb hbus hst (Nat.not_lt.mp hc))
        rfl rfl

/-- Settles O48: `firstCause_ka` rejects in R125's order; otherwise the word's KA is accepted and S_KA runs. -/
theorem kaRunsAsItsRuleSays : Obligations.KaRunsAsItsRuleSays := by
  intro w s hi hq ht ho
  obtain ⟨_, hb, _⟩ := ready_of_presented ht.1
  refine rejects_badCommand_busUnavailable_or ht (by rw [ho]; decide) fun hr hbus => ?_
  have hcause := firstCause_ka s hr ho
  split
  · next hst => exact rejects_of_firstCause ht (by rw [hcause, hbus, hst]; rfl)
  · next hst =>
    exact runsCommand_of_accepted hi hq ht
      (by rw [decodeWord_ka hr ho]; exact acceptedKaCommitsNoHandleRegister _ s hb hbus (by simpa using hst)) rfl rfl

end Sys2Proof.Proofs
end

section
/-! SUPPORT. A running sequence reaches its END (R111, R156), from wherever in a frame or a settle delay it is: a measure leads
to the next boundary, and from there the sequence runs. -/

namespace Sys2Proof.Proofs

open Sys2Proof.Machine Sys2Proof.Safety Sys2Proof.Laws

variable {hw : Hardware}

/-- The slots of the running sequence from STEP on. -/
def slotsLeft (a : Arch) : Nat := (seqRom a.seq).length - a.stepIdx.toNat

/-- The cycles left in the stage of the frame and in the settle delay. -/
def cyclesLeft (hw : Hardware) (s : State) : Nat := phaseCycles hw s - s.tcnt + (hw.settleCycles - s.settleCnt)

/-- What lies before a machine inside a micro-operation: slots of the sequence, then stages of the frame, then cycles. -/
def pending (hw : Hardware) (s : State) : ℕ ×ₗ ℕ ×ₗ ℕ :=
  toLex (slotsLeft s.toArch, toLex (stage (runningFrame hw s.toArch).length s, cyclesLeft hw s))

theorem pending_lt_of_slots {s u : State} (h : slotsLeft u.toArch < slotsLeft s.toArch) : pending hw u < pending hw s :=
  Prod.Lex.toLex_lt_toLex.mpr (.inl h)

theorem pending_lt_of_stage {s u : State} (ha : slotsLeft u.toArch = slotsLeft s.toArch)
    (h : stage (runningFrame hw u.toArch).length u < stage (runningFrame hw s.toArch).length s ∨
      stage (runningFrame hw u.toArch).length u = stage (runningFrame hw s.toArch).length s ∧
        cyclesLeft hw u < cyclesLeft hw s) : pending hw u < pending hw s :=
  Prod.Lex.toLex_lt_toLex.mpr (.inr ⟨ha, Prod.Lex.toLex_lt_toLex.mpr h⟩)

theorem slotsLeft_advance {a : Arch} {op : MicroOp} (hop : microOpAt a = some op) :
    slotsLeft (advanceStep a) < slotsLeft a := by
  have hlt := stepIdx_lt_of_slot hop
  have hadv := stepIdx_advance hop
  show (seqRom a.seq).length - _ < (seqRom a.seq).length - _
  omega

/-- The machine is between two micro-operations: no frame and no settle delay is in progress. -/
def BetweenOps (s : State) : Prop := s.phase = .boundary ∧ s.settleCnt = 0

theorem settleCnt_of_frame {s : State} (h : Inv hw s) {op : MicroOp} (hop : microOpAt s.toArch = some op)
    (hf : isFrameOp op = true) : s.settleCnt = 0 :=
  settleCnt_zero h (by rw [hop]; rintro ⟨⟩; cases hf)

/-- A cycle of a settle delay counts, or the delay is over, R142. -/
theorem settleCycle_progress {s : State} (hp : s.phase = .boundary) :
    BetweenOps (settleCycle hw s) ∨ pending hw (settleCycle hw s) < pending hw s := by
  unfold settleCycle
  split
  · next hn =>
    refine .inr (pending_lt_of_stage rfl (.inr ⟨by simp [stage, hp], ?_⟩))
    simp only [cyclesLeft, phaseCycles, floatMosi_phase, floatMosi_tcnt, floatMosi_settleCnt, hp]
    omega
  · exact .inl ⟨hp, rfl⟩

/-- A cycle inside a frame gets nearer to its end, reaches the boundary or leaves the slot. -/
theorem frameCycle_progress {s u : State} (hi : Inv hw s) (hb : s.busy = true) (hp : s.phase ≠ .boundary) {op : MicroOp}
    {l : List Byte} (hop : microOpAt s.toArch = some op) (hl : frameBytes hw s.toArch op = .ok l)
    (hu : frameCycle hw l s = .next u) (hiu : Inv hw u) : BetweenOps u ∨ pending hw u < pending hw s := by
  have hf := frameBytes_isFrameOp hl
  have same (hopu : microOpAt u.toArch = some op) (hlu : frameBytes hw u.toArch op = .ok l)
      (hslots : slotsLeft u.toArch = slotsLeft s.toArch) : BetweenOps u ∨ pending hw u < pending hw s := by
    have hsu := settleCnt_of_frame hiu hopu hf
    have hss := settleCnt_of_frame hi hop hf
    by_cases hpu : u.phase = .boundary
    · exact .inl ⟨hpu, hsu⟩
    · refine .inr (pending_lt_of_stage hslots ?_)
      rw [runningFrame_eq hop hl, runningFrame_eq hopu hlu, cyclesLeft, cyclesLeft, hsu, hss]
      exact (frame_closer hi hb hp hop hl hu hpu).imp_right fun ⟨h, hlt⟩ => ⟨h, Nat.add_lt_add_right hlt _⟩
  have advanced {a : Arch} (hopa : microOpAt a = some op) (hslots : slotsLeft a = slotsLeft s.toArch)
      (ha : u.toArch = advanceStep a) : BetweenOps u ∨ pending hw u < pending hw s :=
    .inr (pending_lt_of_slots (by rw [ha, ← hslots]; exact slotsLeft_advance hopa))
  obtain ha | ha | ha | ha := frameCycle_arch hu
  · exact same (by rw [ha]; exact hop) (by rw [ha]; exact hl) (by rw [ha])
  · exact same (by rw [ha]; exact hop) (by rw [ha, ← hl]; exact frameBytes_congr rfl rfl rfl op) (by rw [ha]; rfl)
  · exact advanced hop rfl ha
  · exact advanced (a := appendEvent (.frame l) s.toArch) hop rfl ha

/-- Inside a micro-operation a sequencer cycle keeps BUSY and gets on. -/
theorem sequencerCycle_progress {s u : State} (hi : Inv hw s) (hb : s.busy = true) (hmid : ¬ BetweenOps s)
    (hu : sequencerCycle hw s = .next u) : u.busy = true ∧ (BetweenOps u ∨ pending hw u < pending hw s) := by
  have not_finish (hop : microOpAt s.toArch = some .finish) : False :=
    hmid ⟨boundary_of_not_frameOp hi hop rfl, settleCnt_zero hi (by rw [hop]; decide)⟩
  refine ⟨?_, ?_⟩
  · by_contra hbu
    exact not_finish (sequencerCycle_of_busy_falls hb hu (by simpa using hbu)).1
  · obtain ⟨_, hp, rfl⟩ | ⟨hop, _, _⟩ | ⟨op, l, hop, hf, hl, hfc⟩ := sequencerCycle_cases hu
    · exact settleCycle_progress hp
    · exact (not_finish hop).elim
    · exact frameCycle_progress hi hb (fun hp => hmid ⟨hp, settleCnt_of_frame hi hop hf⟩) hop hl hfc
        (inv_sequencerCycle hi hb hu)

/-- An event that a running sequence adds: a settle delay or a whole frame. -/
def SequenceEvent (e : Event) : Prop := e ≠ .reset ∧ ∀ l k, e ≠ .truncated l k

theorem sequenceEvent_settle : SequenceEvent .settle := ⟨nofun, nofun⟩

theorem sequenceEvent_frame (l : List Byte) : SequenceEvent (.frame l) := ⟨nofun, nofun⟩

theorem sequenceEvent_of_opEvents {a : Arch} {op : MicroOp} : ∀ e ∈ opEvents hw a op, SequenceEvent e := by
  cases op with
  | settle => simpa [opEvents] using sequenceEvent_settle
  | finish => simp [opEvents]
  | fStop => simpa [opEvents] using sequenceEvent_frame _
  | fBlob => simpa [opEvents] using sequenceEvent_frame _
  | fPower => simpa [opEvents] using sequenceEvent_frame _
  | fChannel => simpa [opEvents] using sequenceEvent_frame _
  | fMode => simpa [opEvents] using sequenceEvent_frame _

/-- Some cycles lead from `s` to `t`, and HIST gains events of a sequence only. -/
def RunsOn (s t : State) : Prop :=
  ∃ n bits es, RunsTo Config.hardware n s t bits ∧ t.hist = s.hist ++ es ∧ ∀ e ∈ es, SequenceEvent e

theorem RunsOn.refl (s : State) : RunsOn s s :=
  ⟨0, [], [], RunsTo.refl _ s, (List.append_nil _).symm, by simp⟩

theorem RunsOn.trans {s t u : State} (h : RunsOn s t) (h' : RunsOn t u) : RunsOn s u := by
  obtain ⟨m, b, es, hr, hh, he⟩ := h
  obtain ⟨n, c, es', hr', hh', he'⟩ := h'
  refine ⟨m + n, b ++ c, es ++ es', hr.trans hr', by rw [hh', hh, List.append_assoc], fun e hm => ?_⟩
  exact (List.mem_append.mp hm).elim (he e) (he' e)

theorem RunsOn.one {s t : State} (hr : s.port.rst = false) (ht : step s = .next t) : RunsOn s t := by
  obtain h | h | ⟨l, h⟩ := hist_of_step hr ht
  · exact ⟨1, _, [], RunsTo.one ht, by rw [h, List.append_nil], by simp⟩
  · exact ⟨1, _, _, RunsTo.one ht, h, by simpa using sequenceEvent_settle⟩
  · exact ⟨1, _, _, RunsTo.one ht, h, by simpa using sequenceEvent_frame l⟩

/-- A running sequence gets to a boundary, by induction on what is pending. -/
theorem runsOn_to_boundary {s : State} (hi : Inv Config.hardware s) (hb : s.busy = true) (hq : quiet s = true) :
    ∃ t, RunsOn s t ∧ Inv Config.hardware t ∧ t.busy = true ∧ quiet t = true ∧ BetweenOps t := by
  induction hm : pending Config.hardware s using WellFoundedLT.induction generalizing s with
  | ind m ih =>
    subst hm
    by_cases hmid : BetweenOps s
    · exact ⟨s, RunsOn.refl s, hi, hb, hq, hmid⟩
    · obtain ⟨u, hu⟩ := sequencerCycle_next hi hb
      obtain ⟨hbu, hprog⟩ := sequencerCycle_progress hi hb hmid hu
      have hstep : step s = .next (passInputs s u) := by rw [step, cycle_of_busy (quiet_rst hq) hb, hu]; rfl
      have hon := RunsOn.one (quiet_rst hq) hstep
      have hit := inv_cycle hi hstep
      have hqt := quiet_passInputs u hq
      obtain hbet | hlt := hprog
      · exact ⟨_, hon, hit, hbu, hqt, hbet⟩
      · obtain ⟨t, hon', ht⟩ := ih _ hlt hit hbu hqt rfl
        exact ⟨t, hon.trans hon', ht⟩

/-- Settles O50: to the next boundary by the measure, from there by the run of the sequence. -/
theorem everySequenceReachesItsEnd : Obligations.EverySequenceReachesItsEnd := by
  intro s hi hb hq
  obtain ⟨t, hon, hit, hbt, hqt, hp, hs⟩ := runsOn_to_boundary hi hb hq
  obtain ⟨n, u, bits, hr, hu⟩ := sequence_run hit hbt (atBoundary_of_inv hit hqt hp hs) rfl
  have harch := hu.arch
  have hon' : RunsOn t u := ⟨n, bits, _, hr, by rw [harch]; rfl, fun e he => by
    obtain ⟨op, _, hop⟩ := List.mem_flatMap.mp he
    exact sequenceEvent_of_opEvents e hop⟩
  obtain ⟨m, _, es, hrun, hhist, hes⟩ := hon.trans hon'
  exact ⟨m, u, es, hrun.reaches, by rw [harch]; rfl, by rw [harch]; rfl, by rw [harch]; exact hit.busy_ok hbt, hu.csN,
    hhist, hes⟩

end Sys2Proof.Proofs
end

section
/-! SUPPORT. A running sequence reads no input level but RST (R141, R171, R179). -/

namespace Sys2Proof.Proofs

open Sys2Proof.Machine Sys2Proof.Laws

/-- Of the inputs a busy cycle reads RST only: the reset writes no input, and the sequencer reads none. -/
theorem cycleCore_setPort_of_busy {hw : Hardware} {p : Inputs} {s : State} (hb : s.busy = true) (hrst : p.rst = s.port.rst) :
    cycleCore hw (setPort p s) = mapNext (setPort p) (cycleCore hw s) := by
  unfold cycleCore
  rw [show (setPort p s).port = p from rfl, hrst, show (setPort p s).busy = s.busy from rfl, if_pos hb, if_pos hb]
  split
  · rfl
  · exact sequencerCycle_setPort p s

/-- Settles O39: the busy cycle is the same before the inputs pass on, and then only the pins can differ. -/
theorem runningSequenceIgnoresTheInputs : Obligations.RunningSequenceIgnoresTheInputs := by
  intro s t p hb hrst ht
  obtain ⟨u, hu, rfl⟩ := mapNext_eq_next.mp ht
  have hcore := cycleCore_setPort_of_busy (hw := Config.hardware) hb hrst
  rw [hu] at hcore
  exact ⟨_, mapNext_eq_next.mpr ⟨_, hcore, rfl⟩, rfl⟩

end Sys2Proof.Proofs
end

section
/-! SUPPORT. The bus in every cycle of a wait: of the settle delay (R142, R156), and of the chip-select times T_CSD, T_CSS and
T_CSH (R150, R211). -/

namespace Sys2Proof.Proofs

open Sys2Proof.Machine Sys2Proof.Safety Sys2Proof.Laws

/-- What holds of the state after `n` cycles, and is carried on by one more below the limit, holds in every cycle below it. -/
theorem reaches_below {P : Nat → State → Prop} {limit : Nat}
    (h : ∀ n s, n + 1 < limit → P n s → ∃ t, step s = .next t ∧ P (n + 1) t) {s : State} (hs : P 0 s) :
    ∀ m, m < limit → ∃ t, Reaches m s t ∧ P m t := by
  intro m
  induction m with
  | zero => exact fun _ => ⟨s, reaches_zero.mpr rfl, hs⟩
  | succ m ih =>
    intro hm
    obtain ⟨t, hr, ht⟩ := ih (Nat.lt_of_succ_lt hm)
    obtain ⟨u, hu, hp⟩ := h m t hm ht
    exact ⟨u, reaches_succ.mpr ⟨t, hr, hu⟩, hp⟩

/-! ### The settle delay -/

/-- A cycle of SETTLE that is not the last counts and leaves the transaction level and the pins, R142. -/
theorem atSettle_count {hw : Hardware} {a : Arch} {n : Nat} {s : State} (h : AtSettle hw a n s)
    (hn : n + 1 < hw.settleCycles) : AtSettle hw a (n + 1) (passInputs s (settleCycle hw s)) := by
  have hset : settleCycle hw s = floatMosi hw { s with settleCnt := n + 1 } := by simp [settleCycle, h.count, hn]
  rw [hset]
  exact ⟨quiet_passInputs _ h.quiet, h.arch, h.phase, rfl, h.csN, h.sclk⟩

/-- Settles O44: the cycles of the delay by `atSettle_count`, its end by `settle_run`. -/
theorem settleHoldsTheBusIdle : Obligations.SettleHoldsTheBusIdle := by
  intro s hi hb hq hop hcnt
  have hs := atBoundary_of_inv hi hq (boundary_of_not_frameOp hi hop rfl) hcnt
  refine ⟨fun m hm => ?_, ?_⟩
  · obtain ⟨t, hr, ht⟩ := reaches_below (P := AtSettle Config.hardware s.toArch)
      (fun _ _ hn h => ⟨_, settle_next hb hop h, atSettle_count h hn⟩)
      ⟨hq, rfl, hs.phase, hcnt, hs.csN, hs.sclk⟩ m hm
    exact ⟨t, hr, ht.arch, ht.csN, ht.sclk, ht.count⟩
  · obtain ⟨t, hr, ht⟩ := settle_run hb hop hs
    exact ⟨t, hr.reaches, ht.csN, ht.settle, ht.arch⟩

/-! ### Where the cycles of a frame lead -/

section Stages

variable {hw : Hardware} {l : List Byte} {s u : State}

/-- The trailing edge of a bit leads to the next bit, to a gap, or to the beginning of the hold time, R150 (3), (4). -/
theorem trailingEdge_phase (h : trailingEdge hw l s = .next u) :
    u.phase = .lead ∨ u.phase = .gap ∨ u.phase = .hold ∧ u.tcnt = 0 := by
  unfold trailingEdge at h
  split at h
  · cases h
    exact .inl (by simp [nextBit])
  · split at h
    · unfold nextByte at h
      dsimp only at h
      split at h
      · exact .inl (beginByte_fields h).1
      · cases h
        exact .inr (.inl (by simp))
    · cases h
      exact .inr (.inr ⟨by simp, by unfold releaseMosi; split <;> rfl⟩)

/-- Before the hold time a frame cycle keeps the device selected, and enters the hold time at its beginning, R150. -/
theorem frameCycle_selected (h : frameCycle hw l s = .next u) (hsel : selected s.phase = true) (hhold : s.phase ≠ .hold) :
    selected u.phase = true ∧ (u.phase = .hold → u.tcnt = 0) := by
  have other {p : Phase} (hu : u.phase = p) (hp : selected p = true) (hne : p ≠ .hold) :
      selected u.phase = true ∧ (u.phase = .hold → u.tcnt = 0) :=
    ⟨hu ▸ hp, fun hh => absurd (hu.symm.trans hh) hne⟩
  unfold frameCycle at h
  split at h
  · next hp => simp [hp, selected] at hsel
  · next hp =>
    split at h
    · cases h; exact other hp rfl (by decide)
    · exact other (beginByte_fields h).1 rfl (by decide)
  · next hp =>
    split at h
    · cases h; exact other hp rfl (by decide)
    · cases h; exact other (p := .trail) (by simp [leadingEdge]) rfl (by decide)
  · next hp =>
    split at h
    · cases h; exact other hp rfl (by decide)
    · obtain hu | hu | ⟨hu, ht⟩ := trailingEdge_phase h
      · exact other hu rfl (by decide)
      · exact other hu rfl (by decide)
      · exact ⟨hu ▸ rfl, fun _ => ht⟩
  · next hp =>
    split at h
    · cases h; exact other (p := .gap) (by simpa using hp) rfl (by decide)
    · exact other (beginByte_fields h).1 rfl (by decide)
  · next hp => exact absurd hp hhold
  · next hp => simp [hp, selected] at hsel

theorem frameCycle_hold_count (h : frameCycle hw l s = .next u) (hp : s.phase = .hold) (hn : s.tcnt + 1 < hw.tCsh) :
    u.phase = .hold ∧ u.tcnt = s.tcnt + 1 := by
  simp only [frameCycle, hp, if_pos hn] at h
  cases h
  exact ⟨by simpa using hp, by unfold releaseMosi; split <;> rfl⟩

theorem frameCycle_hold_last (h : frameCycle hw l s = .next u) (hp : s.phase = .hold) (hn : ¬ s.tcnt + 1 < hw.tCsh) :
    u = deselectDevice hw l s := by
  simp only [frameCycle, hp, if_neg hn] at h
  cases h
  rfl

theorem frameCycle_select_count (h : frameCycle hw l s = .next u) (hp : s.phase = .select) (hn : s.tcnt + 1 < hw.tCss) :
    u.phase = .select ∧ u.tcnt = s.tcnt + 1 := by
  simp only [frameCycle, hp, if_pos hn] at h
  cases h
  exact ⟨hp, rfl⟩

/-- A cycle of T_CSD leaves CS_N, and one that is not the last counts, R150 (6). -/
theorem deselectCycle_stage (v : State) :
    (deselectCycle hw v).csN = v.csN ∧
      (v.tcnt + 1 < hw.tCsd → (deselectCycle hw v).phase = v.phase ∧ (deselectCycle hw v).tcnt = v.tcnt + 1) := by
  unfold deselectCycle
  split
  · exact ⟨rfl, fun _ => ⟨rfl, rfl⟩⟩
  · next hn => exact ⟨rfl, fun h => absurd h hn⟩

/-- The cycle in which CS_N rises is the first of T_CSD, R150 (5), (6). -/
theorem deselectDevice_stage (hn : 1 < hw.tCsd) :
    (deselectDevice hw l s).phase = .deselect ∧ (deselectDevice hw l s).tcnt = 1 := by
  simp [deselectDevice, deselectCycle, hn]

/-- Where CS_N falls, a frame begins its wait T_CSS, R150 (1). -/
theorem select_of_csN_falls (hc : s.csN = true) (hsel : selected s.phase = false) (h : frameCycle hw l s = .next u)
    (hu : u.csN = false) : u.phase = .select ∧ u.tcnt = 0 := by
  unfold frameCycle at h
  split at h
  case h_1 => cases h; exact ⟨rfl, rfl⟩
  case h_7 =>
    cases h
    rw [(deselectCycle_stage s).1, hc] at hu
    exact absurd hu.symm Bool.false_ne_true
  all_goals next hp => simp [hp, selected] at hsel

end Stages

/-! ### Chip-select spacing -/

/-- The invariant holds and no reset is to come. -/
structure Steady (s : State) : Prop where
  inv : Inv Config.hardware s
  quiet : quiet s = true

theorem Steady.of_step {s t : State} (hs : Steady s) (ht : step s = .next t) : Steady t := by
  obtain ⟨u, _, rfl⟩ := mapNext_eq_next.mp ht
  exact ⟨inv_cycle hs.inv ht, quiet_passInputs u hs.quiet⟩

theorem Steady.csN_of_selected {s : State} (hs : Steady s) (h : selected s.phase = true) : s.csN = false := by
  rw [hs.inv.chip_select, h, Bool.not_true]

theorem Steady.selected_eq {s : State} (hs : Steady s) {b : Bool} (h : s.csN = b) : selected s.phase = !b := by
  rw [← h, hs.inv.chip_select, Bool.not_not]

/-- Inside a frame a step is a frame cycle. -/
theorem Steady.frame_step {s : State} (hs : Steady s) (hp : s.phase ≠ .boundary) :
    ∃ l u, frameCycle Config.hardware l s = .next u ∧ step s = .next (passInputs s u) := by
  obtain ⟨hb, _⟩ := hs.inv.engaged hp
  obtain ⟨u, hu⟩ := sequencerCycle_next hs.inv hb
  have hstep : step s = .next (passInputs s u) := by rw [step, cycle_of_busy (quiet_rst hs.quiet) hb, hu]; rfl
  obtain ⟨_, hp', _⟩ | ⟨_, hp', _⟩ | ⟨_, l, _, _, _, hf⟩ := sequencerCycle_cases hu
  · exact absurd hp' hp
  · exact absurd hp' hp
  · exact ⟨l, u, hf, hstep⟩

/-- The step of a frame cycle, read backwards. -/
theorem Steady.frameCycle_of_step {s t : State} (hs : Steady s) (hp : s.phase ≠ .boundary) (ht : step s = .next t) :
    ∃ l u, frameCycle Config.hardware l s = .next u ∧ t = passInputs s u := by
  obtain ⟨l, u, hf, hstep⟩ := hs.frame_step hp
  cases ht.symm.trans hstep
  exact ⟨l, u, hf, rfl⟩

theorem ne_boundary_of_selected {p : Phase} (h : selected p = true) : p ≠ .boundary := by
  rintro rfl
  exact absurd h Bool.false_ne_true

/-- CS_N = 1 for `n` cycles since it rose: before T_CSD is over the engine is in its wait. -/
structure SinceRise (n : Nat) (s : State) : Prop extends Steady s where
  csN : s.csN = true
  waiting : n + 1 < Config.hardware.tCsd → s.phase = .deselect ∧ s.tcnt = n + 1

/-- The wait T_CSS after `n` of its cycles. -/
structure SinceFall (n : Nat) (s : State) : Prop extends Steady s where
  phase : s.phase = .select
  tcnt : s.tcnt = n

/-- CS_N = 0, and the hold time, if it runs, began at most `n` cycles ago. -/
structure SinceTrailing (n : Nat) (s : State) : Prop extends Steady s where
  selected : selected s.phase = true
  held : s.phase = .hold → s.tcnt ≤ n

theorem SinceRise.next {n : Nat} {s : State} (hn : n + 1 < Config.hardware.tCsd) (h : SinceRise n s) :
    ∃ t, step s = .next t ∧ SinceRise (n + 1) t := by
  obtain ⟨hp, htc⟩ := h.waiting hn
  obtain ⟨l, u, hf, hstep⟩ := h.toSteady.frame_step (by rw [hp]; decide)
  simp only [frameCycle, hp] at hf
  cases hf
  obtain ⟨hcs, hcount⟩ := deselectCycle_stage (hw := Config.hardware) s
  rw [htc, hp] at hcount
  exact ⟨_, hstep, h.toSteady.of_step hstep, hcs.trans h.csN, hcount⟩

theorem SinceFall.next {n : Nat} {s : State} (hn : n + 1 < Config.hardware.tCss) (h : SinceFall n s) :
    ∃ t, step s = .next t ∧ SinceFall (n + 1) t := by
  obtain ⟨l, u, hf, hstep⟩ := h.toSteady.frame_step (by rw [h.phase]; decide)
  obtain ⟨hp, ht⟩ := frameCycle_select_count hf h.phase (h.tcnt ▸ hn)
  exact ⟨_, hstep, h.toSteady.of_step hstep, hp, ht.trans (by rw [h.tcnt])⟩

theorem SinceTrailing.next {n : Nat} {s : State} (hn : n + 1 < Config.hardware.tCsh) (h : SinceTrailing n s) :
    ∃ t, step s = .next t ∧ SinceTrailing (n + 1) t := by
  obtain ⟨l, u, hf, hstep⟩ := h.toSteady.frame_step (ne_boundary_of_selected h.selected)
  have hst := h.toSteady.of_step hstep
  by_cases hp : s.phase = .hold
  · have hle := h.held hp
    obtain ⟨hpu, htu⟩ := frameCycle_hold_count hf hp (by omega)
    exact ⟨_, hstep, hst, hpu ▸ rfl, fun _ => htu ▸ Nat.succ_le_succ hle⟩
  · obtain ⟨hsel, hheld⟩ := frameCycle_selected hf h.selected hp
    exact ⟨_, hstep, hst, hsel, fun hpu => hheld hpu ▸ Nat.zero_le _⟩

/-- CS_N rises with the last cycle of the hold time only, R150 (5). -/
theorem sinceRise_of_csN_rises {s t : State} (hs : Steady s) (ht : step s = .next t) (hc : s.csN = false)
    (hct : t.csN = true) : SinceRise 0 t := by
  have hst := hs.of_step ht
  have hsel : selected s.phase = true := hs.selected_eq hc
  have not_selected (h : selected t.phase = true) : False := absurd ((hst.csN_of_selected h).symm.trans hct) Bool.false_ne_true
  obtain ⟨l, u, hf, rfl⟩ := hs.frameCycle_of_step (ne_boundary_of_selected hsel) ht
  by_cases hp : s.phase = .hold
  · by_cases hn : s.tcnt + 1 < Config.hardware.tCsh
    · exact (not_selected ((frameCycle_hold_count hf hp hn).1 ▸ rfl)).elim
    · obtain rfl := frameCycle_hold_last hf hp hn
      exact ⟨hst, hct, deselectDevice_stage⟩
  · exact (not_selected (frameCycle_selected hf hsel hp).1).elim

/-- CS_N falls with the first cycle of a frame only, R150 (1). -/
theorem sinceFall_of_csN_falls {s t : State} (hs : Steady s) (ht : step s = .next t) (hc : s.csN = true)
    (hct : t.csN = false) : SinceFall 0 t := by
  have hst := hs.of_step ht
  have unchanged {u : State} (hu : u.csN = s.csN) (hut : u.csN = false) : False :=
    absurd (hut.symm.trans (hu.trans hc)) Bool.false_ne_true
  obtain ⟨hr, _⟩ | ⟨_, _, u, hu, rfl⟩ | ⟨_, _, _, u, hx, rfl⟩ | ⟨_, _, _, rfl⟩ := cycle_cases ht
  · exact absurd ((quiet_rst hs.quiet).symm.trans hr) Bool.false_ne_true
  · obtain ⟨_, _, rfl⟩ | ⟨_, _, rfl⟩ | ⟨_, l, _, _, _, hf⟩ := sequencerCycle_cases hu
    · exact (unchanged (by unfold settleCycle; split <;> rfl) hct).elim
    · exact (unchanged rfl hct).elim
    · obtain ⟨hp, htc⟩ := select_of_csN_falls hc (hs.selected_eq hc) hf hct
      exact ⟨hst, hp, htc⟩
  · obtain ⟨a, rfl⟩ := exec_toArch hx
    exact (unchanged (by simp) hct).elim
  · exact (unchanged rfl hct).elim

/-- SCLK leaves its active level inside a bit only, R151, and then the device stays selected. -/
theorem sinceTrailing_of_trailing_edge {s t : State} (hs : Steady s) (ht : step s = .next t)
    (hsc : s.sclk ≠ Config.hardware.cpol) : SinceTrailing 0 t := by
  have hp : s.phase = .trail := by
    by_contra hp
    exact hsc (by rw [hs.inv.clock, if_neg hp])
  obtain ⟨l, u, hf, rfl⟩ := hs.frameCycle_of_step (by rw [hp]; decide) ht
  obtain ⟨hsel, hheld⟩ := frameCycle_selected hf (by rw [hp]; rfl) (by rw [hp]; decide)
  exact ⟨hs.of_step ht, hsel, fun hpu => Nat.le_of_eq (hheld hpu)⟩

/-- Settles O45: the edge begins a wait, and each of its cycles but the last leads to the next. -/
theorem chipSelectSpacing : Obligations.ChipSelectSpacing := by
  intro s t hi hq ht
  have hs : Steady s := ⟨hi, hq⟩
  refine ⟨fun hc hct m hm => ?_, fun hc hct m hm => ?_, fun _ hsc _ m hm => ?_⟩
  · obtain ⟨u, hr, hu⟩ := reaches_below (fun _ _ => SinceRise.next) (sinceRise_of_csN_rises hs ht hc hct) m hm
    exact ⟨u, hr, hu.csN⟩
  · obtain ⟨u, hr, hu⟩ := reaches_below (fun _ _ => SinceFall.next) (sinceFall_of_csN_falls hs ht hc hct) m hm
    exact ⟨u, hr, hu.toSteady.csN_of_selected (hu.phase ▸ rfl), by rw [hu.inv.clock, hu.phase]; rfl⟩
  · obtain ⟨u, hr, hu⟩ := reaches_below (fun _ _ => SinceTrailing.next) (sinceTrailing_of_trailing_edge hs ht hsc) m hm
    exact ⟨u, hr, hu.toSteady.csN_of_selected hu.selected⟩

end Sys2Proof.Proofs
end

section
/-! SUPPORT. Rejections (R170 to R177): the first failing check of a presentation is raised, and the cycle writes ERR only; an idle
cycle writes nothing (R185, R204). -/

namespace Sys2Proof.Proofs

open Sys2Proof.Machine Sys2Proof.Safety Sys2Proof.Laws

/-! ### Each command's rejections -/

theorem channelInRange_of_gt {c : BitVec 5} (h : 16 < c.toNat) : channelInRange c = false :=
  decide_eq_false (Nat.not_lt_of_le h)

theorem powerAcceptable_transmit_of_gt {p : BitVec 4} (h : 10 < p.toNat) : powerAcceptable .transmit p = false :=
  decide_eq_false (Nat.not_lt_of_le h)

/-- An illegal instruction's one check always fails, R175. -/
theorem exec_of_illegal_ready {i : Instr} {s : State} (hb : s.busy = false) (hi : i.illegal = true) :
    exec i s = .next { s with err := .badCommand } := by
  rw [exec_of_illegal hi]
  exact present_of_error hb rfl

/-- Settles O12: each row is one of the illegal instructions. -/
theorem illegalRowsRaiseBadCommand : Obligations.IllegalRowsRaiseBadCommand := fun _ hb =>
  ⟨fun _ => exec_of_illegal_ready hb rfl, fun _ _ => exec_of_illegal_ready hb rfl, fun _ _ => exec_of_illegal_ready hb rfl,
    fun _ _ => exec_of_illegal_ready hb rfl, fun _ => exec_of_illegal_ready hb rfl⟩

/-- Settles O14: START checks BUS_OK, then the channel, then the power of a Transmit. -/
theorem startRejections : Obligations.StartRejections := by
  intro ch d pw s hb
  refine ⟨fun hbus => ?_, fun hbus hch => ?_, fun hbus hch hd hpw => ?_⟩
  · exact present_of_error hb (by rw [hbus]; rfl)
  · exact present_of_error hb (by rw [hbus, channelInRange_of_gt hch]; rfl)
  · have hin : channelInRange ch = true := channelInRange_iff.mpr (Nat.lt_succ_of_le hch)
    subst hd
    exact present_of_error hb (by rw [hbus, hin, powerAcceptable_transmit_of_gt hpw]; rfl)

/-- Settles O15: CHCH checks BUS_OK, then STARTED, then the channel. -/
theorem chchRejections : Obligations.ChchRejections := by
  intro ch _ _ s hb
  refine ⟨fun hbus => ?_, fun hbus hst => ?_, fun hbus hst hch => ?_⟩
  · exact present_of_error hb (by rw [hbus]; rfl)
  · exact present_of_error hb (by rw [hbus, hst]; rfl)
  · exact present_of_error hb (by rw [hbus, hst, channelInRange_of_gt hch]; rfl)

/-- Settles O16: KA checks BUS_OK, then STARTED. -/
theorem kaRejections : Obligations.KaRejections := by
  intro _ s hb
  refine ⟨fun hbus => ?_, fun hbus hst => ?_⟩
  · exact present_of_error hb (by rw [hbus]; rfl)
  · exact present_of_error hb (by rw [hbus, hst]; rfl)

/-! ### Over words, and over cycles -/

/-- Settles O17: the causes of a word are the failing checks of its command, in the same order. -/
theorem firstCauseInPriorityOrderIsReported : Obligations.FirstCauseInPriorityOrderIsReported :=
  fun _ _ hb => exec_decodeWord hb

/-- A cycle that leaves the machine ready does not draw MOSI anew, R177. -/
theorem linesAfterPresentation_of_ready {hw : Hardware} {u : State} (hb : u.busy = false) :
    linesAfterPresentation hw u = u := by
  simp [linesAfterPresentation, hb]

/-- Settles O20: the rejection leaves BUSY = 0, so nothing but the next inputs follows it. -/
theorem rejectionWritesErrOnly : Obligations.RejectionWritesErrOnly := by
  intro s code hp hc
  obtain ⟨_, hb, _⟩ := ready_of_presented hp
  have hlines : linesAfterPresentation Config.hardware { s with err := code } = { s with err := code } :=
    linesAfterPresentation_of_ready hb
  have hstep := step_of_takes ⟨hp, rfl⟩ (exec_of_firstCause hb hc)
  rw [hlines] at hstep
  exact ⟨_, hstep, rfl, by simp [Arch.cmdReady, hb]⟩

/-- Settles O25: an idle cycle draws MOSI and passes the inputs on. -/
theorem idleCycleHoldsTheState : Obligations.IdleCycleHoldsTheState :=
  fun _ hr hb hv => ⟨_, cycle_of_idle hr hb hv, rfl⟩

end Sys2Proof.Proofs
end

section
/-! SUPPORT. Resets (R39, R200, R202), the register-mapped wrapper (R56), and the micro-operations (R86, R87, R142 to R148). -/

namespace Sys2Proof.Proofs

open Sys2Proof.Machine Sys2Proof.Safety Sys2Proof.Laws

/-! ### Reset -/

/-- A reset cuts no frame where CS_N = 1 and one frame otherwise, R201 and R202. -/
theorem cutEvents_cases (hw : Hardware) (s : State) : cutEvents hw s = [] ∨ ∃ l k, cutEvents hw s = [.truncated l k] := by
  unfold cutEvents
  split
  · exact .inl rfl
  · exact .inr ⟨_, _, rfl⟩

/-- The step of a reset. -/
theorem step_of_rst {s : State} (hr : s.port.rst = true) :
    step s = .next (passInputs s (resetCycle Config.hardware s)) := cycle_of_rst hr

/-- STATUS reads 0 after a reset, whatever HIST holds, R36 and R39. -/
theorem status_reset (es : List Event) : Arch.status { Arch.reset with hist := es } = 0x0000 := by
  show Arch.status Arch.reset = 0x0000
  decide

/-- Settles O26: a reset writes the power-on values over all but the inputs and HIST, which gains the cut and Reset. -/
theorem resetGivesTheResetValues : Obligations.ResetGivesTheResetValues := by
  refine ⟨?_, rfl, fun s hr => ⟨_, step_of_rst hr, ?_, cutEvents Config.hardware s, rfl, cutEvents_cases _ s⟩⟩
  all_goals exact ⟨rfl, rfl, rfl, rfl, rfl, rfl, rfl, rfl, rfl, rfl, rfl, rfl, rfl, rfl, status_reset _⟩

/-- Settles O27: with CS_N = 1 the history gains Reset alone. -/
theorem resetOutsideAFrameTruncatesNothing : Obligations.ResetOutsideAFrameTruncatesNothing := by
  intro s hr hc
  have hstep := step_of_rst hr
  exact ⟨_, hstep, (historyIsOnlyAppendedTo s _ hstep).2.1 hr hc, rfl, rfl⟩

/-! ### The wrapper -/

/-- Settles O22: only offset 0 writes and only offset 1 reads. -/
theorem wrapperAddressMap : Obligations.WrapperAddressMap := by
  intro s
  refine ⟨fun _ => rfl, rfl, rfl, fun _ => rfl, fun n hn => ⟨if_neg ?_, fun _ => if_neg ?_⟩⟩
  · exact Nat.ne_of_gt hn
  · exact Nat.ne_of_gt (Nat.zero_lt_of_lt hn)

/-! ### Micro-operations -/

/-- Settles O41: the frames' bytes are those of R87 where the indices are in range. -/
theorem microStepsDoWhatTheRulesSay : Obligations.MicroStepsDoWhatTheRulesSay := by
  refine ⟨⟨rfl, rfl, rfl, rfl⟩, fun a op hc hp hop => ?_⟩
  cases op with
  | settle => exact microStep_of_settle hop
  | finish => exact microStep_of_finish hop
  | fStop => exact microStep_of_frame hop rfl
  | fBlob => exact microStep_of_frame hop (blobBytes_eq Config.hardware)
  | fPower => exact microStep_of_frame hop (powerBytes_eq Config.hardware a fun hd => Nat.lt_succ_of_le (hp hd))
  | fChannel => exact microStep_of_frame hop (channelBytes_eq Config.hardware a (Nat.lt_succ_of_le hc))
  | fMode => exact microStep_of_frame hop rfl

end Sys2Proof.Proofs
end

section
/-! SUPPORT. A KA's run as a rule of the machine (R125), and two of them in a row (R60, R127). -/

namespace Sys2Proof.Proofs

open Sys2Proof.Machine Sys2Proof.Safety Sys2Proof.Laws

theorem inv_of_reaches {n : Nat} {s t : State} (hi : Inv Config.hardware s) (h : Reaches n s t) : Inv Config.hardware t :=
  inv_runsTo hi ⟨(run_core n s).symm.trans h, rfl⟩

/-- A run is one cycle and then the others. -/
theorem reaches_cons {n : Nat} {s t u : State} (ht : step s = .next t) (h : Reaches n t u) : Reaches (n + 1) s u := by
  rw [Reaches, run_core] at *
  rw [runWith, show cycle Config.hardware s = .next t from ht]
  exact h

/-- The state in which a KA taken in `a` ends: HIST has its mode frame more, R125 and R148. -/
def afterKa (a : Arch) : Arch :=
  { a with
    err := .ok, seq := .none, stepIdx := 0, busy := false
    hist := a.hist ++ [.frame (modeBytes Config.hardware a)] }

/-- An accepted KA with any ignored bits runs to its END. -/
theorem reaches_afterKa {x : BitVec 10} {s : State} (hi : Inv Config.hardware s) (hq : quiet s = true)
    (ht : takes (encode (.ka x)) s) (hbus : s.port.busOk = true) (hst : s.started = true) :
    ∃ n t, Reaches n s t ∧ t.toArch = afterKa s.toArch := by
  obtain ⟨_, hb, _⟩ := ready_of_presented ht.1
  have hx : exec (decodeWord (encode (.ka x))) s = .next { s with toArch := acceptKa s.toArch } := by
    rw [decodeOfEncodeIsTheInstruction (.ka x) rfl]
    exact acceptedKaCommitsNoHandleRegister x s hb hbus hst
  obtain ⟨t, hstep, _, n, u, hr, _, hu⟩ := runsCommand_of_accepted hi hq ht hx rfl rfl
  exact ⟨n + 1, u, reaches_cons hstep hr, hu⟩

/-- Settles O49: the first KA leaves the direction as it was, so the second sends the same mode frame. -/
theorem repeatedKaFramesAreIdentical : Obligations.RepeatedKaFramesAreIdentical := by
  intro x y s p ps hi hq ht hbus hst
  obtain ⟨n, t, hr, ha⟩ := reaches_afterKa hi hq ht hbus hst
  have hit := inv_ports p ps (inv_of_reaches hi hr)
  refine ⟨modeBytes Config.hardware s.toArch, n, t, hr, by rw [ha]; rfl, by rw [ha]; rfl, fun hq' ht' hbus' => ?_⟩
  obtain ⟨m, u, hr', hu⟩ := reaches_afterKa hit hq' ht' hbus' (by show t.started = true; rw [ha]; exact hst)
  refine ⟨m, u, hr', by rw [hu]; rfl, ?_⟩
  calc u.hist = t.hist ++ [.frame (modeBytes Config.hardware t.toArch)] := by rw [hu]; rfl
    _ = s.hist ++ [.frame (modeBytes Config.hardware s.toArch)] ++ [.frame (modeBytes Config.hardware s.toArch)] := by
      rw [ha]; rfl
    _ = _ := List.append_assoc _ _ _

end Sys2Proof.Proofs
end

section
/-! SUPPORT. The events of the keepalive duty are the machine's (R110, R148, R206). -/

namespace Sys2Proof.Proofs

open Sys2Proof.Machine Sys2Proof.Safety Sys2Proof.Laws

/-- The OP field selects the command's sequence, R81 and R110. -/
def OpSelects (o : BitVec 2) (q : SeqId) : Prop :=
  o = 0b01 ∧ q = .start ∨ o = 0b10 ∧ q = .chch ∨ o = 0b11 ∧ q = .ka

theorem OpSelects.unique {o : BitVec 2} {q r : SeqId} (hq : OpSelects o q) (hr : OpSelects o r) : q = r := by
  obtain ⟨rfl, rfl⟩ | ⟨rfl, rfl⟩ | ⟨rfl, rfl⟩ := hq
  · simpa [OpSelects, eq_comm] using hr
  · simpa [OpSelects, eq_comm] using hr
  · simpa [OpSelects, eq_comm] using hr

theorem OpSelects.ne_none {o : BitVec 2} {q : SeqId} (h : OpSelects o q) : q ≠ .none := by
  obtain ⟨_, rfl⟩ | ⟨_, rfl⟩ | ⟨_, rfl⟩ := h
  all_goals exact nofun

theorem opField_of_decodeWord {w : CmdWord} {i : Instr} (h : decodeWord w = i) : opField w = opField (encode i) := by
  rw [← h, (encodeOfDecodeIsTheWord w).2]

/-- An accepted word begins the sequence its OP field selects. -/
theorem opSelects_of_accepted {w : CmdWord} {s u : State} (hb : s.busy = false) (hx : exec (decodeWord w) s = .next u)
    (hu : u.busy = true) : OpSelects (opField w) u.seq := by
  obtain ⟨_, rfl⟩ | ⟨_, code, _, rfl⟩ | ⟨_, _, ch, d, pw, hi, _, _, rfl⟩ | ⟨_, _, _, ch, d, pw, hi, _, rfl⟩ |
    ⟨_, _, _, x, hi, rfl⟩ := exec_cases hx
  · exact absurd (hb.symm.trans hu) Bool.false_ne_true
  · exact absurd (hb.symm.trans hu) Bool.false_ne_true
  · exact .inl ⟨(opField_of_decodeWord hi).trans (opField_append _ _), rfl⟩
  · exact .inr (.inl ⟨(opField_of_decodeWord hi).trans (opField_append _ _), rfl⟩)
  · exact .inr (.inr ⟨(opField_of_decodeWord hi).trans (opField_append _ _), rfl⟩)

/-- A word without a cause of R176 is accepted. -/
theorem exec_of_no_cause {w : CmdWord} {s : State} (hb : s.busy = false) (hc : firstCause w s = none) :
    ∃ u, exec (decodeWord w) s = .next u ∧ u.busy = true := by
  have h := exec_decodeWord (w := w) hb
  unfold AnswersFirstCause at h
  rw [hc] at h
  obtain ⟨u, hx, _, hbu⟩ := h
  exact ⟨u, hx, hbu⟩

/-- The cycle of END clears BUSY, R148. -/
theorem busy_of_finish {hw : Hardware} {s u : State} (hop : microOpAt s.toArch = some .finish)
    (hu : sequencerCycle hw s = .next u) : u.busy = false := by
  obtain ⟨hop', _⟩ | ⟨_, _, rfl⟩ | ⟨op, _, hop', hf, _⟩ := sequencerCycle_cases hu
  · exact absurd (hop.symm.trans hop') (by decide)
  · rfl
  · cases hop.symm.trans hop'
    cases hf

section NoReset

variable {s t : State} (hr : s.port.rst = false) (ht : step s = .next t)
include hr ht

/-- An acceptance event is an accepted word's cycle. -/
theorem linkEvent_accepted_iff (q : SeqId) : linkEvent s t = some (.accepted q) ↔
    presented s = true ∧ firstCause s.port.cmdWord s = none ∧ OpSelects (opField s.port.cmdWord) q := by
  rw [linkEvent_accepted]
  constructor
  · rintro ⟨_, hb, hbt, rfl⟩
    obtain ⟨hp, hc, _⟩ := (busyRisesAtAcceptanceAndFallsAtEnd s t hr ht).1 hb hbt
    obtain ⟨u, hx, hbu⟩ := exec_of_no_cause hb hc
    cases (step_of_takes ⟨hp, rfl⟩ hx).symm.trans ht
    refine ⟨hp, hc, ?_⟩
    simpa using opSelects_of_accepted hb hx hbu
  · rintro ⟨hp, hc, hop⟩
    obtain ⟨_, hb, _⟩ := ready_of_presented hp
    obtain ⟨u, hx, hbu⟩ := exec_of_no_cause hb hc
    cases (step_of_takes ⟨hp, rfl⟩ hx).symm.trans ht
    have hq := (opSelects_of_accepted hb hx hbu).unique hop
    exact ⟨hr, hb, by simpa using hbu, by simpa using hq⟩

/-- An END event is the cycle of the micro-operation END. -/
theorem linkEvent_ended_iff (q : SeqId) : linkEvent s t = some (.ended q) ↔
    s.busy = true ∧ microOpAt s.toArch = some .finish ∧ s.seq = q := by
  rw [linkEvent_ended]
  constructor
  · rintro ⟨_, hb, hbt, hq⟩
    exact ⟨hb, ((busyRisesAtAcceptanceAndFallsAtEnd s t hr ht).2 hb hbt).1, hq⟩
  · rintro ⟨hb, hop, hq⟩
    obtain ⟨_, _, u, hu, ha⟩ | ⟨hb', _⟩ | ⟨hb', _⟩ := step_arch hr ht
    · exact ⟨hr, hb, by rw [ha]; exact busy_of_finish hop hu, hq⟩
    · exact absurd (hb'.symm.trans hb) Bool.false_ne_true
    · exact absurd (hb'.symm.trans hb) Bool.false_ne_true

end NoReset

/-- Settles O52: a reset is no event, and without one the two kinds of event are as above. -/
theorem linkEventsAreAcceptancesAndEnds : Obligations.LinkEventsAreAcceptancesAndEnds := fun _ _ ht =>
  ⟨linkEvent_of_rst, fun hr q => ⟨linkEvent_accepted_iff hr ht q, linkEvent_ended_iff hr ht q⟩⟩

end Sys2Proof.Proofs
end

section
/-! SUPPORT. The keepalive duty over the events of a run (R206): the deadline that runs after a list of events, and which cycle of
the run began it. -/

namespace Sys2Proof.Proofs

open Sys2Proof.Machine Sys2Proof.Safety Sys2Proof.Laws

/-! ### Lists of events -/

/-- The event begins an interval of the duty. -/
def StartsDeadline (e : LinkEvent) : Prop := e = .accepted .ka ∨ e = .ended .start ∨ e = .ended .chch

/-- When the deadline that runs after an event began, as `keepsAlive` passes it on. -/
def nextDeadline (last : Option Nat) : Nat × LinkEvent → Option Nat
  | (now, .accepted .ka) => some now
  | (_, .accepted .start) => none
  | (_, .accepted .chch) => none
  | (now, .ended .start) => some now
  | (now, .ended .chch) => some now
  | (_, .ended .ka) => last
  | (_, .accepted .none) => last
  | (_, .ended .none) => last

/-- What `keepsAlive` asks of an event: an acceptance is in time. -/
def meetsDeadline (period : Nat) (last : Option Nat) : Nat × LinkEvent → Bool
  | (_, .accepted .none) => true
  | (now, .accepted _) => inTime period last now
  | (_, .ended _) => true

theorem nextDeadline_of_starts {e : LinkEvent} (he : StartsDeadline e) (last : Option Nat) (now : Nat) :
    nextDeadline last (now, e) = some now := by
  obtain rfl | rfl | rfl := he
  all_goals rfl

theorem nextDeadline_of_accepted {q : SeqId} (hq : q ≠ .none) (he : ¬ StartsDeadline (.accepted q)) (last : Option Nat)
    (now : Nat) : nextDeadline last (now, .accepted q) = none := by
  cases q with
  | none => exact absurd rfl hq
  | start => rfl
  | chch => rfl
  | ka => exact absurd (.inl rfl) he

theorem nextDeadline_of_ended {q : SeqId} (he : ¬ StartsDeadline (.ended q)) (last : Option Nat) (now : Nat) :
    nextDeadline last (now, .ended q) = last := by
  cases q with
  | none => rfl
  | start => exact absurd (.inr (.inl rfl)) he
  | chch => exact absurd (.inr (.inr rfl)) he
  | ka => rfl

theorem inTime_iff {period now : Nat} {last : Option Nat} :
    inTime period last now = true ↔ ∀ c, last = some c → now ≤ c + period := by
  cases last with
  | none => simp [inTime]
  | some c => simp [inTime]

theorem meetsDeadline_accepted {q : SeqId} (hq : q ≠ .none) {period now : Nat} {last : Option Nat} :
    meetsDeadline period last (now, .accepted q) = true ↔ ∀ c, last = some c → now ≤ c + period := by
  cases q with
  | none => exact absurd rfl hq
  | start => exact inTime_iff
  | chch => exact inTime_iff
  | ka => exact inTime_iff

/-- The duty of a list: its first event is in time, and the rest keep the duty from the deadline it leaves. -/
theorem keepsAlive_cons (period : Nat) (last : Option Nat) (x : Nat × LinkEvent) (rest : List (Nat × LinkEvent)) :
    keepsAlive period last (x :: rest) = (meetsDeadline period last x && keepsAlive period (nextDeadline last x) rest) := by
  obtain ⟨now, q | q⟩ := x
  all_goals cases q <;> simp [keepsAlive, meetsDeadline, nextDeadline]

/-- One event more: it is in time for the deadline that the list leaves. -/
theorem keepsAlive_concat (period : Nat) (last : Option Nat) (l : List (Nat × LinkEvent)) (x : Nat × LinkEvent) :
    keepsAlive period last (l ++ [x]) = (keepsAlive period last l && meetsDeadline period (l.foldl nextDeadline last) x) := by
  induction l generalizing last with
  | nil => rw [List.nil_append, keepsAlive_cons]; simp [keepsAlive]
  | cons y l ih => rw [List.cons_append, keepsAlive_cons, keepsAlive_cons, ih, List.foldl_cons, Bool.and_assoc]

/-- The interval from an event that begins one to an acceptance right after it. -/
theorem le_of_keepsAlive {period t u : Nat} {e : LinkEvent} {q : SeqId} {rest : List (Nat × LinkEvent)} {last : Option Nat}
    (hq : q ≠ .none) (he : StartsDeadline e) (h : keepsAlive period last ((t, e) :: (u, .accepted q) :: rest) = true) :
    u ≤ t + period := by
  rw [keepsAlive_cons, keepsAlive_cons, nextDeadline_of_starts he, Bool.and_eq_true, Bool.and_eq_true] at h
  exact (meetsDeadline_accepted hq).mp h.2.1 t rfl

/-! ### Intervals of a run -/

/-- An interval of the duty begins in cycle `i`. -/
def StartsAt (s : State) (i : Nat) : Prop := ∃ e, eventAt s i = some e ∧ StartsDeadline e

/-- The interval that begins in cycle `i` still runs before cycle `n`: no command was accepted in between. -/
def RunningSince (s : State) (i n : Nat) : Prop :=
  i < n ∧ StartsAt s i ∧ ∀ k, i < k → k < n → ∀ q, eventAt s k ≠ some (.accepted q)

theorem runningSince_succ {s : State} {i n : Nat} : RunningSince s i (n + 1) ↔
    i = n ∧ StartsAt s n ∨ RunningSince s i n ∧ ∀ q, eventAt s n ≠ some (.accepted q) := by
  constructor
  · rintro ⟨hi, hs, hno⟩
    obtain hlt | rfl := Nat.lt_succ_iff_lt_or_eq.mp hi
    · exact .inr ⟨⟨hlt, hs, fun k hk hkn => hno k hk (Nat.lt_succ_of_lt hkn)⟩, hno n hlt (Nat.lt_succ_self n)⟩
    · exact .inl ⟨rfl, hs⟩
  · rintro (⟨rfl, hs⟩ | ⟨⟨hi, hs, hno⟩, hn⟩)
    · exact ⟨Nat.lt_succ_self i, hs, fun k hk hki => absurd hk (Nat.not_lt.mpr (Nat.le_of_lt_succ hki))⟩
    · refine ⟨Nat.lt_succ_of_lt hi, hs, fun k hk hkn => ?_⟩
      obtain hlt | rfl := Nat.lt_succ_iff_lt_or_eq.mp hkn
      · exact hno k hk hlt
      · exact hn

/-! ### While an interval runs, no other sequence than a KA's does -/

/-- If a sequence runs, it is a KA's. -/
def OnlyKaRuns (s : State) : Prop := s.busy = true → s.seq = .ka

theorem onlyKaRuns_of_starts {s t : State} {e : LinkEvent} (h : linkEvent s t = some e) (he : StartsDeadline e) :
    OnlyKaRuns t := by
  obtain rfl | rfl | rfl := he
  · obtain ⟨_, _, _, hq⟩ := linkEvent_accepted.mp h
    exact fun _ => hq
  all_goals
    obtain ⟨_, _, hbt, _⟩ := linkEvent_ended.mp h
    exact fun hb => absurd (hbt.symm.trans hb) Bool.false_ne_true

/-- The sequencer goes on with the same sequence until its END, R141 and R148. -/
theorem seq_of_sequencerCycle {hw : Hardware} {s u : State} (hu : sequencerCycle hw s = .next u) (hb : u.busy = true) :
    u.seq = s.seq := by
  obtain h | ⟨l, h⟩ | h | ⟨l, h⟩ | h | ⟨_, h⟩ := sequencerCycle_arch hu
  case inr.inr.inr.inr.inr =>
    rw [h] at hb
    exact absurd hb Bool.false_ne_true
  all_goals simp [h]

/-- Only an acceptance begins another sequence. -/
theorem onlyKaRuns_step {s t : State} (hs : OnlyKaRuns s) (ht : step s = .next t)
    (hno : ∀ q, linkEvent s t ≠ some (.accepted q)) : OnlyKaRuns t := by
  intro hbt
  cases hr : s.port.rst with
  | true =>
    cases (cycle_of_rst hr).symm.trans ht
    exact absurd hbt Bool.false_ne_true
  | false =>
    cases hb : s.busy with
    | false => exact absurd (linkEvent_accepted.mpr ⟨hr, hb, hbt, rfl⟩) (hno t.seq)
    | true =>
      obtain ⟨_, _, u, hu, ha⟩ | ⟨hb', _⟩ | ⟨hb', _⟩ := step_arch hr ht
      · rw [ha] at hbt ⊢
        exact (seq_of_sequencerCycle hu hbt).trans (hs hb)
      · exact absurd (hb'.symm.trans hb) Bool.false_ne_true
      · exact absurd (hb'.symm.trans hb) Bool.false_ne_true

theorem onlyKaRuns_of_runningSince {s u : State} {i n : Nat} (h : RunningSince s i n) (hu : Reaches n s u) :
    OnlyKaRuns u := by
  induction n generalizing u with
  | zero => exact absurd h.1 (Nat.not_lt_zero i)
  | succ n ih =>
    obtain ⟨v, hv, hstep⟩ := reaches_succ.mp hu
    have hev := eventAt_of_step hv hstep
    obtain ⟨rfl, e, he, hse⟩ | ⟨hrun, hno⟩ := runningSince_succ.mp h
    · exact onlyKaRuns_of_starts (hev.symm.trans he) hse
    · exact onlyKaRuns_step (ih hrun hv) hstep (by rwa [hev] at hno)

/-- So while an interval runs, no other begins without an acceptance. -/
theorem accepted_of_startsDeadline {s : State} {i n : Nat} {e : LinkEvent} (h : RunningSince s i n)
    (he : eventAt s n = some e) (hse : StartsDeadline e) : e = .accepted .ka := by
  obtain ⟨u, t, hu, _, hl⟩ := eventAt_eq_some.mp he
  have ended {q : SeqId} (hl : linkEvent u t = some (.ended q)) : q = .ka := by
    obtain ⟨_, hb, _, rfl⟩ := linkEvent_ended.mp hl
    exact onlyKaRuns_of_runningSince h hu hb
  obtain rfl | rfl | rfl := hse
  · rfl
  · cases ended hl
  · cases ended hl

/-- An accepted command has a sequence, R110. -/
theorem seq_ne_none_of_accepted {s : State} {k : Nat} {q : SeqId} (h : eventAt s k = some (.accepted q)) : q ≠ .none := by
  obtain ⟨u, t, _, ht, hl⟩ := eventAt_eq_some.mp h
  obtain ⟨hr, _⟩ := linkEvent_accepted.mp hl
  obtain ⟨_, _, hop⟩ := (linkEvent_accepted_iff hr ht q).mp hl
  exact hop.ne_none

/-! ### The deadline of a run -/

/-- When the deadline that runs before cycle `n` began. -/
def deadlineAt (clock : Nat → Nat) (s : State) (n : Nat) : Option Nat := (linkTrace clock n s).foldl nextDeadline none

theorem deadlineAt_succ_of_none (clock : Nat → Nat) {s : State} {n : Nat} (h : eventAt s n = none) :
    deadlineAt clock s (n + 1) = deadlineAt clock s n := by
  simp [deadlineAt, linkTrace_succ, h]

theorem deadlineAt_succ_of_some (clock : Nat → Nat) {s : State} {n : Nat} {e : LinkEvent} (h : eventAt s n = some e) :
    deadlineAt clock s (n + 1) = nextDeadline (deadlineAt clock s n) (clock n, e) := by
  simp [deadlineAt, linkTrace_succ, h]

/-- The deadline that runs is the one of the interval that runs. -/
theorem deadlineAt_eq_some {clock : Nat → Nat} {s : State} {n c : Nat} :
    deadlineAt clock s n = some c ↔ ∃ i, RunningSince s i n ∧ clock i = c := by
  induction n with
  | zero => simp [deadlineAt, RunningSince]
  | succ n ih =>
    have unchanged (hd : deadlineAt clock s (n + 1) = deadlineAt clock s n) (hs : ¬ StartsAt s n)
        (ha : ∀ q, eventAt s n ≠ some (.accepted q)) :
        deadlineAt clock s (n + 1) = some c ↔ ∃ i, RunningSince s i (n + 1) ∧ clock i = c := by
      simp only [hd, ih, runningSince_succ, hs, and_false, false_or, ha, ne_eq, not_false_eq_true, implies_true, and_true]
    cases he : eventAt s n with
    | none => exact unchanged (deadlineAt_succ_of_none clock he) (by simp [StartsAt, he]) (by simp [he])
    | some e =>
      have hd := deadlineAt_succ_of_some clock he
      by_cases hse : StartsDeadline e
      · have hruns (i : Nat) : RunningSince s i (n + 1) ↔ i = n := by
          rw [runningSince_succ]
          constructor
          · rintro (⟨rfl, _⟩ | ⟨hrun, hno⟩)
            · rfl
            · rw [accepted_of_startsDeadline hrun he hse] at he
              exact absurd he (hno .ka)
          · exact fun hi => .inl ⟨hi, e, he, hse⟩
        simp only [hd, nextDeadline_of_starts hse, hruns, Option.some.injEq, exists_eq_left]
      · cases e with
        | accepted q =>
          rw [hd, nextDeadline_of_accepted (seq_ne_none_of_accepted he) hse]
          simp [runningSince_succ, StartsAt, he, hse]
        | ended q =>
          rw [nextDeadline_of_ended hse] at hd
          exact unchanged hd (by simp [StartsAt, he, hse]) (by simp [he])

/-- The duty of a run: each acceptance is in time for the interval that runs. -/
theorem keepsAlive_linkTrace {period : Nat} {clock : Nat → Nat} {n : Nat} {s : State} :
    keepsAlive period none (linkTrace clock n s) = true ↔
      ∀ j < n, ∀ q, eventAt s j = some (.accepted q) → ∀ i, RunningSince s i j → clock j ≤ clock i + period := by
  induction n with
  | zero => simp [keepsAlive]
  | succ n ih =>
    rw [Nat.forall_lt_succ_right, ← ih, linkTrace_succ]
    cases he : eventAt s n with
    | none => simp
    | some e =>
      have hmeets : meetsDeadline period (deadlineAt clock s n) (clock n, e) = true ↔
          ∀ q, some e = some (.accepted q) → ∀ i, RunningSince s i n → clock n ≤ clock i + period := by
        cases e with
        | accepted q => simp [meetsDeadline_accepted (seq_ne_none_of_accepted he), deadlineAt_eq_some]
        | ended q => simp [meetsDeadline]
      rw [Option.map_some, Option.toList_some, keepsAlive_concat, Bool.and_eq_true, ← hmeets]
      rfl

/-- Settles O51: in a list by `le_of_keepsAlive`, as `keepsAlive` passes over the END of a KA; in a run by
`keepsAlive_linkTrace`. -/
theorem keepaliveDutyBoundsTheInterval : Obligations.KeepaliveDutyBoundsTheInterval := by
  refine ⟨fun period t x u q rest last hq => ⟨fun e he h => le_of_keepsAlive hq he h, fun h => ?_⟩,
    fun period clock n s => ?_⟩
  · exact le_of_keepsAlive (e := .accepted .ka) (last := last) hq (.inl rfl) h
  · rw [keepsAlive_linkTrace]
    constructor
    · exact fun h i j e q hij hj he hse hq hno => h j hj q hq i ⟨hij, ⟨e, he, hse⟩, hno⟩
    · rintro h j hj q hq i ⟨hij, ⟨e, he, hse⟩, hno⟩
      exact h i j e q hij hj he hse hq hno

end Sys2Proof.Proofs
end
